-- ==== Sys2Proof/Word.lean ====
section
/-! DEFINITION. The bus and register words of the ST7735 display sequencer. -/

namespace Sys2Proof

/-- One byte: a command byte, a script byte, a byte of memory. -/
abbrev Byte := BitVec 8

/-- One 16-bit word: an RGB565 color, a coordinate on the bus, a geometry register. -/
abbrev Word := BitVec 16

/-- The host request word `q` (30_encoding R100). -/
abbrev Request := BitVec 128

end Sys2Proof
end

