-- ==== Sys2Proof/Config.lean ====
section
/-! DEFINITION. The configuration of 00_scope R9: what an implementation fixes and nothing in the block changes. -/

namespace Sys2Proof

/-- `P_COORD_FORMAT` (R9, 90_conflicts C1): how a coordinate goes on the wire. -/
inductive CoordFormat where
  | bytesHiLo
  | zeroHiLow8
  deriving DecidableEq, Repr, Inhabited

/-- `P_NEG_ORIGIN` (R9, 90_conflicts C3): a fill whose origin is negative. -/
inductive NegOrigin where
  | noop
  | clip
  deriving DecidableEq, Repr, Inhabited

/-- `P_HOST_ENDIAN` (R9, 20_memory R74). -/
inductive Endian where
  | little
  | big
  deriving DecidableEq, Repr, Inhabited

/-- `P_BIT_ORDER` (R9): MSB_FIRST is fixed by the spec's decision D8, so there is no other value. -/
inductive BitOrder where
  | msbFirst
  deriving DecidableEq, Repr, Inhabited

/-- A toggle's two settle delays in milliseconds, `none` where it has none (`P_SETTLE[op][v]`, R9). -/
structure SettlePair where
  off : Option Nat
  on  : Option Nat
  deriving DecidableEq, Repr, Inhabited

/-- `P_SETTLE` (R9), one pair for each toggle of 43_modes_and_helpers R260 to R264. -/
structure Settle where
  invert      : SettlePair
  partialMode : SettlePair
  sleep       : SettlePair
  idle        : SettlePair
  enable      : SettlePair
  deriving DecidableEq, Repr, Inhabited

/-- One entry of `P_PWRSAVE` (R9): the command byte and the settle delay of a power-save mode. -/
structure PowerEntry where
  cmd    : Byte
  settle : Option Nat
  deriving DecidableEq, Repr, Inhabited

/-- The parameters of 00_scope R9. Each has the type R9 gives it: `P_MAX_CHUNK` is at least 1, `P_ADDR_W` at most 32
(30_encoding R100), `P_INIT_ROTATION` and `P_SPI_MODE` lie in 0..3. -/
structure Config where
  /-- `P_PANEL_W`, the rotation-0 width. -/
  panelW : Word
  /-- `P_PANEL_H`, the rotation-0 height. -/
  panelH : Word
  /-- `P_COLSTART`. -/
  colStart : Word
  /-- `P_ROWSTART`. -/
  rowStart : Word
  /-- `P_RST_PRESENT`: the optional hardware-reset line exists. -/
  rstPresent : Bool
  /-- `P_SCRIPT_ROM`: the contents of SCRIPT space (20_memory R71). -/
  scriptRom : List Byte
  /-- `P_SCRIPT_ADDR[1]`. -/
  scriptAddr1 : Nat
  /-- `P_SCRIPT_ADDR[2]`. -/
  scriptAddr2 : Nat
  /-- `P_SCRIPT_ADDR[3]`. -/
  scriptAddr3 : Nat
  /-- `P_INIT_ROTATION`. -/
  initRotation : BitVec 2
  /-- `P_MADCTL[0]` to `P_MADCTL[3]`. -/
  madctl0 : Byte
  madctl1 : Byte
  madctl2 : Byte
  madctl3 : Byte
  /-- `P_XYSTART_SWAP`. -/
  xyStartSwap : Bool
  /-- The command codes `P_CMD_*` of 30_encoding R120. -/
  cmdCaset   : Byte
  cmdRaset   : Byte
  cmdRamwr   : Byte
  cmdMadctl  : Byte
  cmdInvOn   : Byte
  cmdInvOff  : Byte
  cmdPtlOn   : Byte
  cmdNorOn   : Byte
  cmdSlpIn   : Byte
  cmdSlpOut  : Byte
  cmdIdmOn   : Byte
  cmdIdmOff  : Byte
  cmdDispOn  : Byte
  cmdDispOff : Byte
  /-- `P_SETTLE`. -/
  settle : Settle
  /-- `P_PWRSAVE`, a finite map: the first entry of a mode counts. -/
  pwrSave : List (Byte × PowerEntry)
  /-- `P_MAX_CHUNK`. -/
  maxChunk : ℕ+
  /-- `P_DMA_PRESENT`. -/
  dmaPresent : Bool
  /-- `P_DMA_THRESHOLD`. -/
  dmaThreshold : Nat
  /-- `P_SPI_CLOCK`, an opaque value that is only passed through (70_reset_and_hazards R357). -/
  spiClock : Nat
  /-- `P_SPI_MODE`. -/
  spiMode : BitVec 2
  /-- `P_COORD_FORMAT`. -/
  coordFormat : CoordFormat
  /-- `P_NEG_ORIGIN`. -/
  negOrigin : NegOrigin
  /-- `P_HOST_ENDIAN`. -/
  hostEndian : Endian
  /-- `P_ADDR_W`. -/
  addrW : Fin 33
  deriving DecidableEq, Repr, Inhabited

/-- The implementation's own parameters: OPEN in R9, so nothing is known of them (log entry 2). -/
opaque Config.implementation : Config

/-- The configuration the machine has at reset: the implementation's, with the panel size that R9 fixes. -/
def Config.base : Config := { Config.implementation with panelW := 128, panelH := 160 }

end Sys2Proof
end

