-- ==== Sys2Proof/Syntax.lean ====
section
/-! DEFINITION. The instructions of the block: the host requests and the two script record forms (00_scope R4),
one constructor for each row of spec/opcode_table.json. -/

namespace Sys2Proof

/-- An instruction with its operands as 30_encoding R103 and R105 name them. Coordinates and lengths are the 16-bit
fields as sent; the operand forms of Machine/Operands.lean read them signed (`s16`) or unsigned (`u16`). -/
inductive Instr where
  /-- `INIT` (R148). -/
  | init
  /-- `RUN_SCRIPT @a` (R150): `ptr` is PTR whole; the address is its low P_ADDR_W bits. -/
  | runScript (ptr : BitVec 32)
  /-- `SET_ADDR_WINDOW x0, y0, x1, y1` (R182), unsigned. -/
  | setAddrWindow (x0 y0 x1 y1 : Word)
  /-- `SET_ROTATION m` (R184). -/
  | setRotation (mode : Byte)
  /-- `DRAW_PIXEL x, y, #c` (R214), signed coordinates. -/
  | drawPixel (x y : Word) (c : Word)
  /-- `DRAW_HLINE x, y, w, #c` (R215). -/
  | drawHLine (x y w : Word) (c : Word)
  /-- `DRAW_VLINE x, y, h, #c` (R216). -/
  | drawVLine (x y h : Word) (c : Word)
  /-- `FILL_RECT x, y, w, h, #c` (R217). -/
  | fillRect (x y w h : Word) (c : Word)
  /-- `DRAW_IMAGE x, y, w, h, @p` (R218), a buffer in RAM. -/
  | drawImage (x y w h : Word) (ptr : BitVec 32)
  /-- `DRAW_IMAGE_ROM x, y, w, h, @p` (R219), a buffer in ROSTORE. -/
  | drawImageRom (x y w h : Word) (ptr : BitVec 32)
  /-- `INVERT b` (R260). -/
  | invert (on : Bool)
  /-- `PARTIAL b` (R261). -/
  | partialMode (on : Bool)
  /-- `SLEEP b` (R262). -/
  | sleep (on : Bool)
  /-- `IDLE b` (R263). -/
  | idle (on : Bool)
  /-- `ENABLE b` (R264). -/
  | enable (on : Bool)
  /-- `POWER_SAVE m` (R265). -/
  | powerSave (mode : Byte)
  /-- `SET_BRIGHTNESS l` (R267). -/
  | setBrightness (level : Byte)
  /-- `COLOR565 r, g, b` (R268): the low bytes of A, B and C. -/
  | color565 (r g b : Byte)
  /-- `REC` (R151): a script record without a delay byte (F = 0). -/
  | record (cmd : Byte) (args : List Byte)
  /-- `REC_D` (R151): a script record with a delay byte (F = 1). -/
  | recordDelay (cmd : Byte) (args : List Byte) (dly : Byte)
  deriving DecidableEq, Repr

end Sys2Proof
end

