-- ==== Sys2Proof/Machine/State.lean ====
section
/-! DEFINITION. The block's state (10_state R30 to R44, R50), the outcomes of a step, and the state after reset
(R58). -/

namespace Sys2Proof.Machine

/-- The transport's word size `S.ws` (R40). -/
inductive WordSize where
  | w8
  | w16
  deriving DecidableEq, Repr

/-- `S.script` (R43): the script an `INIT` runs, or `X` for `RUN_SCRIPT`. -/
inductive ScriptId where
  | one
  | two
  | three
  | x
  deriving DecidableEq, Repr

/-- `S.seq`: the states of the initialization FSM (40_init_sequencer R140), in the table's order from `SQ_IDLE` to
`SQ_DONE`. -/
inductive Seq where
  | idle
  | session
  | rst1
  | rst2
  | rst3
  | hdr
  | cmd
  | cnt
  | arg
  | endRec
  | dly
  | recDone
  | next
  | rot
  | done
  deriving DecidableEq, Repr

/-- The two spaces a pixel buffer lies in (20_memory R72, R75). -/
inductive Space where
  | ram
  | rostore
  deriving DecidableEq, Repr

/-- The fields that can hold ⊥ and that some rule reads. -/
inductive Field where
  | width
  | height
  | xStart
  | yStart
  | script
  | sp
  | ncmd
  | nargs
  | dflag
  deriving DecidableEq, Repr

/-- The reason of a model fault (60_exceptions R301). -/
inductive FaultReason where
  | notInitialized
  | misaligned
  | badMode
  | scriptOverrun
  /-- R301's last row: a rule reads a field whose value is ⊥. -/
  | readUnset
  deriving DecidableEq, Repr

/-- The information R301's table records with a fault. -/
inductive FaultInfo where
  | none
  | address (a : Nat)
  | mode (m : Byte)
  | pointer (sp : Nat)
  | field (f : Field)
  deriving DecidableEq, Repr

/-- `S.fault`'s record (R32): the reason, the OP of the request that raised it, and the information. -/
structure FaultRecord where
  reason : FaultReason
  op     : Byte
  info   : FaultInfo
  deriving DecidableEq, Repr

/-- The status of a `RESP` (R50, R51). -/
inductive Status where
  | ok
  | unsupported
  deriving DecidableEq, Repr

/-- The event alphabet of R50. A line level is `true` for 1 and `false` for 0. A word written with `w` is a 16-bit
value; at word size 8 its low byte goes out (R53). -/
inductive Event where
  | sessionBegin (clock : Nat) (order : BitOrder) (mode : BitVec 2) (ws : WordSize)
  | setWs (n : WordSize)
  | cs (v : Bool)
  | dc (v : Bool)
  | rst (v : Bool)
  | w (word : Word)
  | wrep (word : Word) (n : Nat)
  | wbuf (space : Space) (addr : Nat) (words : List Word)
  | dmaStart (word : Word) (n : Nat)
  | dmaDone
  | delay (ms : Nat)
  | resp (status : Status) (result : Word)
  deriving DecidableEq, Repr

/-- What an unfinished stream has left (the model's own field, log entry 6). -/
inductive Pending where
  /-- No stream is unfinished. -/
  | none
  /-- `STREAM_REP` on the DMA path (42_transfer R210): the color, and the words left after the chunk in flight. -/
  | rep (color : Word) (left : Nat)
  /-- `STREAM_BUF` whose buffer the launch memory does not hold (R213, 60_exceptions R307): the read it waits on. -/
  | buf (space : Space) (addr : Nat) (n : Nat)
  deriving DecidableEq, Repr

/-- The machine's state: the block's fields of R31 to R44 and R50 under their own names, and around them what the
block does not own: its configuration, the launch memory and the host. `none` in an optional field is the spec's ⊥
(00_scope R12). -/
structure State where
  /-- The configuration (00_scope R9), which no step changes (10_state R59). -/
  cfg : Config
  /-- RAM of the launch memory (20_memory R72). -/
  ram : List Host.Cell
  /-- ROSTORE of the launch memory (R75). -/
  rostore : List Host.Cell
  /-- The host's requests not yet issued, the next one first (60_exceptions R325). -/
  requests : List Request
  /-- The reset input (70_reset_and_hazards R340), sampled at the start of a step. -/
  resetIn : Bool
  /-- `S.initialized` (R31). -/
  initialized : Bool
  /-- `S.fault` (R32). -/
  fault : Option FaultRecord
  /-- `S.refused` (R33). -/
  refused : Bool
  /-- `S.busy` (R34). -/
  busy : Bool
  /-- `S.rotation` (R35). -/
  rotation : Option (BitVec 2)
  /-- `S.width` and `S.height` (R36). -/
  width : Option Word
  height : Option Word
  /-- `S.xStart` and `S.yStart` (R37). -/
  xStart : Option Word
  yStart : Option Word
  /-- `S.colStart` and `S.rowStart` (R38). -/
  colStart : Word
  rowStart : Word
  /-- `S.ws` (R40). -/
  ws : Option WordSize
  /-- `S.session` (R41). -/
  session : Bool
  /-- The output lines `S.cs`, `S.dc`, `S.rst` (R42), at the level last driven. -/
  cs : Option Bool
  dc : Option Bool
  rst : Option Bool
  /-- The initialization FSM's registers (R43). -/
  seq : Seq
  script : Option ScriptId
  sp : Option Nat
  ncmd : Option Byte
  nargs : Option (BitVec 7)
  dflag : Option Bool
  cmd : Option Byte
  /-- The DMA fast-path registers (R44). -/
  dmaBusy : Bool
  dmaVal : Option Word
  dmaRem : Nat
  /-- What an unfinished stream has left (the model's own, log entry 6). -/
  pending : Pending
  /-- `S.trace` (R50), the oldest event first. -/
  trace : List Event
  deriving DecidableEq, Repr

/-- Why a step stops. -/
inductive Fault where
  /-- Raised by the cycle in a state whose `fault` is recorded: the block takes no step until reset (R303). Safe. -/
  | quiescent
  /-- Raised by the cycle when a stream's buffer is not in the launch memory: the block is stuck there (20_memory R85,
  60_exceptions R307). Safe. -/
  | stuckRead (space : Space) (addr : Nat)
  /-- Raised by the cycle in a state that is busy with no request in progress, which no run reaches: no rule gives a
  step (R34, R352). Safe. -/
  | noMove
  deriving DecidableEq, Repr

/-- Why the machine has no meaning for what it is given. -/
inductive Refusal where
  /-- An arm of `exec` with no meaning yet; no arm answers it. Safe. -/
  | notModelled (mnemonic : String)
  /-- Raised by the cycle after a refused request: no further request is accepted until reset (R302). Safe. -/
  | latched
  /-- Raised by `boot` for a configuration that fails WF_SCRIPTS: it has no run (40_init_sequencer R153). Safe. -/
  | configuration
  deriving DecidableEq, Repr

/-- What a step answers. -/
abbrev Outcome := Host.Outcome State Fault Refusal

/-- The state after reset under a configuration: R58's table, with an empty launch memory, no request and the reset
input low. -/
def State.resetWith (c : Config) : State where
  cfg := c
  ram := []
  rostore := []
  requests := []
  resetIn := false
  initialized := false
  fault := none
  refused := false
  busy := false
  rotation := none
  width := none
  height := none
  xStart := none
  yStart := none
  colStart := c.colStart
  rowStart := c.rowStart
  ws := none
  session := false
  cs := none
  dc := none
  rst := none
  seq := .idle
  script := none
  sp := none
  ncmd := none
  nargs := none
  dflag := none
  cmd := none
  dmaBusy := false
  dmaVal := none
  dmaRem := 0
  pending := .none
  trace := []

/-- The machine right after reset (R58, R340). -/
def State.reset : State := State.resetWith Config.base

end Sys2Proof.Machine
end

