-- ==== Sys2Proof/Machine/Ops.lean ====
section
/-! DEFINITION. The named operations every instruction is made of: memory, events, acceptance, the response, raising a
model fault and block reset. -/

namespace Sys2Proof.Machine

/-! Memory: (address, byte) pairs, addresses strictly rising. An address that is not listed is not admitted (20_memory
R85): it reads as nothing. -/

/-- The canonical form: addresses strictly rising. No entry can equal what an unlisted address reads as, since that
reads as no byte at all. -/
def Memory.wf : List Host.Cell → Bool
  | [] => true
  | [_] => true
  | p :: q :: rest => decide (p.1 < q.1) && Memory.wf (q :: rest)

/-- The byte at an address, or `none` where the launch memory does not admit it. -/
def Memory.read (m : List Host.Cell) (a : Nat) : Option Byte :=
  match m with
  | [] => none
  | (k, v) :: rest => if a = k then some v else Memory.read rest a

/-- The memory with a byte put at an address: how the host supplies a buffer (60_exceptions R325). No rule of the
block writes memory (R82). -/
def Memory.write (m : List Host.Cell) (a : Nat) (v : Byte) : List Host.Cell :=
  match m with
  | [] => [(a, v)]
  | (k, u) :: rest =>
    if a < k then (a, v) :: (k, u) :: rest
    else if a = k then (a, v) :: rest
    else (k, u) :: Memory.write rest a v

/-- Bytes put at consecutive addresses. -/
def Memory.fill (m : List Host.Cell) (a : Nat) : List Byte → List Host.Cell
  | [] => m
  | v :: vs => Memory.fill (Memory.write m a v) (a + 1) vs

/-- The cells of a space. -/
def State.space (s : State) : Space → List Host.Cell
  | .ram => s.ram
  | .rostore => s.rostore

/-- `MemRead(space, a, 1)` (00_scope R13). A space has `P_ADDR_W`-bit addresses (20_memory R72, R75), so no address at
or above `2 ^ P_ADDR_W` exists. -/
def State.memRead (s : State) (sp : Space) (a : Nat) : Option Byte :=
  if a < 2 ^ s.cfg.addrW.val then Memory.read (s.space sp) a else none

/-- `MemRead16(space, a)` (R74): bytes `a` and `a + 1` in the host's byte order. -/
def State.memRead16 (s : State) (sp : Space) (a : Nat) : Option Word :=
  match s.memRead sp a, s.memRead sp (a + 1) with
  | some b0, some b1 =>
    match s.cfg.hostEndian with
    | .little => some (b1 ++ b0)
    | .big => some (b0 ++ b1)
  | _, _ => none

/-- The `n` words of a buffer at `p` (42_transfer R213), or `none` if some read is not admitted. -/
def State.readWords (s : State) (sp : Space) (p : Nat) : Nat → Option (List Word)
  | 0 => some []
  | n + 1 =>
    match s.memRead16 sp p, State.readWords s sp (p + 2) n with
    | some v, some vs => some (v :: vs)
    | _, _ => none

/-! Events. -/

/-- `emit(e)` (00_scope R13): append to the trace; the events that drive a line or set the word size also set the
field R50's table names. -/
def State.emit (s : State) (e : Event) : State :=
  let s := { s with trace := s.trace ++ [e] }
  match e with
  | .sessionBegin _ _ _ n => { s with ws := some n }
  | .setWs n => { s with ws := some n }
  | .cs v => { s with cs := some v }
  | .dc v => { s with dc := some v }
  | .rst v => { s with rst := some v }
  | .w _ => s
  | .wrep _ _ => s
  | .wbuf _ _ _ => s
  | .dmaStart _ _ => s
  | .dmaDone => s
  | .delay _ => s
  | .resp _ _ => s

/-- Several events in order. -/
def State.emitAll (s : State) (es : List Event) : State := es.foldl State.emit s

/-- Acceptance of a request (10_state R34): `S.busy <- 1` before its first check. -/
def State.accept (s : State) : State := { s with busy := true }

/-- `respond(status, result)` (00_scope R13, 10_state R51). -/
def State.respond (s : State) (st : Status) (result : Word) : State :=
  { s.emit (.resp st result) with busy := false }

/-- `raise Fault(reason)` (60_exceptions R301, R303): record the fault; nothing else changes, so `S.busy` stays 1. -/
def State.raise (s : State) (reason : FaultReason) (op : Byte) (info : FaultInfo) : State :=
  { s with fault := some { reason := reason, op := op, info := info } }

/-- The end of a request that succeeded: `respond(OK, 0)`. -/
def State.ok (s : State) : State := s.respond .ok 0

/-- Taking the read of a ⊥ field as the fault R301's last row gives it. -/
def State.unset (s : State) (op : Byte) (f : Field) : State := s.raise .readUnset op (.field f)

/-- The init gate (10_state R31): a request that needs the controller set up faults while `S.initialized = 0`. -/
def requireInit (op : Byte) (s : State) (k : State → Outcome) : Outcome :=
  if s.initialized then k s else .next (s.raise .notInitialized op .none)

/-- Block reset (70_reset_and_hazards R340): every field of `S` to R58's value; the configuration, the launch memory
and the host's remaining requests are not the block's. -/
def State.applyReset (s : State) : State :=
  { State.resetWith s.cfg with ram := s.ram, rostore := s.rostore, requests := s.requests }

end Sys2Proof.Machine
end

