-- ==== Sys2Proof/Machine/Flags.lean ====
section
/-! DEFINITION. The status bits that gate requests (10_state R48). The block has no condition codes, so no request
computes a flag; `S.dflag` is decoded by `delayFlag` of Decode. -/

namespace Sys2Proof.Machine

/-- No fault is recorded and no request was refused: the block takes steps (60_exceptions R303, R302). -/
def State.live (s : State) : Bool := s.fault.isNone && !s.refused

/-- The block accepts a request (R34, R302, R303, 40_init_sequencer R140's SQ_IDLE). -/
def State.accepting (s : State) : Bool :=
  s.live && !s.busy && !s.dmaBusy && s.seq == .idle && s.pending == .none && !s.resetIn

/-- `S.script = X`: the script running is a `RUN_SCRIPT`'s (R43). -/
def State.runningX (s : State) : Bool := s.script == some .x

/-- The OP of the request whose script the FSM runs: `RUN_SCRIPT` for `X`, else `INIT` (R43, log entry 13). -/
def State.scriptOp (s : State) : Byte := if s.runningX then 0x02 else 0x01

end Sys2Proof.Machine
end

