-- ==== Sys2Proof/Machine/Operands.lean ====
section
/-! DEFINITION. Operand forms (30_encoding R103), the values sent to the bus (00_scope R11), the geometry of a rotation
(41_addressing R185, R186), and the chunks of a stream (42_transfer R210). -/

namespace Sys2Proof.Machine

/-- `s16(F)` (30_encoding R103): a signed coordinate or length. -/
abbrev s16 (f : Word) : Int := f.toInt

/-- `u16(F)` of R103: an unsigned coordinate. -/
abbrev zext16 (f : Word) : Int := f.toNat

/-- `u16(v) = v mod 2^16` (00_scope R11): an integer as it goes to the bus. -/
def u16 (v : Int) : Word := BitVec.ofInt 16 v

/-- The high byte of a 16-bit value, `v[15:8]`. -/
def hiByte (v : Word) : Byte := v.extractLsb' 8 8

/-- The low byte of a 16-bit value, `v[7:0]`. -/
def loByte (v : Word) : Byte := v.extractLsb' 0 8

/-- `W(b)` for a byte: the word written while the word size is 8. -/
def wByte (b : Byte) : Event := .w (b.setWidth 16)

/-- The address `PTR[P_ADDR_W-1:0]` (30_encoding R100, R112). -/
def address (c : Config) (ptr : BitVec 32) : Nat := ptr.toNat % 2 ^ c.addrW.val

/-- `mode mod 4` (41_addressing R184). -/
def modeRotation (mode : Byte) : BitVec 2 := BitVec.ofNat 2 (mode.toNat % 4)

/-- Whether a rotation is a quarter turn (odd), which exchanges the panel's sides (R185). -/
def quarterTurn (r : BitVec 2) : Bool := r.toNat % 2 == 1

/-- `GEOM(r)` (R185): the effective width and height. -/
def geom (c : Config) (r : BitVec 2) : Word × Word :=
  if quarterTurn r then (c.panelH, c.panelW) else (c.panelW, c.panelH)

/-- `OFFS(r)` (R186), from `S.colStart` and `S.rowStart`. -/
def offs (swap : Bool) (colStart rowStart : Word) (r : BitVec 2) : Word × Word :=
  if quarterTurn r && swap then (rowStart, colStart) else (colStart, rowStart)

/-- `P_MADCTL[r]` (R187). -/
def madctl (c : Config) (r : BitVec 2) : Byte :=
  match r.toNat with
  | 0 => c.madctl0
  | 1 => c.madctl1
  | 2 => c.madctl2
  | _ => c.madctl3

/-- `ms(DLY)` (30_encoding R107): 255 means 500 ms, any other byte itself. -/
def delayMs (dly : Byte) : Nat := if dly = 255 then 500 else dly.toNat

/-- `COORD(v)` (41_addressing R180). -/
def coord (f : CoordFormat) (v : Word) : List Event :=
  match f with
  | .bytesHiLo => [wByte (hiByte v), wByte (loByte v)]
  | .zeroHiLow8 => [wByte 0, wByte (loByte v)]

/-- One command phase: `DC(0), W(cmd)`, then the data phase opens with `DC(1)`. -/
def command (cmd : Byte) : List Event := [.dc false, wByte cmd, .dc true]

/-- One range of the window (R180): its command, then the two ends, each with the offset added and reduced by `u16`. -/
def rangeEvents (c : Config) (cmd : Byte) (start : Word) (v0 v1 : Int) : List Event :=
  command cmd ++ coord c.coordFormat (u16 (v0 + start.toNat)) ++ coord c.coordFormat (u16 (v1 + start.toNat))

/-- The events of `WINDOW(x0, y0, x1, y1)` (R180) under offsets `xs` and `ys`. -/
def windowEvents (c : Config) (xs ys : Word) (x0 y0 x1 y1 : Int) : List Event :=
  [.setWs .w8] ++ rangeEvents c c.cmdCaset xs x0 x1 ++ rangeEvents c c.cmdRaset ys y0 y1 ++ command c.cmdRamwr

/-- The chunk sizes of STREAM_REP's loop (42_transfer R210) for a count of at most `fuel`. -/
def chunksFuel (limit : Nat) : Nat → Nat → List Nat
  | 0, _ => []
  | fuel + 1, rem =>
    if rem = 0 then [] else min rem limit :: chunksFuel limit fuel (rem - min rem limit)

/-- The chunk sizes of a stream of `n` words. Every chunk has at least one word, so `n` rounds are enough. -/
def chunks (c : Config) (n : Nat) : List Nat := chunksFuel c.maxChunk n n

/-- Path selection (R211): the DMA path, by the stream's total length. -/
def usesDma (c : Config) (n : Nat) : Bool := c.dmaPresent && decide (n > c.dmaThreshold)

/-- `{ r[7:3], g[7:2], b[7:3] }` (43_modes_and_helpers R268). -/
def pack565 (r g b : Byte) : Word := r.extractLsb' 3 5 ++ g.extractLsb' 2 6 ++ b.extractLsb' 3 5

/-- The events of one script record (40_init_sequencer R151). -/
def recordEvents (cmd : Byte) (args : List Byte) (delay : Option Nat) : List Event :=
  [.cs false] ++ command cmd ++ args.map wByte ++ [.cs true] ++
    match delay with
    | none => []
    | some ms => [.delay ms]

end Sys2Proof.Machine
end

