-- ==== Sys2Proof/Machine/Modes.lean ====
section
/-! DEFINITION. The mode toggles and the helpers (43_modes_and_helpers). -/

namespace Sys2Proof.Machine

/-- The settle delay of one side of a toggle (R259). -/
def SettlePair.pick (p : SettlePair) (on : Bool) : Option Nat := if on then p.on else p.off

/-- The event of a settle delay, if there is one. -/
def settleEvents (settle : Option Nat) : List Event :=
  match settle with
  | none => []
  | some ms => [.delay ms]

/-- The events of `TOGGLE(cmd, settle)` (R259): one command byte in its own bracket, then the settle. -/
def toggleEvents (cmd : Byte) (settle : Option Nat) : List Event :=
  [.cs false, .setWs .w8, .dc false, wByte cmd, .setWs .w16, .cs true] ++ settleEvents settle

/-- `TOGGLE(cmd, settle)` (R259). -/
def toggle (op cmd : Byte) (settle : Option Nat) (s : State) : Outcome :=
  requireInit op s.accept fun s => .next (s.emitAll (toggleEvents cmd settle)).ok

/-- `INVERT` (R260). -/
def execInvert (on : Bool) (s : State) : Outcome :=
  toggle 0x10 (if on then s.cfg.cmdInvOn else s.cfg.cmdInvOff) (SettlePair.pick s.cfg.settle.invert on) s

/-- `PARTIAL` (R261). -/
def execPartialMode (on : Bool) (s : State) : Outcome :=
  toggle 0x11 (if on then s.cfg.cmdPtlOn else s.cfg.cmdNorOn) (SettlePair.pick s.cfg.settle.partialMode on) s

/-- `SLEEP` (R262): on means enter sleep. -/
def execSleep (on : Bool) (s : State) : Outcome :=
  toggle 0x12 (if on then s.cfg.cmdSlpIn else s.cfg.cmdSlpOut) (SettlePair.pick s.cfg.settle.sleep on) s

/-- `IDLE` (R263). -/
def execIdle (on : Bool) (s : State) : Outcome :=
  toggle 0x13 (if on then s.cfg.cmdIdmOn else s.cfg.cmdIdmOff) (SettlePair.pick s.cfg.settle.idle on) s

/-- `ENABLE` (R264): on means display enabled. -/
def execEnable (on : Bool) (s : State) : Outcome :=
  toggle 0x14 (if on then s.cfg.cmdDispOn else s.cfg.cmdDispOff) (SettlePair.pick s.cfg.settle.enable on) s

/-- `P_PWRSAVE(mode)` (R265). -/
def powerEntry (c : Config) (mode : Byte) : Option PowerEntry := c.pwrSave.lookup mode

/-- `POWER_SAVE` (R265): the init check, then the mode check (60_exceptions R304), then the toggle. -/
def execPowerSave (mode : Byte) (s : State) : Outcome :=
  requireInit 0x15 s.accept fun s =>
    match powerEntry s.cfg mode with
    | none => .next (s.raise .badMode 0x15 (.mode mode))
    | some e => toggle 0x15 e.cmd e.settle s

/-- `SET_BRIGHTNESS` (R267): no init gate, no bus event. -/
def execSetBrightness (level : Byte) (s : State) : Outcome :=
  let _ := level
  .next (s.accept.respond .unsupported 0)

/-- `COLOR565` (R268): no init gate; the result is in the response only. -/
def execColor565 (r g b : Byte) (s : State) : Outcome :=
  .next (s.accept.respond .ok (pack565 r g b))

end Sys2Proof.Machine
end

