-- ==== Sys2Proof/WellFormed.lean ====
section
/-! DEFINITION. Which instructions an encoding can hold. Every operand but a record's argument list has the width of
its field by its type. -/

namespace Sys2Proof

/-- A record's argument count is the 7-bit field `N` (30_encoding R105, R106), so at most 127 arguments. -/
def argsFit (args : List Byte) : Bool := decide (args.length ≤ 127)

/-- An instruction that some word or byte string encodes. -/
def Instr.wellFormed : Instr → Bool
  | .init => true
  | .runScript _ => true
  | .setAddrWindow _ _ _ _ => true
  | .setRotation _ => true
  | .drawPixel _ _ _ => true
  | .drawHLine _ _ _ _ => true
  | .drawVLine _ _ _ _ => true
  | .fillRect _ _ _ _ _ => true
  | .drawImage _ _ _ _ _ => true
  | .drawImageRom _ _ _ _ _ => true
  | .invert _ => true
  | .partialMode _ => true
  | .sleep _ => true
  | .idle _ => true
  | .enable _ => true
  | .powerSave _ => true
  | .setBrightness _ => true
  | .color565 _ _ _ => true
  | .record _ args => argsFit args
  | .recordDelay _ args _ => argsFit args

end Sys2Proof
end

