-- ==== Sys2Proof/Decode.lean ====
section
/-! DEFINITION. Decoding of host requests and script records, total on any bits and bytes; the encoder; the assembler
forms of 30_encoding R121 to R123 that are not text. -/

namespace Sys2Proof

/-- Why bits are no instruction. -/
inductive DecodeError where
  /-- The `OP` field is not in R102's table (R111). -/
  | reservedOpcode (op : Byte)
  /-- The bytes end before the record does (R106). -/
  | truncatedRecord
  /-- The bytes end before a script's header byte (R104). -/
  | missingHeader
  deriving DecidableEq, Repr

/-- The fields of a host request (30_encoding R100). -/
structure Fields where
  op    : Byte
  m     : Byte
  a     : Word
  b     : Word
  c     : Word
  d     : Word
  color : Word
  ptr   : BitVec 32
  deriving DecidableEq, Repr

/-- R100's field positions: OP q[7:0], M q[15:8], A q[31:16], B q[47:32], C q[63:48], D q[79:64], COLOR q[95:80],
PTR q[127:96]. -/
def Fields.ofRequest (q : Request) : Fields where
  op    := q.extractLsb' 0 8
  m     := q.extractLsb' 8 8
  a     := q.extractLsb' 16 16
  b     := q.extractLsb' 32 16
  c     := q.extractLsb' 48 16
  d     := q.extractLsb' 64 16
  color := q.extractLsb' 80 16
  ptr   := q.extractLsb' 96 32

/-- The request word of given fields: R100 read the other way. -/
def Fields.toRequest (f : Fields) : Request :=
  f.ptr ++ f.color ++ f.d ++ f.c ++ f.b ++ f.a ++ f.m ++ f.op

/-- `bool(F)` of R103: any nonzero value is true. -/
def boolOf (m : Byte) : Bool := m != 0

/-- `u8(F)` of R103: the low byte of a field; the upper byte is ignored (R112). -/
def lowByte (w : Word) : Byte := w.setWidth 8

/-- The instruction of a request's fields: R102's opcodes, R103's operands. A field a request does not use is ignored
(R101). -/
def decodeFields (f : Fields) : Except DecodeError Instr :=
  match f.op.toNat with
  | 0x01 => .ok .init
  | 0x02 => .ok (.runScript f.ptr)
  | 0x03 => .ok (.setAddrWindow f.a f.b f.c f.d)
  | 0x04 => .ok (.setRotation f.m)
  | 0x05 => .ok (.drawPixel f.a f.b f.color)
  | 0x06 => .ok (.drawHLine f.a f.b f.c f.color)
  | 0x07 => .ok (.drawVLine f.a f.b f.c f.color)
  | 0x08 => .ok (.fillRect f.a f.b f.c f.d f.color)
  | 0x09 => .ok (.drawImage f.a f.b f.c f.d f.ptr)
  | 0x0A => .ok (.drawImageRom f.a f.b f.c f.d f.ptr)
  | 0x10 => .ok (.invert (boolOf f.m))
  | 0x11 => .ok (.partialMode (boolOf f.m))
  | 0x12 => .ok (.sleep (boolOf f.m))
  | 0x13 => .ok (.idle (boolOf f.m))
  | 0x14 => .ok (.enable (boolOf f.m))
  | 0x15 => .ok (.powerSave f.m)
  | 0x16 => .ok (.setBrightness f.m)
  | 0x20 => .ok (.color565 (lowByte f.a) (lowByte f.b) (lowByte f.c))
  | _ => .error (.reservedOpcode f.op)

/-- A host request, decoded. -/
def decodeRequest (q : Request) : Except DecodeError Instr := decodeFields (Fields.ofRequest q)

/-- `F` of a record's `CNT` byte: bit 7, the "has trailing delay" flag (R105). -/
def delayFlag (cnt : Byte) : Bool := cnt.getLsbD 7

/-- `N` of a record's `CNT` byte: bits 6..0, the argument count (R105). -/
def argCount (cnt : Byte) : BitVec 7 := cnt.setWidth 7

/-- One script record at the head of `bytes`, and the bytes after it (R105, R106, R113). -/
def decodeRecord (bytes : List Byte) : Except DecodeError (Instr × List Byte) :=
  match bytes with
  | cmd :: cnt :: more =>
    let n := (argCount cnt).toNat
    if more.length < n then .error .truncatedRecord
    else if delayFlag cnt then
      match more.drop n with
      | dly :: rest => .ok (.recordDelay cmd (more.take n) dly, rest)
      | [] => .error .truncatedRecord
    else .ok (.record cmd (more.take n), more.drop n)
  | _ => .error .truncatedRecord

/-- `n` records back to back (R104). -/
def decodeRecords : Nat → List Byte → Except DecodeError (List Instr × List Byte)
  | 0, bytes => .ok ([], bytes)
  | n + 1, bytes =>
    match decodeRecord bytes with
    | .error e => .error e
    | .ok (i, rest) =>
      match decodeRecords n rest with
      | .error e => .error e
      | .ok (is, rest') => .ok (i :: is, rest')

/-- A script: the header byte `NCMD` and that many records (R104). -/
def decodeScript (bytes : List Byte) : Except DecodeError (List Instr × List Byte) :=
  match bytes with
  | ncmd :: more => decodeRecords ncmd.toNat more
  | [] => .error .missingHeader

/-! The encoder. -/

/-- The `OP` of a request (R102). A record has none; 0 is a reserved value. -/
def Instr.opcode : Instr → Byte
  | .init => 0x01
  | .runScript _ => 0x02
  | .setAddrWindow _ _ _ _ => 0x03
  | .setRotation _ => 0x04
  | .drawPixel _ _ _ => 0x05
  | .drawHLine _ _ _ _ => 0x06
  | .drawVLine _ _ _ _ => 0x07
  | .fillRect _ _ _ _ _ => 0x08
  | .drawImage _ _ _ _ _ => 0x09
  | .drawImageRom _ _ _ _ _ => 0x0A
  | .invert _ => 0x10
  | .partialMode _ => 0x11
  | .sleep _ => 0x12
  | .idle _ => 0x13
  | .enable _ => 0x14
  | .powerSave _ => 0x15
  | .setBrightness _ => 0x16
  | .color565 _ _ _ => 0x20
  | .record _ _ => 0x00
  | .recordDelay _ _ _ => 0x00

/-- An instruction's encoding: a request word, or the bytes of a record. -/
inductive Encoded where
  | request (q : Request)
  | record (bytes : List Byte)
  deriving DecidableEq, Repr

/-- A request word with the given opcode and every other field 0 (R121: unset fields assemble as 0). -/
def Fields.blank (op : Byte) : Fields :=
  { op := op, m := 0, a := 0, b := 0, c := 0, d := 0, color := 0, ptr := 0 }

/-- The `M` byte of a boolean operand. -/
def boolByte (on : Bool) : Byte := if on then 1 else 0

/-- The `CNT` byte of a record: the flag over the 7-bit count (R105). -/
def cntByte (f : Bool) (n : Nat) : Byte := BitVec.ofBool f ++ BitVec.ofNat 7 n

/-- The fields of a request (R102, R103); of a record, the blank fields. -/
def Instr.fields (i : Instr) : Fields :=
  let z := Fields.blank i.opcode
  match i with
  | .init => z
  | .runScript p => { z with ptr := p }
  | .setAddrWindow x0 y0 x1 y1 => { z with a := x0, b := y0, c := x1, d := y1 }
  | .setRotation m => { z with m := m }
  | .drawPixel x y c => { z with a := x, b := y, color := c }
  | .drawHLine x y w c => { z with a := x, b := y, c := w, color := c }
  | .drawVLine x y h c => { z with a := x, b := y, c := h, color := c }
  | .fillRect x y w h c => { z with a := x, b := y, c := w, d := h, color := c }
  | .drawImage x y w h p => { z with a := x, b := y, c := w, d := h, ptr := p }
  | .drawImageRom x y w h p => { z with a := x, b := y, c := w, d := h, ptr := p }
  | .invert on => { z with m := boolByte on }
  | .partialMode on => { z with m := boolByte on }
  | .sleep on => { z with m := boolByte on }
  | .idle on => { z with m := boolByte on }
  | .enable on => { z with m := boolByte on }
  | .powerSave m => { z with m := m }
  | .setBrightness l => { z with m := l }
  | .color565 r g b => { z with a := r.setWidth 16, b := g.setWidth 16, c := b.setWidth 16 }
  | .record _ _ => z
  | .recordDelay _ _ _ => z

/-- The bytes of a record (R105); of a request, none. -/
def Instr.recordBytes : Instr → List Byte
  | .record cmd args => cmd :: cntByte false args.length :: args
  | .recordDelay cmd args dly => cmd :: cntByte true args.length :: (args ++ [dly])
  | .init => []
  | .runScript _ => []
  | .setAddrWindow _ _ _ _ => []
  | .setRotation _ => []
  | .drawPixel _ _ _ => []
  | .drawHLine _ _ _ _ => []
  | .drawVLine _ _ _ _ => []
  | .fillRect _ _ _ _ _ => []
  | .drawImage _ _ _ _ _ => []
  | .drawImageRom _ _ _ _ _ => []
  | .invert _ => []
  | .partialMode _ => []
  | .sleep _ => []
  | .idle _ => []
  | .enable _ => []
  | .powerSave _ => []
  | .setBrightness _ => []
  | .color565 _ _ _ => []

/-- Whether an instruction is a script record (00_scope R4). -/
def Instr.isRecord : Instr → Bool
  | .record _ _ => true
  | .recordDelay _ _ _ => true
  | .init => false
  | .runScript _ => false
  | .setAddrWindow _ _ _ _ => false
  | .setRotation _ => false
  | .drawPixel _ _ _ => false
  | .drawHLine _ _ _ _ => false
  | .drawVLine _ _ _ _ => false
  | .fillRect _ _ _ _ _ => false
  | .drawImage _ _ _ _ _ => false
  | .drawImageRom _ _ _ _ _ => false
  | .invert _ => false
  | .partialMode _ => false
  | .sleep _ => false
  | .idle _ => false
  | .enable _ => false
  | .powerSave _ => false
  | .setBrightness _ => false
  | .color565 _ _ _ => false

/-- The encoding of an instruction. -/
def encode (i : Instr) : Encoded :=
  if i.isRecord then .record i.recordBytes else .request i.fields.toRequest

/-- The instruction of an encoding; of bytes, the record they begin with. -/
def decode : Encoded → Except DecodeError Instr
  | .request q => decodeRequest q
  | .record bytes =>
    match decodeRecord bytes with
    | .ok (i, _) => .ok i
    | .error e => .error e

/-! The assembler forms of 30_encoding R122 and R123. -/

/-- `DELAY d` (R122): 0 to 254, or 500, which assembles as 255; any other `d` is an assembly error. -/
def assembleDelay (d : Nat) : Option Byte :=
  if d ≤ 254 then some (BitVec.ofNat 8 d) else if d = 500 then some 255 else none

/-- `CMD c, a0, … ; DELAY d` (R122); `none` is an assembly error. -/
def assembleRecord (cmd : Byte) (args : List Byte) (delay : Option Nat) : Option Instr :=
  if args.length ≤ 127 then
    match delay with
    | none => some (.record cmd args)
    | some d => (assembleDelay d).map (.recordDelay cmd args)
  else none

/-- `.script` to `.end` (R122): the `NCMD` byte and the records' bytes; at most 255 records have a header byte. -/
def assembleScript (records : List Instr) : Option (List Byte) :=
  if records.length ≤ 255 then some (BitVec.ofNat 8 records.length :: records.flatMap Instr.recordBytes) else none

/-- `FILL_SCREEN #c` expands to `FILL_RECT 0, 0, 32767, 32767, #c` (R123). -/
def fillScreen (c : Word) : Instr := .fillRect 0 0 32767 32767 c

/-! The host's question (the bits of an opcode-table row). -/

/-- The bytes of a table word, bit 0 in the first byte, up to the longest record of 130 bytes (R106). -/
def tableBytes (w : Nat) : List Byte := (List.range 130).map fun k => BitVec.ofNat 8 (w / 2 ^ (8 * k))

/-- Whether a table row of `nbits` bits is a host request: the table gives a request row its 8-bit OP, and a record
row the 16-bit prefix of its first two bytes; a whole request has 128 bits. -/
def rowIsRequest (nbits : Nat) : Bool := nbits == 8 || nbits == 128

/-- The instruction the decoder reads from an opcode-table row's bits. -/
def decodeTableWord (nbits w : Nat) : Option Instr :=
  if rowIsRequest nbits then
    match decodeRequest (BitVec.ofNat 128 w) with
    | .ok i => some i
    | .error _ => none
  else
    match decodeRecord (tableBytes w) with
    | .ok (i, _) => some i
    | .error _ => none

end Sys2Proof
end

