-- ==== Sys2Proof/Machine/Addressing.lean ====
section
/-! DEFINITION. The window procedure, `SET_ADDR_WINDOW` and `SET_ROTATION` (41_addressing). -/

namespace Sys2Proof.Machine

/-- `WINDOW(x0, y0, x1, y1)` (R180), inside an open bracket, and then `k`. A ⊥ offset is the read fault of
60_exceptions R301, raised at the read, after the events before it. -/
def window (op : Byte) (s : State) (x0 y0 x1 y1 : Int) (k : State → Outcome) : Outcome :=
  match s.xStart, s.yStart with
  | some xs, some ys => k (s.emitAll (windowEvents s.cfg xs ys x0 y0 x1 y1))
  | none, _ => .next ((s.emitAll ([.setWs .w8] ++ command s.cfg.cmdCaset)).unset op .xStart)
  | some xs, none =>
    .next ((s.emitAll ([.setWs .w8] ++ rangeEvents s.cfg s.cfg.cmdCaset xs x0 x1 ++ command s.cfg.cmdRaset)).unset op
      .yStart)

/-- The events of `ROTATE_BODY` (R184). -/
def rotateEvents (c : Config) (r : BitVec 2) : List Event :=
  [.cs false, .setWs .w8] ++ command c.cmdMadctl ++ [wByte (madctl c r), .setWs .w16, .cs true]

/-- `ROTATE_BODY` for the rotation `r = mode mod 4` (R184): the orientation byte, then the rotation and the four
geometry fields together (R190). -/
def rotateBody (s : State) (r : BitVec 2) : State :=
  let t := s.emitAll (rotateEvents s.cfg r)
  { t with
    rotation := some r
    width := some (geom s.cfg r).1
    height := some (geom s.cfg r).2
    xStart := some (offs s.cfg.xyStartSwap s.colStart s.rowStart r).1
    yStart := some (offs s.cfg.xyStartSwap s.colStart s.rowStart r).2 }

/-- `SET_ADDR_WINDOW` (R182). -/
def execSetAddrWindow (x0 y0 x1 y1 : Word) (s : State) : Outcome :=
  requireInit 0x03 s.accept fun s =>
    window 0x03 (s.emit (.cs false)) (zext16 x0) (zext16 y0) (zext16 x1) (zext16 y1) fun s =>
      .next (s.emitAll [.setWs .w16, .cs true]).ok

/-- `SET_ROTATION` (R184). -/
def execSetRotation (mode : Byte) (s : State) : Outcome :=
  requireInit 0x04 s.accept fun s => .next (rotateBody s (modeRotation mode)).ok

end Sys2Proof.Machine
end

