-- ==== Sys2Proof/Machine/Sequencer.lean ====
section
/-! DEFINITION. The rows of the initialization FSM (40_init_sequencer R140), one definition for each state: the
events it emits and its successor. -/

namespace Sys2Proof.Machine

/-- `rd()` (R143): one script byte at `S.sp`, which advances by 1, and then `k`. Past the end of `P_SCRIPT_ROM` it
faults `ScriptOverrun` with `S.sp` (60_exceptions R301). -/
def rd (s : State) (k : Byte → State → Outcome) : Outcome :=
  match s.sp with
  | none => .next (s.unset s.scriptOp .sp)
  | some p =>
    match s.cfg.scriptRom[p]? with
    | none => .next (s.raise .scriptOverrun s.scriptOp (.pointer p))
    | some v => k v { s with sp := some (p + 1) }

/-- The events of the session step (R141). -/
def sessionEvents (s : State) : List Event :=
  [if s.session then .setWs .w8 else .sessionBegin s.cfg.spiClock .msbFirst s.cfg.spiMode .w8, .cs true]

/-- Entering `SQ_HDR` with `S.script <- 1` (R140). -/
def toScript1 (s : State) : State := { s with seq := .hdr, script := some .one }

/-- `SQ_SESSION` (R141). -/
def rowSession (s : State) : State :=
  let t := { s.emitAll (sessionEvents s) with session := true }
  if s.cfg.rstPresent then { t with seq := .rst1 } else toScript1 t

/-- `SQ_RST1` (R142). -/
def rowRst1 (s : State) : State := { s.emitAll [.rst true, .delay 50] with seq := .rst2 }

/-- `SQ_RST2` (R142). -/
def rowRst2 (s : State) : State := { s.emitAll [.rst false, .delay 50] with seq := .rst3 }

/-- `SQ_RST3` (R142). -/
def rowRst3 (s : State) : State := toScript1 (s.emitAll [.rst true, .delay 50])

/-- The start address of the script running: `P_SCRIPT_ADDR[k]`, or for `X` the address `RUN_SCRIPT` left in `S.sp`
(log entry 12). -/
def scriptStart (s : State) (id : ScriptId) : Option Nat :=
  match id with
  | .one => some s.cfg.scriptAddr1
  | .two => some s.cfg.scriptAddr2
  | .three => some s.cfg.scriptAddr3
  | .x => s.sp

/-- `SQ_HDR`: the script pointer at the start address, and the header byte. -/
def rowHdr (s : State) : Outcome :=
  match s.script with
  | none => .next (s.unset s.scriptOp .script)
  | some id =>
    rd { s with sp := scriptStart s id } fun v s =>
      .next { s with ncmd := some v, seq := if v = 0 then .next else .cmd }

/-- `SQ_CMD`: the command byte opens the record's bracket. -/
def rowCmd (s : State) : Outcome :=
  rd s fun v s =>
    .next { { s with cmd := some v }.emitAll [.cs false, .dc false, wByte v] with seq := .cnt }

/-- `SQ_CNT`: the count byte's flag and count, and the data phase. -/
def rowCnt (s : State) : Outcome :=
  rd s fun c s =>
    .next { { s with dflag := some (delayFlag c), nargs := some (argCount c) }.emit (.dc true) with seq := .arg }

/-- `SQ_ARG`: one argument byte, while there is one. -/
def rowArg (s : State) : Outcome :=
  match s.nargs with
  | none => .next (s.unset s.scriptOp .nargs)
  | some n =>
    if n = 0 then .next { s with seq := .endRec }
    else
      rd s fun v s =>
        .next { s.emit (wByte v) with nargs := some (n - 1), seq := if n - 1 = 0 then .endRec else .arg }

/-- `SQ_END`: the bracket closes. -/
def rowEnd (s : State) : State :=
  let t := s.emit (.cs true)
  match s.dflag with
  | none => t.unset s.scriptOp .dflag
  | some f => { t with seq := if f then .dly else .recDone }

/-- `SQ_DLY`: the delay byte and its delay (30_encoding R107). -/
def rowDly (s : State) : Outcome :=
  rd s fun d s => .next { s.emit (.delay (delayMs d)) with seq := .recDone }

/-- `SQ_REC_DONE`: one record fewer. -/
def rowRecDone (s : State) : State :=
  match s.ncmd with
  | none => s.unset s.scriptOp .ncmd
  | some n => { s with ncmd := some (n - 1), seq := if n - 1 = 0 then .next else .cmd }

/-- `SQ_NEXT`: the end of one script. -/
def rowNext (s : State) : State :=
  match s.script with
  | none => s.unset s.scriptOp .script
  | some .one => { s with seq := .hdr, script := some .two }
  | some .two => { s with seq := .hdr, script := some .three }
  | some .three => { s with seq := .rot }
  | some .x => { s.emit (.setWs .w16) with seq := .done }

/-- `SQ_ROT`: the body of `SET_ROTATION` with `P_INIT_ROTATION` (41_addressing R184). -/
def rowRot (s : State) : State := { rotateBody s s.cfg.initRotation with seq := .done }

/-- `SQ_DONE`: `INIT` only, `S.initialized <- 1`; then the response. -/
def rowDone (s : State) : State :=
  match s.script with
  | none => s.unset s.scriptOp .script
  | some .x => { s.ok with seq := .idle }
  | some .one => { { s with initialized := true }.ok with seq := .idle }
  | some .two => { { s with initialized := true }.ok with seq := .idle }
  | some .three => { { s with initialized := true }.ok with seq := .idle }

/-- The FSM's row for the state `S.seq` it is in (R140). `SQ_IDLE` has no action. -/
def fsmRow (s : State) : Outcome :=
  match s.seq with
  | .idle => .next s
  | .session => .next (rowSession s)
  | .rst1 => .next (rowRst1 s)
  | .rst2 => .next (rowRst2 s)
  | .rst3 => .next (rowRst3 s)
  | .hdr => rowHdr s
  | .cmd => rowCmd s
  | .cnt => rowCnt s
  | .arg => rowArg s
  | .endRec => .next (rowEnd s)
  | .dly => rowDly s
  | .recDone => .next (rowRecDone s)
  | .next => .next (rowNext s)
  | .rot => .next (rowRot s)
  | .done => .next (rowDone s)

/-- `k` rows in succession, with no record taken as an instruction: R140's table read byte by byte. -/
def fsmRows : Nat → State → Outcome
  | 0, s => .next s
  | k + 1, s =>
    match fsmRow s with
    | .next t => fsmRows k t
    | .fault f => .fault f
    | .refused r => .refused r

end Sys2Proof.Machine
end

