-- ==== Sys2Proof/Machine/Script.lean ====
section
/-! DEFINITION. `INIT`, `RUN_SCRIPT` and the two record forms (40_init_sequencer R148 to R151). -/

namespace Sys2Proof.Machine

/-- `INIT` (R148, R155): accepted whatever `S.initialized` is, which it clears; the FSM enters `SQ_SESSION` and the
rows of R140 run the sequence from there. -/
def execInit (s : State) : Outcome :=
  .next { s.accept with initialized := false, seq := .session }

/-- `RUN_SCRIPT` (R150): `SET_WS(8)`, and the FSM enters `SQ_HDR` with the script at the address. -/
def execRunScript (ptr : BitVec 32) (s : State) : Outcome :=
  requireInit 0x02 s.accept fun s =>
    .next { s.emit (.setWs .w8) with script := some .x, sp := some (address s.cfg ptr), seq := .hdr }

/-- One script record (R151): its bracket and its delay, `S.sp` past it, the record registers as its rows leave them,
and then R140's `SQ_REC_DONE`. -/
def runRecord (cmd : Byte) (args : List Byte) (dly : Option Byte) (s : State) : Outcome :=
  match s.sp with
  | none => .next (s.unset s.scriptOp .sp)
  | some p =>
    let t := s.emitAll (recordEvents cmd args (dly.map delayMs))
    .next (rowRecDone { t with
      cmd := some cmd
      nargs := some 0
      dflag := some dly.isSome
      sp := some (p + 2 + args.length + dly.toList.length)
      seq := .recDone })

/-- `REC` (R151), F = 0. -/
def execRecord (cmd : Byte) (args : List Byte) (s : State) : Outcome := runRecord cmd args none s

/-- `REC_D` (R151), F = 1. -/
def execRecordDelay (cmd : Byte) (args : List Byte) (dly : Byte) (s : State) : Outcome :=
  runRecord cmd args (some dly) s

end Sys2Proof.Machine
end

