-- ==== Sys2Proof/Machine/Transfer.lean ====
section
/-! DEFINITION. The stream primitives, the DMA agent and the six drawing requests (42_transfer). -/

namespace Sys2Proof.Machine

/-! Stream primitives. -/

/-- The bracket's end and the response that close every drawn request: `CS(1)`, then `RESP(OK, 0)`. -/
def closeStream (s : State) : State := (s.emit (.cs true)).ok

/-- One chunk on the DMA path with `left` words of the stream still to send (R210): the DMA registers, `DMA_START`,
and then `wait_dma()` with the rest of the stream pending. -/
def dmaChunk (s : State) (c : Word) (left : Nat) : State :=
  let k := min left s.cfg.maxChunk
  { s.emit (.dmaStart c k) with
    dmaVal := some c, dmaRem := k, dmaBusy := true, pending := .rep c (left - k) }

/-- `STREAM_REP(c, n)` (R210) and the end of its request: every chunk as a `WREP`, or the first chunk on the DMA path,
after which the sequencer waits (R212). -/
def streamRep (s : State) (c : Word) (n : Nat) : State :=
  if usesDma s.cfg n then dmaChunk s c n
  else closeStream (s.emitAll ((chunks s.cfg n).map (Event.wrep c)))

/-- The DMA agent's step (R212). -/
def dmaAgent (s : State) : State :=
  { s.emit .dmaDone with dmaRem := 0, dmaBusy := false }

/-- The sequencer after `wait_dma()` (R210, R212): the next chunk, or the end of the request. -/
def resumeRep (s : State) (c : Word) (left : Nat) : State :=
  if left = 0 then closeStream { s with pending := .none } else dmaChunk s c left

/-- `STREAM_BUF(space, p, n)` (R213) and the end of its request: one `WBUF` of the whole buffer. If the launch memory
does not admit a read, the block is stuck before the `WBUF` (20_memory R85), with the read pending. -/
def streamBuf (s : State) (sp : Space) (p n : Nat) : State :=
  match s.readWords sp p n with
  | some ws => closeStream (s.emit (.wbuf sp p ws))
  | none => { s with pending := .buf sp p n }

/-- A stuck `STREAM_BUF` (60_exceptions R307): it has no step while the launch memory does not hold the buffer. -/
def resumeBuf (s : State) (sp : Space) (p n : Nat) : Outcome :=
  match s.readWords sp p n with
  | some ws => .next (closeStream ({ s with pending := .none }.emit (.wbuf sp p ws)))
  | none => .fault (.stuckRead sp p)

/-! Bounds, in ℤ (00_scope R11). -/

/-- The panel's effective size `W`, `H` for a bounds test; a ⊥ one is the read fault of 60_exceptions R301. -/
def withPanel (op : Byte) (s : State) (k : Int → Int → Outcome) : Outcome :=
  match s.width, s.height with
  | some w, some h => k w.toNat h.toNat
  | none, _ => .next (s.unset op .width)
  | some _, none => .next (s.unset op .height)

/-- A point outside `[0, W) x [0, H)` (R214). -/
def outside (W H x y : Int) : Bool := decide (x < 0 ∨ x ≥ W ∨ y < 0 ∨ y ≥ H)

/-- A run of length `len` from `pos`, cut at the panel's edge `limit` (R215). -/
def clampRun (limit pos len : Int) : Int := if pos + len - 1 ≥ limit then limit - pos else len

/-- A coordinate and length under `P_NEG_ORIGIN` (R217): `CLIP` cuts the part below 0. -/
def clipOrigin (n : NegOrigin) (pos len : Int) : Int × Int :=
  match n with
  | .noop => (pos, len)
  | .clip => if pos < 0 then (0, len + pos) else (pos, len)

/-- An image that has no cell in the panel (R218). -/
def imageOutside (W H x y w h : Int) : Bool :=
  decide (w ≤ 0 ∨ h ≤ 0 ∨ x ≥ W ∨ y ≥ H ∨ x + w ≤ 0 ∨ y + h ≤ 0)

/-! Bodies. -/

/-- `PIXEL_BODY` (R214) and the response. -/
def pixelBody (op : Byte) (s : State) (x y : Int) (c : Word) : Outcome :=
  window op (s.emit (.cs false)) x y x y fun s =>
    .next (closeStream (s.emitAll [.setWs .w16, .w c]))

/-- The window of a run or rectangle and its stream of `n` words (R215 to R217). -/
def fillBody (op : Byte) (s : State) (x0 y0 x1 y1 : Int) (c : Word) (n : Nat) : Outcome :=
  window op (s.emit (.cs false)) x0 y0 x1 y1 fun s => .next (streamRep (s.emit (.setWs .w16)) c n)

/-- The window of an image and its buffer (R218): no clipping. -/
def imageBody (op : Byte) (s : State) (sp : Space) (x y w h : Int) (p : Nat) : Outcome :=
  window op (s.emit (.cs false)) x y (x + w - 1) (y + h - 1) fun s =>
    .next (streamBuf (s.emit (.setWs .w16)) sp p (w * h).toNat)

/-- The image request over a space (R218, R219): the no-op test, then the alignment test, then the image. -/
def drawImage (op : Byte) (sp : Space) (x y w h : Int) (ptr : BitVec 32) (s : State) : Outcome :=
  requireInit op s.accept fun s => withPanel op s fun W H =>
    if imageOutside W H x y w h then .next s.ok
    else if address s.cfg ptr % 2 = 1 then .next (s.raise .misaligned op (.address (address s.cfg ptr)))
    else imageBody op s sp x y w h (address s.cfg ptr)

/-! The requests. -/

/-- `DRAW_PIXEL` (R214). -/
def execDrawPixel (x y c : Word) (s : State) : Outcome :=
  requireInit 0x05 s.accept fun s => withPanel 0x05 s fun W H =>
    if outside W H (s16 x) (s16 y) then .next s.ok else pixelBody 0x05 s (s16 x) (s16 y) c

/-- `DRAW_HLINE` (R215). -/
def execDrawHLine (x y w c : Word) (s : State) : Outcome :=
  requireInit 0x06 s.accept fun s => withPanel 0x06 s fun W H =>
    if outside W H (s16 x) (s16 y) || decide (s16 w ≤ 0) then .next s.ok
    else
      let w' := clampRun W (s16 x) (s16 w)
      if w' < 2 then pixelBody 0x06 s (s16 x) (s16 y) c
      else fillBody 0x06 s (s16 x) (s16 y) (s16 x + w' - 1) (s16 y) c w'.toNat

/-- `DRAW_VLINE` (R216). -/
def execDrawVLine (x y h c : Word) (s : State) : Outcome :=
  requireInit 0x07 s.accept fun s => withPanel 0x07 s fun W H =>
    if outside W H (s16 x) (s16 y) || decide (s16 h ≤ 0) then .next s.ok
    else
      let h' := clampRun H (s16 y) (s16 h)
      if h' < 2 then pixelBody 0x07 s (s16 x) (s16 y) c
      else fillBody 0x07 s (s16 x) (s16 y) (s16 x) (s16 y + h' - 1) c h'.toNat

/-- `FILL_RECT` (R217). -/
def execFillRect (x y w h c : Word) (s : State) : Outcome :=
  requireInit 0x08 s.accept fun s => withPanel 0x08 s fun W H =>
    let X := clipOrigin s.cfg.negOrigin (s16 x) (s16 w)
    let Y := clipOrigin s.cfg.negOrigin (s16 y) (s16 h)
    if outside W H X.1 Y.1 || decide (X.2 ≤ 0 ∨ Y.2 ≤ 0) then .next s.ok
    else
      let w' := clampRun W X.1 X.2
      let h' := clampRun H Y.1 Y.2
      fillBody 0x08 s X.1 Y.1 (X.1 + w' - 1) (Y.1 + h' - 1) c (w' * h').toNat

/-- `DRAW_IMAGE` (R218), from RAM. -/
def execDrawImage (x y w h : Word) (ptr : BitVec 32) (s : State) : Outcome :=
  drawImage 0x09 .ram (s16 x) (s16 y) (s16 w) (s16 h) ptr s

/-- `DRAW_IMAGE_ROM` (R219), from ROSTORE. -/
def execDrawImageRom (x y w h : Word) (ptr : BitVec 32) (s : State) : Outcome :=
  drawImage 0x0A .rostore (s16 x) (s16 y) (s16 w) (s16 h) ptr s

end Sys2Proof.Machine
end

