-- ==== Sys2Proof/Machine/Dispatch.lean ====
section
/-! DEFINITION. The dispatch of an instruction to its meaning. -/

namespace Sys2Proof.Machine

def exec (i : Instr) (s : State) : Host.Outcome State Fault Refusal :=
  match i with
  -- 40_init_sequencer
  | .init => Sys2Proof.Machine.execInit s
  | .runScript ptr => Sys2Proof.Machine.execRunScript ptr s
  -- 41_addressing
  | .setAddrWindow x0 y0 x1 y1 => Sys2Proof.Machine.execSetAddrWindow x0 y0 x1 y1 s
  | .setRotation mode => Sys2Proof.Machine.execSetRotation mode s
  -- 42_transfer
  | .drawPixel x y c => Sys2Proof.Machine.execDrawPixel x y c s
  | .drawHLine x y w c => Sys2Proof.Machine.execDrawHLine x y w c s
  | .drawVLine x y h c => Sys2Proof.Machine.execDrawVLine x y h c s
  | .fillRect x y w h c => Sys2Proof.Machine.execFillRect x y w h c s
  | .drawImage x y w h ptr => Sys2Proof.Machine.execDrawImage x y w h ptr s
  | .drawImageRom x y w h ptr => Sys2Proof.Machine.execDrawImageRom x y w h ptr s
  -- 43_modes_and_helpers
  | .invert on => Sys2Proof.Machine.execInvert on s
  | .partialMode on => Sys2Proof.Machine.execPartialMode on s
  | .sleep on => Sys2Proof.Machine.execSleep on s
  | .idle on => Sys2Proof.Machine.execIdle on s
  | .enable on => Sys2Proof.Machine.execEnable on s
  | .powerSave mode => Sys2Proof.Machine.execPowerSave mode s
  | .setBrightness level => Sys2Proof.Machine.execSetBrightness level s
  | .color565 r g b => Sys2Proof.Machine.execColor565 r g b s
  -- script records (40_init_sequencer R151)
  | .record cmd args => Sys2Proof.Machine.execRecord cmd args s
  | .recordDelay cmd args dly => Sys2Proof.Machine.execRecordDelay cmd args dly s

end Sys2Proof.Machine
end

