-- ==== Sys2Proof/Machine/Cycle.lean ====
section
/-! DEFINITION. One cycle of the machine: which agent moves, and how it gets its next instruction. Step.lean only
names it. -/

namespace Sys2Proof.Machine

/-- The idle block and the host (60_exceptions R325): the next request is delivered, decoded and run; one with a
reserved OP is refused and not accepted (R302). With no request the block waits in `SQ_IDLE`. -/
def takeRequest (s : State) : Outcome :=
  match s.requests with
  | [] => .next s
  | q :: rest =>
    match decodeRequest q with
    | .ok i => exec i { s with requests := rest }
    | .error _ => .next { s with requests := rest, refused := true }

/-- The record at the script pointer, if its bytes all lie in `P_SCRIPT_ROM`. -/
def recordAt (s : State) : Option Instr :=
  match s.sp with
  | none => none
  | some p =>
    match decodeRecord (s.cfg.scriptRom.drop p) with
    | .ok (i, _) => some i
    | .error _ => none

/-- `SQ_CMD`: the next record is fetched and run as one instruction (R151). A record that runs past the end of
`P_SCRIPT_ROM` is run row by row up to the read that faults (R140, R306). -/
def takeRecord (s : State) : Outcome :=
  match recordAt s with
  | some i => exec i s
  | none => rowCmd s

/-- The FSM's move (R140): a record at `SQ_CMD`, the table's row elsewhere. -/
def fsmMove (s : State) : Outcome :=
  match s.seq with
  | .cmd => takeRecord s
  | .idle => fsmRow s
  | .session => fsmRow s
  | .rst1 => fsmRow s
  | .rst2 => fsmRow s
  | .rst3 => fsmRow s
  | .hdr => fsmRow s
  | .cnt => fsmRow s
  | .arg => fsmRow s
  | .endRec => fsmRow s
  | .dly => fsmRow s
  | .recDone => fsmRow s
  | .next => fsmRow s
  | .rot => fsmRow s
  | .done => fsmRow s

/-- The sequencer's move: an unfinished stream, else the FSM, else the next request. -/
def sequencerMove (s : State) : Outcome :=
  match s.pending with
  | .rep c left => .next (resumeRep s c left)
  | .buf sp p n => resumeBuf s sp p n
  | .none =>
    if s.seq = .idle then
      if s.busy then .fault .noMove else takeRequest s
    else fsmMove s

/-- One cycle. Reset comes first (70_reset_and_hazards R340); a faulted or refused block takes no step (60_exceptions
R303, R302); while a bulk transfer is in flight only the DMA agent moves (42_transfer R212, 60_exceptions R330); else
the sequencer does. -/
def cycle (s : State) : Outcome :=
  if s.resetIn then .next s.applyReset
  else if s.fault.isSome then .fault .quiescent
  else if s.refused then .refused .latched
  else if s.dmaBusy then .next (dmaAgent s)
  else sequencerMove s

/-- The state with every gate of the cycle open: the reset input low, no fault, no refusal, no unfinished stream. -/
def State.openGates (s : State) : State :=
  { s with resetIn := false, fault := none, refused := false, dmaBusy := false, pending := .none }

/-- The state with a request as the host's next, and the block idle to accept it. -/
def State.placeRequest (s : State) (q : Request) : State :=
  { s.openGates with busy := false, seq := .idle, requests := q :: s.requests }

/-- The state with a one-record script's record at the script pointer, as `RUN_SCRIPT` reaches it in `SQ_CMD`. -/
def State.placeRecord (s : State) (bytes : List Byte) : State :=
  { s.openGates with
    cfg := { s.cfg with scriptRom := bytes }, busy := true, seq := .cmd, script := some .x, sp := some 0, ncmd := some 1 }

/-- The state in which the very next step runs the instruction of an opcode-table row's bits (log entry 14). -/
def State.placeWord (s : State) (nbits w : Nat) : State :=
  if rowIsRequest nbits then s.placeRequest (BitVec.ofNat 128 w) else s.placeRecord (tableBytes w)

end Sys2Proof.Machine
end

