-- ==== Sys2Proof/Machine/Step.lean ====
section
/-! DEFINITION. The machine's step, and the placing of an instruction where it fetches. -/

namespace Sys2Proof.Machine

/-- One step: one cycle of the machine (Machine/Cycle.lean). -/
def step (s : State) : Host.Outcome State Fault Refusal := cycle s

/-- The state with the instruction of an opcode-table row's bits as the next one `step` runs. -/
def State.withFetchWord (s : State) (nbits w : Nat) : State := s.placeWord nbits w

end Sys2Proof.Machine
end

