-- ==== Sys2Proof/Machine/Assembler.lean ====
section
/-! DEFINITION. The text syntax of requests and scripts (30_encoding R121 to R123), on lists of characters. `none` is
an assembly error. -/

namespace Sys2Proof.Machine

/-- A line without its leading spaces. -/
def trimLeft : List Char → List Char
  | ' ' :: cs => trimLeft cs
  | cs => cs

/-- A line without its leading and trailing spaces. -/
def trim (cs : List Char) : List Char := (trimLeft (trimLeft cs).reverse).reverse

/-- The parts of a line between separators. -/
def splitOn (sep : Char) : List Char → List (List Char)
  | [] => [[]]
  | c :: cs =>
    match splitOn sep cs with
    | [] => [[c]]
    | p :: ps => if c = sep then [] :: p :: ps else (c :: p) :: ps

/-- A digit's value in a base up to 16. -/
def digit (base : Nat) (c : Char) : Option Nat :=
  let v :=
    if '0' ≤ c ∧ c ≤ '9' then c.toNat - '0'.toNat
    else if 'a' ≤ c ∧ c ≤ 'f' then c.toNat - 'a'.toNat + 10
    else if 'A' ≤ c ∧ c ≤ 'F' then c.toNat - 'A'.toNat + 10
    else 16
  if v < base then some v else none

/-- Digits in a base. -/
def digits (base : Nat) : Nat → List Char → Option Nat
  | acc, [] => some acc
  | acc, c :: cs =>
    match digit base c with
    | some v => digits base (acc * base + v) cs
    | none => none

/-- A decimal or `0x` hexadecimal number. -/
def natural : List Char → Option Nat
  | '0' :: 'x' :: c :: cs => digits 16 0 (c :: cs)
  | c :: cs => digits 10 0 (c :: cs)
  | [] => none

/-- A number that may be negative. -/
def integer : List Char → Option Int
  | '-' :: cs => (natural cs).map fun n => -(n : Int)
  | cs => (natural cs).map fun n => (n : Int)

/-- A signed 16-bit operand. -/
def signed16 (cs : List Char) : Option Word :=
  match integer cs with
  | some v => if -32768 ≤ v ∧ v ≤ 32767 then some (BitVec.ofInt 16 v) else none
  | none => none

/-- An unsigned operand of a given width. -/
def unsigned (width : Nat) (cs : List Char) : Option (BitVec width) :=
  match natural cs with
  | some n => if n < 2 ^ width then some (BitVec.ofNat width n) else none
  | none => none

/-- Where an operand goes, and how it is written (R121, R103). -/
inductive Slot where
  | m
  | aSigned
  | bSigned
  | cSigned
  | dSigned
  | aUnsigned
  | bUnsigned
  | cUnsigned
  | dUnsigned
  | color
  | ptr
  deriving DecidableEq, Repr

/-- A request's fields with one operand set. -/
def Slot.set (slot : Slot) (f : Fields) (cs : List Char) : Option Fields :=
  match slot with
  | .m => (unsigned 8 cs).map fun v => { f with m := v }
  | .aSigned => (signed16 cs).map fun v => { f with a := v }
  | .bSigned => (signed16 cs).map fun v => { f with b := v }
  | .cSigned => (signed16 cs).map fun v => { f with c := v }
  | .dSigned => (signed16 cs).map fun v => { f with d := v }
  | .aUnsigned => (unsigned 16 cs).map fun v => { f with a := v }
  | .bUnsigned => (unsigned 16 cs).map fun v => { f with b := v }
  | .cUnsigned => (unsigned 16 cs).map fun v => { f with c := v }
  | .dUnsigned => (unsigned 16 cs).map fun v => { f with d := v }
  | .color =>
    match cs with
    | '#' :: ds => (unsigned 16 ds).map fun v => { f with color := v }
    | _ => none
  | .ptr =>
    match cs with
    | '@' :: ds => (unsigned 32 ds).map fun v => { f with ptr := v }
    | _ => none

/-- Operands in order, each of its slot, with none missing and none left over. -/
def setOperands : List Slot → List (List Char) → Fields → Option Fields
  | [], [], f => some f
  | slot :: slots, o :: os, f =>
    match slot.set f (trim o) with
    | some f' => setOperands slots os f'
    | none => none
  | [], _ :: _, _ => none
  | _ :: _, [], _ => none

/-- The lines of R121's table: mnemonic, opcode, operands. -/
def requestForms : List (String × Byte × List Slot) := [
  ("INIT", 0x01, []),
  ("RUN_SCRIPT", 0x02, [.ptr]),
  ("SET_ADDR_WINDOW", 0x03, [.aUnsigned, .bUnsigned, .cUnsigned, .dUnsigned]),
  ("SET_ROTATION", 0x04, [.m]),
  ("DRAW_PIXEL", 0x05, [.aSigned, .bSigned, .color]),
  ("DRAW_HLINE", 0x06, [.aSigned, .bSigned, .cSigned, .color]),
  ("DRAW_VLINE", 0x07, [.aSigned, .bSigned, .cSigned, .color]),
  ("FILL_RECT", 0x08, [.aSigned, .bSigned, .cSigned, .dSigned, .color]),
  ("DRAW_IMAGE", 0x09, [.aSigned, .bSigned, .cSigned, .dSigned, .ptr]),
  ("DRAW_IMAGE_ROM", 0x0A, [.aSigned, .bSigned, .cSigned, .dSigned, .ptr]),
  ("INVERT", 0x10, [.m]),
  ("PARTIAL", 0x11, [.m]),
  ("SLEEP", 0x12, [.m]),
  ("IDLE", 0x13, [.m]),
  ("ENABLE", 0x14, [.m]),
  ("POWER_SAVE", 0x15, [.m]),
  ("SET_BRIGHTNESS", 0x16, [.m]),
  ("COLOR565", 0x20, [.aUnsigned, .bUnsigned, .cUnsigned])]

/-- A line's first word and the rest. -/
def firstWord : List Char → List Char × List Char
  | [] => ([], [])
  | ' ' :: cs => ([], cs)
  | c :: cs => (c :: (firstWord cs).1, (firstWord cs).2)

/-- The operands of a line: none of an empty rest, else its parts between commas. -/
def operandsOf (rest : List Char) : List (List Char) :=
  if trim rest = [] then [] else splitOn ',' rest

/-- The fields of a mnemonic's line in a table of forms. -/
def assembleWith (word : List Char) (operands : List (List Char)) : List (String × Byte × List Slot) → Option Fields
  | [] => none
  | (name, op, slots) :: more =>
    if name.toList = word then setOperands slots operands (Fields.blank op) else assembleWith word operands more

/-- `FILL_SCREEN #c` (R123). -/
def assembleFillScreen (operands : List (List Char)) : Option Fields :=
  match operands with
  | [o] =>
    match Slot.color.set (Fields.blank 0) (trim o) with
    | some f => some (fillScreen f.color).fields
    | none => none
  | _ => none

/-- One request line (R121): the 128-bit word; unset fields are 0. -/
def assembleRequest (line : List Char) : Option Request :=
  let p := firstWord (trim line)
  let operands := operandsOf p.2
  let f :=
    if p.1 = "FILL_SCREEN".toList then assembleFillScreen operands else assembleWith p.1 operands requestForms
  f.map Fields.toRequest

/-- Bytes, each between commas. -/
def byteList : List (List Char) → Option (List Byte)
  | [] => some []
  | o :: os =>
    match unsigned 8 (trim o), byteList os with
    | some b, some bs => some (b :: bs)
    | _, _ => none

/-- `CMD c [, a0, …]` of a script line. -/
def commandBytes (part : List Char) : Option (List Byte) :=
  let p := firstWord (trim part)
  if p.1 = "CMD".toList then byteList (operandsOf p.2) else none

/-- `DELAY d` of a script line. -/
def delayOf (part : List Char) : Option Nat :=
  let p := firstWord (trim part)
  if p.1 = "DELAY".toList then natural (trim p.2) else none

/-- One script line `CMD c [, a0, …] [; DELAY d]` (R122). -/
def assembleScriptLine (line : List Char) : Option Instr :=
  match splitOn ';' line with
  | [part] =>
    match commandBytes part with
    | some (c :: args) => assembleRecord c args none
    | _ => none
  | [part, delay] =>
    match commandBytes part, delayOf delay with
    | some (c :: args), some d => assembleRecord c args (some d)
    | _, _ => none
  | _ => none

/-- The `CMD` lines up to `.end`. -/
def scriptLines : List (List Char) → Option (List Instr)
  | [] => none
  | line :: more =>
    if trim line = ".end".toList then (if more = [] then some [] else none)
    else
      match assembleScriptLine line, scriptLines more with
      | some i, some is => some (i :: is)
      | _, _ => none

/-- A script from `.script` to `.end` (R122). -/
def assembleScriptText (lines : List (List Char)) : Option (List Byte) :=
  match lines with
  | [] => none
  | line :: more =>
    if trim line = ".script".toList then (scriptLines more).bind assembleScript else none

end Sys2Proof.Machine
end

