-- ==== Sys2Proof/Machine/Boot.lean ====
section
/-! DEFINITION. The configuration check before any run, and the start of a run (40_init_sequencer R153,
70_reset_and_hazards R342, R358). -/

namespace Sys2Proof.Machine

/-- The records of the script at an address, if the parse ends at or before the end of `P_SCRIPT_ROM` (R153). -/
def scriptAt (c : Config) (a : Nat) : Option (List Instr) :=
  match decodeScript (c.scriptRom.drop a) with
  | .ok (is, _) => some is
  | .error _ => none

/-- `WF_SCRIPTS` (R153). -/
def wfScripts (c : Config) : Bool :=
  (scriptAt c c.scriptAddr1).isSome && (scriptAt c c.scriptAddr2).isSome && (scriptAt c c.scriptAddr3).isSome

/-- The start of a run under a configuration: one that fails `WF_SCRIPTS` is refused, with no state and no trace; else
the state after reset. -/
def boot (c : Config) : Outcome :=
  if wfScripts c then .next (State.resetWith c) else .refused .configuration

/-- The start of a run (70_reset_and_hazards R358): the state after reset, with the launch memory and the finite
sequence of requests the host will issue, the next one first. -/
def startRun (c : Config) (ram rostore : List Host.Cell) (requests : List Request) : Outcome :=
  match boot c with
  | .next s => .next { s with ram := ram, rostore := rostore, requests := requests }
  | .fault f => .fault f
  | .refused r => .refused r

end Sys2Proof.Machine
end

