-- ==== Sys2Proof/Machine/Wire.lean ====
section
/-! DEFINITION. What the trace says beyond the block's own fields: the line levels along it, the wire stream (10_state
R52 to R56), the bus discipline every event keeps (R56, 70_reset_and_hazards R347, R350, R353), the responses (R51) and the
delays. -/

namespace Sys2Proof.Machine

/-- The word size and the lines at a point of the trace (R40, R42). -/
structure Levels where
  ws  : Option WordSize
  cs  : Option Bool
  dc  : Option Bool
  rst : Option Bool
  deriving DecidableEq, Repr

/-- The levels after reset: all ⊥ (R58). -/
def Levels.start : Levels := { ws := none, cs := none, dc := none, rst := none }

/-- The levels after an event (R50). -/
def Levels.after (l : Levels) (e : Event) : Levels :=
  match e with
  | .sessionBegin _ _ _ n => { l with ws := some n }
  | .setWs n => { l with ws := some n }
  | .cs v => { l with cs := some v }
  | .dc v => { l with dc := some v }
  | .rst v => { l with rst := some v }
  | .w _ => l
  | .wrep _ _ => l
  | .wbuf _ _ _ => l
  | .dmaStart _ _ => l
  | .dmaDone => l
  | .delay _ => l
  | .resp _ _ => l

/-- The levels after several events. -/
def Levels.afterAll (l : Levels) (es : List Event) : Levels := es.foldl Levels.after l

/-- The levels the block's fields hold. -/
def State.levels (s : State) : Levels := { ws := s.ws, cs := s.cs, dc := s.dc, rst := s.rst }

/-- A byte on the serial line with the level of the data/command line (R52). -/
abbrev WireByte := Option Bool × Byte

/-- A word at word size 16: the high byte, then the low byte (R54). -/
def wordPairs (dc : Option Bool) (w : Word) : List WireByte := [(dc, hiByte w), (dc, loByte w)]

/-- The pairs of `W(w)` (R53, R54). With the word size ⊥ no rule gives a pair (log entry 16). -/
def writePairs (l : Levels) (w : Word) : List WireByte :=
  match l.ws with
  | some .w8 => [(l.dc, loByte w)]
  | some .w16 => wordPairs l.dc w
  | none => []

/-- The pairs an event contributes (R53 to R55). -/
def eventPairs (l : Levels) (e : Event) : List WireByte :=
  match e with
  | .w v => writePairs l v
  | .wrep v n => (List.replicate n (wordPairs l.dc v)).flatten
  | .dmaStart v n => (List.replicate n (wordPairs l.dc v)).flatten
  | .wbuf _ _ vs => vs.flatMap (wordPairs l.dc)
  | .sessionBegin _ _ _ _ => []
  | .setWs _ => []
  | .cs _ => []
  | .dc _ => []
  | .rst _ => []
  | .dmaDone => []
  | .delay _ => []
  | .resp _ _ => []

/-- The wire stream of a stretch of trace that starts at given levels. -/
def wireFrom (l : Levels) : List Event → List WireByte
  | [] => []
  | e :: es => eventPairs l e ++ wireFrom (l.after e) es

/-- `wire(trace)` (R52). -/
def wire (trace : List Event) : List WireByte := wireFrom Levels.start trace

/-- The bus along a trace: the levels, and the command bytes sent since the bracket opened. -/
structure Bus where
  levels : Levels
  cmds   : List Byte
  deriving DecidableEq, Repr

/-- The bus after reset: every level ⊥, and no bracket. -/
def Bus.start : Bus := { levels := Levels.start, cmds := [] }

/-- The command bytes of the bracket after an event: a bus-select edge starts with none, and a word written with dc 0
is one more. -/
def Bus.cmdsAfter (b : Bus) (e : Event) : List Byte :=
  match e with
  | .cs _ => []
  | .w v => if b.levels.dc = some false then b.cmds ++ [loByte v] else b.cmds
  | .sessionBegin _ _ _ _ => b.cmds
  | .setWs _ => b.cmds
  | .dc _ => b.cmds
  | .rst _ => b.cmds
  | .wrep _ _ => b.cmds
  | .wbuf _ _ _ => b.cmds
  | .dmaStart _ _ => b.cmds
  | .dmaDone => b.cmds
  | .delay _ => b.cmds
  | .resp _ _ => b.cmds

/-- The bus after an event. -/
def Bus.after (b : Bus) (e : Event) : Bus := { levels := b.levels.after e, cmds := b.cmdsAfter e }

/-- The bus after several events. -/
def Bus.afterAll (b : Bus) (es : List Event) : Bus := es.foldl Bus.after b

/-- The commands of a whole window, in order (41_addressing R180). -/
def windowCommands (c : Config) : List Byte := [c.cmdCaset, c.cmdRaset, c.cmdRamwr]

/-- Whether what a bracket has sent makes the next data a pixel: exactly a whole window (70_reset_and_hazards R347). -/
def Bus.windowSent (c : Config) (b : Bus) : Bool := b.cmds == windowCommands c

/-- Whether words can go out as pixels: in an open bracket, as data, at word size 16, after a whole window and no other
command (R56, R347, R350). -/
def Bus.pixelsAllowed (c : Config) (b : Bus) : Bool :=
  b.levels.cs == some false && b.levels.dc == some true && b.levels.ws == some .w16 && b.windowSent c

/-- Whether a byte can go out: in an open bracket at word size 8, as a command or as an argument that no whole window
precedes (R56, R350). -/
def Bus.bytesAllowed (c : Config) (b : Bus) : Bool :=
  b.levels.cs == some false && b.levels.ws == some .w8 &&
    (b.levels.dc == some false || b.levels.dc == some true && !b.windowSent c)

/-- Whether an event is allowed where it stands: a single word as a byte or as a pixel, each at its own word size; a
repeated or buffered word as a pixel; and a delay with the bus deselected (R56, 70_reset_and_hazards R347, R350,
R353). -/
def eventAllowed (c : Config) (b : Bus) (e : Event) : Bool :=
  match e with
  | .w _ => b.bytesAllowed c || b.pixelsAllowed c
  | .wrep _ n => b.pixelsAllowed c && decide (1 ≤ n)
  | .wbuf _ _ _ => b.pixelsAllowed c
  | .dmaStart _ n => b.pixelsAllowed c && decide (1 ≤ n)
  | .delay _ => b.levels.cs == some true
  | .sessionBegin _ _ _ _ => true
  | .setWs _ => true
  | .cs _ => true
  | .dc _ => true
  | .rst _ => true
  | .dmaDone => true
  | .resp _ _ => true

/-- Whether every event of a stretch of trace is allowed where it stands. -/
def busDiscipline (c : Config) (b : Bus) : List Event → Bool
  | [] => true
  | e :: es => eventAllowed c b e && busDiscipline c (b.after e) es

/-- The number of responses in a trace (R51). -/
def responses : List Event → Nat
  | [] => 0
  | .resp _ _ :: es => responses es + 1
  | _ :: es => responses es

/-- The milliseconds of a trace's `DELAY` events: the lower bound on the elapsed time (70_reset_and_hazards R356). -/
def totalDelay : List Event → Nat
  | [] => 0
  | .delay ms :: es => ms + totalDelay es
  | _ :: es => totalDelay es

end Sys2Proof.Machine
end

