-- ==== Sys2Proof/Machine/Observer.lean ====
section
/-! DEFINITION. The informative GRAM observer of 20_memory R86: which cells of the controller's memory the block's events
fill. No rule of the block reads it. Where R87 says the observer says nothing, it records nothing. -/

namespace Sys2Proof.Machine

/-- A window `(x0, y0)-(x1, y1)` in the controller's memory, both ends in it. -/
structure Window where
  x0 : Nat
  x1 : Nat
  y0 : Nat
  y1 : Nat
  deriving DecidableEq, Repr

/-- The place of the panel in the controller's memory: its first column and row, and its effective size. -/
structure Panel where
  left   : Nat
  top    : Nat
  width  : Nat
  height : Nat
  deriving DecidableEq, Repr

/-- The block's own panel: the bounds the drawing requests clip to, at the offsets every window adds (10_state R36, R37,
41_addressing R180). Before the first rotation the block has no bounds. -/
def State.panel (s : State) : Option Panel :=
  match s.xStart, s.yStart, s.width, s.height with
  | some x, some y, some w, some h =>
    some { left := x.toNat, top := y.toNat, width := w.toNat, height := h.toNat }
  | _, _, _, _ => none

/-- Whether a cell, (column, row), is inside a panel. -/
def Panel.holds (p : Panel) (cell : Nat × Nat) : Bool :=
  decide (p.left ≤ cell.1 ∧ cell.1 < p.left + p.width ∧ p.top ≤ cell.2 ∧ cell.2 < p.top + p.height)

/-- A window whose ends are in order (R86, R87 (b)). -/
def Window.ordered (w : Window) : Bool := decide (w.x0 ≤ w.x1 ∧ w.y0 ≤ w.y1)

/-- The cell of the `k`-th pixel word of a window, row-major (R86); none past the window's last cell (R87 (a)). -/
def Window.cell (w : Window) (k : Nat) : Option (Nat × Nat) :=
  let columns := w.x1 - w.x0 + 1
  let rows := w.y1 - w.y0 + 1
  if k < columns * rows then some (w.x0 + k % columns, w.y0 + k / columns) else none

/-- The cell of the `k`-th pixel word that the observer speaks of: one outside the panel is left open (R87 (c)), the
others of the same window are not (93_implementation_defined U4, U5). With no bounds nothing is outside. -/
def Window.placed (w : Window) (p : Option Panel) (k : Nat) : Option (Nat × Nat) :=
  (w.cell k).filter fun cell => p.all (·.holds cell)

/-- The observer beside the block. -/
structure Observer where
  levels : Levels
  /-- The last command byte. -/
  cmd    : Option Byte
  /-- The argument bytes since it. -/
  args   : List Byte
  /-- The ranges the last column-range and row-range arguments carried. -/
  cols   : Option (Nat × Nat)
  rows   : Option (Nat × Nat)
  /-- The window of the last write-to-RAM command, while the observer speaks of its pixels. -/
  window : Option Window
  /-- The number of pixel words since that command. -/
  count  : Nat
  /-- The cells filled, (column, row) and word, the oldest first. -/
  cells  : List ((Nat × Nat) × Word)
  deriving DecidableEq, Repr

/-- The observer of an empty trace. -/
def Observer.start : Observer :=
  { levels := Levels.start, cmd := none, args := [], cols := none, rows := none, window := none, count := 0
    cells := [] }

/-- Two 16-bit values from four argument bytes, high byte first. -/
def rangeOf (args : List Byte) : Option (Nat × Nat) :=
  match args with
  | [a, b, c, d] => some ((a ++ b).toNat, (c ++ d).toNat)
  | _ => none

/-- The window a write-to-RAM command opens: the one the last ranges carried, if it is in order. -/
def Observer.opened (o : Observer) : Option Window :=
  match o.cols, o.rows with
  | some x, some y =>
    let w : Window := { x0 := x.1, x1 := x.2, y0 := y.1, y1 := y.2 }
    if w.ordered then some w else none
  | _, _ => none

/-- One command byte: a write-to-RAM command opens its window and starts a count. -/
def Observer.command (c : Config) (o : Observer) (b : Byte) : Observer :=
  let o := { o with cmd := some b, args := [] }
  if b = c.cmdRamwr then { o with window := o.opened, count := 0 } else o

/-- One argument byte: the fourth after a range command sets that range. -/
def Observer.argument (c : Config) (o : Observer) (b : Byte) : Observer :=
  let o := { o with args := o.args ++ [b] }
  match rangeOf o.args with
  | none => o
  | some r =>
    if o.cmd = some c.cmdCaset then { o with cols := some r }
    else if o.cmd = some c.cmdRaset then { o with rows := some r }
    else o

/-- One 16-bit pixel word. -/
def Observer.pixel (p : Option Panel) (o : Observer) (v : Word) : Observer :=
  { o with
    count := o.count + 1
    cells := o.cells ++ (o.window.bind fun w => (w.placed p o.count).map fun cell => (cell, v)).toList }

/-- One written word, by the levels it is written at. -/
def Observer.write (c : Config) (p : Option Panel) (o : Observer) (v : Word) : Observer :=
  match o.levels.dc, o.levels.ws with
  | some false, some .w8 => o.command c (loByte v)
  | some true, some .w8 => o.argument c (loByte v)
  | some true, some .w16 => o.pixel p v
  | _, _ => o

/-- A bus-select edge: after a `CS(1)` the observer says nothing of the pixels of an earlier write-to-RAM command
(R87 (e)). -/
def Observer.select (o : Observer) (v : Bool) : Observer :=
  { o with window := if v then none else o.window }

/-- One event, under the block's panel. -/
def Observer.see (c : Config) (p : Option Panel) (o : Observer) (e : Event) : Observer :=
  let o' :=
    match e with
    | .w v => o.write c p v
    | .wrep v n => (List.replicate n v).foldl (Observer.pixel p) o
    | .dmaStart v n => (List.replicate n v).foldl (Observer.pixel p) o
    | .wbuf _ _ vs => vs.foldl (Observer.pixel p) o
    | .cs v => o.select v
    | .sessionBegin _ _ _ _ => o
    | .setWs _ => o
    | .dc _ => o
    | .rst _ => o
    | .dmaDone => o
    | .delay _ => o
    | .resp _ _ => o
  { o' with levels := o.levels.after e }

/-- The observer after a stretch of events under one panel. -/
def Observer.seeAll (c : Config) (p : Option Panel) (o : Observer) (es : List Event) : Observer :=
  es.foldl (Observer.see c p) o

/-- The observer beside one step from `s` to `t`: it sees the step's events under the panel the step starts with. After a
block reset it starts afresh, as the trace does (10_state R58). -/
def Observer.watch (o : Observer) (s t : State) : Observer :=
  if s.resetIn then Observer.start else o.seeAll s.cfg s.panel (t.trace.drop s.trace.length)

/-- The observer beside a run of at most `k` steps. -/
def observe : Nat → State → Observer → Observer
  | 0, _, o => o
  | k + 1, s, o =>
    match step s with
    | .next t => observe k t (o.watch s t)
    | .fault _ => o
    | .refused _ => o

end Sys2Proof.Machine
end

