-- ==== Sys2Proof/Safety.lean ====
section
/-! DEFINITION. What counts as a safe run, in the terms the statements use: the end of a run (70_reset_and_hazards
R358), the named configuration premises, the traces of whole requests, and the invariants of the machine. -/

namespace Sys2Proof

open Sys2Proof.Machine

/-! Runs. -/

/-- `k` steps of the machine answer `t`. -/
abbrev Reaches (k : Nat) (s t : State) : Prop := core.run k s = .next t

/-- What R358 asks of the block's fields at the successful end of a run. -/
abbrev EndedWell (s : State) : Prop :=
  s.busy = false ∧ s.fault = none ∧ s.refused = false ∧ s.dmaBusy = false ∧ s.cs = some true

/-- A run (R358): from reset, with a finite sequence of host requests, `k` steps lead to `t`. The block takes a request
from the host's list only when idle, so each is issued after the previous one's response. -/
def Run (c : Config) (ram rostore : List Host.Cell) (requests : List Request) (k : Nat) (t : State) : Prop :=
  ∃ s, startRun c ram rostore requests = .next s ∧ Reaches k s t

/-- A run that ends successfully (R358): every request has been issued and has emitted its response, and the block's
fields are at rest. The observation of the run is `t.trace`. -/
def RunEndsWell (c : Config) (ram rostore : List Host.Cell) (requests : List Request) (k : Nat) (t : State) : Prop :=
  Run c ram rostore requests k t ∧ t.requests = [] ∧ responses t.trace = requests.length ∧ EndedWell t

/-- A state in which the sequencer moves: no reset, no fault, no refusal, no bulk transfer in flight. -/
abbrev SequencerMoves (s : State) : Prop :=
  s.resetIn = false ∧ s.fault = none ∧ s.refused = false ∧ s.dmaBusy = false

/-- An idle block that accepts a request (10_state R34). -/
abbrev Accepts (s : State) : Prop :=
  SequencerMoves s ∧ s.pending = .none ∧ s.seq = .idle ∧ s.busy = false

/-- The controller is set up and the geometry written: what every drawing request finds after an `INIT` (R149). -/
abbrev Ready (s : State) (W H xs ys : Word) : Prop :=
  s.initialized = true ∧ s.width = some W ∧ s.height = some H ∧ s.xStart = some xs ∧ s.yStart = some ys

/-! Configuration premises. -/

/-- The events of a record (40_init_sequencer R151). -/
def recordTrace : Instr → List Event
  | .record cmd args => recordEvents cmd args none
  | .recordDelay cmd args dly => recordEvents cmd args (some (delayMs dly))
  | _ => []

/-- The configuration passes WF_SCRIPTS with these records in scripts 1, 2 and 3 (R153). -/
abbrev HasScripts (c : Config) (s1 s2 s3 : List Instr) : Prop :=
  scriptAt c c.scriptAddr1 = some s1 ∧ scriptAt c c.scriptAddr2 = some s2 ∧ scriptAt c c.scriptAddr3 = some s3

/-- A delayed record of a command, with its delay in milliseconds (30_encoding R107). -/
def DelayedRecord (cmd : Byte) (ms : Nat) (i : Instr) : Prop :=
  ∃ args dly, i = .recordDelay cmd args dly ∧ delayMs dly = ms

/-- `DOC_SCRIPTS` (R154): script 1 has a delayed record of 150 ms for the reset command, followed by one of 500 ms for
sleep-out; script 3 ends with one of 10 ms for normal mode followed by one of 100 ms for display-on. No parameter
names the reset command, so its byte is the reader's premise. -/
def DocScripts (c : Config) (resetCmd : Byte) (s1 s3 : List Instr) : Prop :=
  (∃ r p, [r, p].Sublist s1 ∧ DelayedRecord resetCmd 150 r ∧ DelayedRecord c.cmdSlpOut 500 p) ∧
    ∃ front n d, s3 = front ++ [n, d] ∧ DelayedRecord c.cmdNorOn 10 n ∧ DelayedRecord c.cmdDispOn 100 d

/-- `SLEEPOUT_FIRST` (70_reset_and_hazards R346): every gamma or power record comes after a delayed sleep-out record,
in the order the scripts run. Which command bytes those are is the reader's premise. -/
def SleepoutFirst (gammaOrPower sleepOut : Byte → Bool) (records : List Instr) : Prop :=
  ∀ before i after, records = before ++ i :: after →
    (∃ c args, i = .record c args ∧ gammaOrPower c ∨ ∃ d, i = .recordDelay c args d ∧ gammaOrPower c) →
    ∃ c args d, Instr.recordDelay c args d ∈ before ∧ sleepOut c

/-! The traces of whole requests. -/

/-- The hardware reset pulse, if the line exists (40_init_sequencer R142). -/
def resetPulse (c : Config) : List Event :=
  if c.rstPresent then [.rst true, .delay 50, .rst false, .delay 50, .rst true, .delay 50] else []

/-- The events of `INIT` over scripts 1 to 3 (R148), from the session step to its response. -/
def initTrace (s : State) (records : List Instr) : List Event :=
  sessionEvents s ++ resetPulse s.cfg ++ records.flatMap recordTrace ++ rotateEvents s.cfg s.cfg.initRotation ++
    [.resp .ok 0]

/-- The events of `RUN_SCRIPT` (R150). -/
def runScriptTrace (records : List Instr) : List Event :=
  [.setWs .w8] ++ records.flatMap recordTrace ++ [.setWs .w16, .resp .ok 0]

/-- The events of a drawn request: its bracket around the window and its pixels, then the response (42_transfer
R220). -/
def drawTrace (c : Config) (xs ys : Word) (x0 y0 x1 y1 : Int) (pixels : List Event) : List Event :=
  [.cs false] ++ windowEvents c xs ys x0 y0 x1 y1 ++ [.setWs .w16] ++ pixels ++ [.cs true, .resp .ok 0]

/-- The pixel words an event of a stream carries (42_transfer R210 to R213); none for an event that no stream emits. -/
def pixelWords : Event → Option (List Word)
  | .w v => some [v]
  | .wrep v n => some (List.replicate n v)
  | .dmaStart v n => some (List.replicate n v)
  | .wbuf _ _ vs => some vs
  | .dmaDone => some []
  | .sessionBegin _ _ _ _ => none
  | .setWs _ => none
  | .cs _ => none
  | .dc _ => none
  | .rst _ => none
  | .delay _ => none
  | .resp _ _ => none

/-- The state a drawn request leaves (42_transfer R214 to R219): the lines, the word size and the trace. -/
def drawn (s : State) (events : List Event) : State :=
  { s with busy := false, ws := some .w16, cs := some true, dc := some true, trace := s.trace ++ events }

/-- The state a toggle leaves (43_modes_and_helpers R259): one command byte in its own bracket, then the settle delay,
then the response. -/
def toggled (s : State) (cmd : Byte) (settle : Option Nat) : State :=
  { s with
    busy := false, ws := some .w16, cs := some true, dc := some false
    trace := s.trace ++ ([.cs false, .setWs .w8, .dc false, .w (cmd.setWidth 16), .setWs .w16, .cs true] ++
      settle.toList.map Event.delay ++ [.resp .ok 0]) }

/-- The state a request that faults before its first event leaves (60_exceptions R303, 10_state R34): the fault with
the request's OP and the information, and the block busy. -/
def faultedAt (s : State) (reason : FaultReason) (op : Byte) (info : FaultInfo) : State :=
  { s with busy := true, fault := some { reason := reason, op := op, info := info } }

/-! Invariants. -/

/-- Both memories are in the canonical form. -/
abbrev MemoryOk (s : State) : Prop := Memory.wf s.ram = true ∧ Memory.wf s.rostore = true

/-- The geometry fields follow the rotation (10_state R39), the offsets the configuration (R38), and nothing that
needs a rotation runs without one. -/
def GeometryOk (s : State) : Prop :=
  s.colStart = s.cfg.colStart ∧ s.rowStart = s.cfg.rowStart ∧
  (match s.rotation with
    | none => s.width = none ∧ s.height = none ∧ s.xStart = none ∧ s.yStart = none
    | some r =>
      s.width = some (geom s.cfg r).1 ∧ s.height = some (geom s.cfg r).2 ∧
      s.xStart = some (offs s.cfg.xyStartSwap s.cfg.colStart s.cfg.rowStart r).1 ∧
      s.yStart = some (offs s.cfg.xyStartSwap s.cfg.colStart s.cfg.rowStart r).2) ∧
  (s.initialized = true → s.rotation ≠ none) ∧
  (s.script = some .x → s.rotation ≠ none) ∧
  (s.seq = .done → s.rotation ≠ none)

/-- The bus levels that go with a state of the FSM (40_init_sequencer R140, R143). -/
def phaseLevels (s : State) : Prop :=
  match s.seq with
  | .idle => True
  | .session => True
  | .rst1 => s.cs = some true ∧ s.ws = some .w8
  | .rst2 => s.cs = some true ∧ s.ws = some .w8
  | .rst3 => s.cs = some true ∧ s.ws = some .w8
  | .hdr => s.cs = some true ∧ s.ws = some .w8
  | .cmd => s.cs = some true ∧ s.ws = some .w8
  | .cnt => s.cs = some false ∧ s.ws = some .w8
  | .arg => s.cs = some false ∧ s.ws = some .w8 ∧ s.dc = some true
  | .endRec => s.cs = some false ∧ s.ws = some .w8
  | .dly => s.cs = some true ∧ s.ws = some .w8
  | .recDone => s.cs = some true ∧ s.ws = some .w8
  | .next => s.cs = some true ∧ s.ws = some .w8
  | .rot => s.cs = some true ∧ s.ws = some .w8
  | .done => s.cs = some true ∧ s.ws = some .w16

/-- A stream in progress: its bracket is open, as data at word size 16, in a busy block (42_transfer R210, R213). -/
def streamLevels (s : State) : Prop :=
  s.pending ≠ .none → s.cs = some false ∧ s.dc = some true ∧ s.ws = some .w16 ∧ s.seq = .idle ∧ s.busy = true

/-- The commands of the bracket that go with a state: one in a record's bracket, a whole window before a stream
(42_transfer R220). -/
def bracketCommands (s : State) (b : Bus) : Prop :=
  (s.seq = .cnt ∨ s.seq = .arg → b.cmds.length = 1) ∧ (s.pending ≠ .none → b.cmds = windowCommands s.cfg)

/-- The bus invariant: the fields hold the levels the trace leaves, every event of the trace keeps the bus discipline
(10_state R56, 70_reset_and_hazards R347, R350, R353), and while the block is live the levels and the bracket's
commands are those of its phase; an idle block that is set up has the bus deselected at the steady-state width
(10_state R40). -/
def BusOk (s : State) : Prop :=
  let b := Bus.start.afterAll s.trace
  b.levels = s.levels ∧ busDiscipline s.cfg Bus.start s.trace = true ∧
  (s.fault = none →
    phaseLevels s ∧ streamLevels s ∧ bracketCommands s b ∧
    (s.seq ≠ .idle → s.busy = true) ∧
    (s.dmaBusy = true → s.pending ≠ .none) ∧
    (s.initialized = true → s.busy = false → s.cs = some true ∧ s.ws = some .w16))

/-- Without a reset line nothing drives it (10_state R42, 40_init_sequencer R142): `S.rst` is unset, the trace has no
RST event, and the FSM is in no state of the reset pulse. -/
def ResetLineOk (s : State) : Prop :=
  s.cfg.rstPresent = false →
    s.rst = none ∧ (∀ v, Event.rst v ∉ s.trace) ∧ s.seq ≠ .rst1 ∧ s.seq ≠ .rst2 ∧ s.seq ≠ .rst3

/-- The DMA registers (10_state R44, 42_transfer R210, R212): words are left to send exactly while a transfer is in
flight; the value in flight is that of a stream that has not ended; and such a stream exists only where the facility is
present. -/
def DmaOk (s : State) : Prop :=
  (s.dmaBusy = true ↔ 0 < s.dmaRem) ∧
  (s.dmaBusy = true → ∃ c left, s.pending = .rep c left ∧ s.dmaVal = some c) ∧
  ((∃ c left, s.pending = .rep c left) → s.cfg.dmaPresent = true)

end Sys2Proof
end

