-- ==== Sys2Proof/Certificates/Slice0/Obligations.lean ====
section
/-! DEFINITION. The statements for the provers, each from the numbered rules of spec/ that its docstring names. -/

open Sys2Proof Sys2Proof.Machine

/-! Reset, boot and the step. -/

/-- R58, R340: the reset state of every configuration, field by field (`none` is ⊥), and the machine's reset state,
whose panel is 128 by 160 (R9). The launch memory, the host's requests, the reset input and `pending` are the model's
own fields (log entries 4, 5, 6 and 10). -/
def Obligations.ResetStateFields : Prop :=
  (∀ c : Config,
    let s := State.resetWith c
    s.initialized = false ∧ s.fault = none ∧ s.refused = false ∧ s.busy = false ∧
    s.rotation = none ∧ s.width = none ∧ s.height = none ∧ s.xStart = none ∧ s.yStart = none ∧
    s.colStart = c.colStart ∧ s.rowStart = c.rowStart ∧ s.ws = none ∧ s.session = false ∧
    s.cs = none ∧ s.dc = none ∧ s.rst = none ∧ s.seq = .idle ∧
    s.script = none ∧ s.sp = none ∧ s.ncmd = none ∧ s.nargs = none ∧ s.dflag = none ∧ s.cmd = none ∧
    s.dmaBusy = false ∧ s.dmaVal = none ∧ s.dmaRem = 0 ∧ s.trace = []) ∧
  State.reset = State.resetWith Config.base ∧ Config.base.panelW = 128 ∧ Config.base.panelH = 160

/-- R340: the reset input aborts whatever is in progress and restores every field of the block; the configuration
(R59), the launch memory and the host's remaining requests stay. -/
def Obligations.ResetInputRestoresBlock : Prop :=
  ∀ s : State, s.resetIn = true →
    step s = .next { State.resetWith s.cfg with ram := s.ram, rostore := s.rostore, requests := s.requests }

/-- R153, R342: a configuration that fails WF_SCRIPTS is refused before any run; any other starts in its reset state.
WF_SCRIPTS is the parse of the three scripts at their addresses, each ending inside P_SCRIPT_ROM. -/
def Obligations.BootRefusesMalformedScripts : Prop :=
  ∀ c : Config,
    ((∃ s1 s2 s3, HasScripts c s1 s2 s3) → boot c = .next (State.resetWith c)) ∧
    ((¬ ∃ s1 s2 s3, HasScripts c s1 s2 s3) → boot c = .refused .configuration)

/-- A step runs the decoded instruction: an accepting block runs the host's next request, which is then issued, and the
FSM in SQ_CMD runs the record at the script pointer; `step` adds nothing around `exec`. Two of its conventions are the
model's choice (DESIGN CHOICE): a whole record is one step at SQ_CMD, where R140's table reads its command byte and
goes to SQ_CNT (log entry 6; RecordRefinesRows says that both end alike), and a request leaves the host's list as it
runs (log entry 4). -/
def Obligations.StepRunsDecodedInstruction : Prop :=
  (∀ (s : State) (q : Request) (rest : List Request) (i : Instr),
    Accepts s → s.requests = q :: rest → decodeRequest q = .ok i → step s = exec i { s with requests := rest }) ∧
  (∀ (s : State) (p : Nat) (i : Instr) (rest : List Byte),
    SequencerMoves s → s.pending = .none → s.seq = .cmd → s.sp = some p →
    decodeRecord (s.cfg.scriptRom.drop p) = .ok (i, rest) → step s = exec i s)

/-- R302, R111: a request whose OP is reserved is refused: `S.refused` is set, no event, no RESP, `S.busy` stays 0; it
is issued (taken from the host's list), and after it no step is taken and no request accepted until reset, so the state
is never a successful end (R358). -/
def Obligations.ReservedOpcodeRefused : Prop :=
  (∀ (s : State) (q : Request) (rest : List Request),
    Accepts s → s.requests = q :: rest →
    ((q.toNat % 256 = 0 ∨ (0x0B ≤ q.toNat % 256 ∧ q.toNat % 256 ≤ 0x0F) ∨
      (0x17 ≤ q.toNat % 256 ∧ q.toNat % 256 ≤ 0x1F) ∨ 0x21 ≤ q.toNat % 256)) →
    step s = .next { s with requests := rest, refused := true }) ∧
  (∀ s : State, s.refused = true → ¬ EndedWell s ∧ (s.resetIn = false → s.fault = none → step s = .refused .latched))

/-- R305: there is no return from a fault. A faulted or refused block takes no step and so accepts no request, `INIT`
included, and only reset clears `S.fault` and `S.refused`. -/
def Obligations.OnlyResetLeavesFault : Prop :=
  (∀ (s : State) (r : FaultRecord), s.fault = some r → s.resetIn = false → step s = .fault .quiescent) ∧
  (∀ s : State, s.refused = true → s.fault = none → s.resetIn = false → step s = .refused .latched) ∧
  (∀ s : State, s.resetIn = true → ∃ t, step s = .next t ∧ t.fault = none ∧ t.refused = false ∧ t.busy = false)

/-! Encodings. -/

/-- Decode and encode agree: every well-formed instruction is decoded from its encoding, at every operand; a record's
bytes also when other bytes follow (R100 to R106). -/
def Obligations.DecodeOfEncode : Prop :=
  (∀ i : Instr, i.wellFormed = true → decode (encode i) = .ok i) ∧
  (∀ (i : Instr) (rest : List Byte), i.wellFormed = true → i.isRecord = true →
    decodeRecord (i.recordBytes ++ rest) = .ok (i, rest))

/-- Whatever decodes is well formed, and a record that decodes from the whole of its bytes is re-encoded to them. -/
def Obligations.EncodeOfDecodedRecord : Prop :=
  (∀ (q : Request) (i : Instr), decodeRequest q = .ok i → i.wellFormed = true ∧ i.isRecord = false) ∧
  (∀ (bytes rest : List Byte) (i : Instr), decodeRecord bytes = .ok (i, rest) →
    i.wellFormed = true ∧ i.isRecord = true ∧ bytes = i.recordBytes ++ rest)

/-- R101, R102, R103, R111: the request of every word by its OP, each operand from the field the table gives it, and every
other OP an error. A field the request does not use is free here, so it changes nothing. -/
def Obligations.RequestOperandFields : Prop :=
  ∀ q : Request,
    let m : Byte := q.extractLsb' 8 8
    let a : Word := q.extractLsb' 16 16
    let b : Word := q.extractLsb' 32 16
    let c : Word := q.extractLsb' 48 16
    let d : Word := q.extractLsb' 64 16
    let color : Word := q.extractLsb' 80 16
    let ptr : BitVec 32 := q.extractLsb' 96 32
    let op := q.toNat % 256
    (op = 0x01 → decodeRequest q = .ok .init) ∧
    (op = 0x02 → decodeRequest q = .ok (.runScript ptr)) ∧
    (op = 0x03 → decodeRequest q = .ok (.setAddrWindow a b c d)) ∧
    (op = 0x04 → decodeRequest q = .ok (.setRotation m)) ∧
    (op = 0x05 → decodeRequest q = .ok (.drawPixel a b color)) ∧
    (op = 0x06 → decodeRequest q = .ok (.drawHLine a b c color)) ∧
    (op = 0x07 → decodeRequest q = .ok (.drawVLine a b c color)) ∧
    (op = 0x08 → decodeRequest q = .ok (.fillRect a b c d color)) ∧
    (op = 0x09 → decodeRequest q = .ok (.drawImage a b c d ptr)) ∧
    (op = 0x0A → decodeRequest q = .ok (.drawImageRom a b c d ptr)) ∧
    (op = 0x10 → decodeRequest q = .ok (.invert (decide (m ≠ 0)))) ∧
    (op = 0x11 → decodeRequest q = .ok (.partialMode (decide (m ≠ 0)))) ∧
    (op = 0x12 → decodeRequest q = .ok (.sleep (decide (m ≠ 0)))) ∧
    (op = 0x13 → decodeRequest q = .ok (.idle (decide (m ≠ 0)))) ∧
    (op = 0x14 → decodeRequest q = .ok (.enable (decide (m ≠ 0)))) ∧
    (op = 0x15 → decodeRequest q = .ok (.powerSave m)) ∧
    (op = 0x16 → decodeRequest q = .ok (.setBrightness m)) ∧
    (op = 0x20 → decodeRequest q = .ok
      (.color565 (q.extractLsb' 16 8) (q.extractLsb' 32 8) (q.extractLsb' 48 8))) ∧
    ((op = 0 ∨ (0x0B ≤ op ∧ op ≤ 0x0F) ∨ (0x17 ≤ op ∧ op ≤ 0x1F) ∨ 0x21 ≤ op) →
      decodeRequest q = .error (.reservedOpcode (q.extractLsb' 0 8)))

/-- R105, R106, R108: a record that decodes has the length `2 + N + F` its count byte gives, between 2 and 130, and the
form REC for F = 0 and REC_D for F = 1. -/
def Obligations.RecordLength : Prop :=
  ∀ (cmd cnt : Byte) (more rest : List Byte) (i : Instr),
    decodeRecord (cmd :: cnt :: more) = .ok (i, rest) →
    (cmd :: cnt :: more).length = rest.length + (2 + cnt.toNat % 128 + cnt.toNat / 128) ∧
    (cnt.toNat < 128 → ∃ args, i = .record cmd args ∧ args.length = cnt.toNat % 128) ∧
    (128 ≤ cnt.toNat → ∃ args dly, i = .recordDelay cmd args dly ∧ args.length = cnt.toNat % 128)

/-- R107: the delay byte in milliseconds: 255 means 500, every other byte itself, so no byte gives 255 to 499. -/
def Obligations.DelayByteMilliseconds : Prop :=
  delayMs 255 = 500 ∧ (∀ d : Byte, d ≠ 255 → delayMs d = d.toNat ∧ delayMs d ≤ 254) ∧
  (∀ d : Byte, ¬ (255 ≤ delayMs d ∧ delayMs d ≤ 499))

/-- R122, R104: an assembled script of at most 255 well-formed records decodes to its records, whatever follows it; and
an assembled delay is the delay that was written, 0 to 254 or 500 ms, any other being an assembly error. -/
def Obligations.AssembledScriptDecodes : Prop :=
  (∀ (records : List Instr) (bytes rest : List Byte), (∀ i ∈ records, i.wellFormed = true ∧ i.isRecord = true) →
    assembleScript records = some bytes → decodeScript (bytes ++ rest) = .ok (records, rest)) ∧
  (∀ d : Nat, (∃ b, assembleDelay d = some b) ↔ d ≤ 254 ∨ d = 500) ∧
  (∀ (d : Nat) (b : Byte), assembleDelay d = some b → delayMs b = d)

/-- Words written out from the spec's encodings (95_test_vectors 2.1 and 2.2) decode to the instructions they stand
for. -/
def Obligations.SampleWordsDecode : Prop :=
  decodeRequest 0x00000000000000040003000200010003 = .ok (.setAddrWindow 1 2 3 4) ∧
  decodeRequest 0x0000000012340000000A0000FFFD0006 = .ok (.drawHLine 0xFFFD 0 10 0x1234) ∧
  decodeRequest 0x200000000000000100020000007F0009 = .ok (.drawImage 127 0 2 1 0x20000000) ∧
  decodeRequest 0x00000000000000000000000000008010 = .ok (.invert true) ∧
  decodeRequest 0x00000000000000000056003400120020 = .ok (.color565 0x12 0x34 0x56) ∧
  decode (.record [0xC0, 0x83, 0xA2, 0x02, 0x84, 0x0A]) = .ok (.recordDelay 0xC0 [0xA2, 0x02, 0x84] 0x0A)

/-! The initialization FSM and its requests. -/

/-- R148, R149, R155: `INIT` on an accepting block, whatever `S.initialized` is, is accepted and enters the FSM; under
a configuration whose scripts are well formed the machine then reaches, by its own steps, the end of the sequence: the
trace has grown by the session step, the reset pulse if the line exists, the records of scripts 1, 2 and 3 in order,
the orientation and the response; and the end state is R149's, everything else as it was. That every DELAY ends is the
progress assumption of R308 (log entry 19). -/
def Obligations.InitCompletes : Prop :=
  ∀ (s : State) (s1 s2 s3 : List Instr), Accepts s → HasScripts s.cfg s1 s2 s3 →
    exec .init s = .next { s with busy := true, initialized := false, seq := .session } ∧
    ∃ k u, Reaches k { s with busy := true, initialized := false, seq := .session } u ∧
      u.trace = s.trace ++ initTrace s (s1 ++ s2 ++ s3) ∧ EndedWell u ∧
      u.initialized = true ∧ u.busy = false ∧ u.session = true ∧ u.seq = .idle ∧
      u.ws = some .w16 ∧ u.cs = some true ∧ u.dc = some true ∧
      u.rst = (if s.cfg.rstPresent then some true else s.rst) ∧
      u.rotation = some s.cfg.initRotation ∧
      (u.width, u.height) = (some (geom s.cfg s.cfg.initRotation).1, some (geom s.cfg s.cfg.initRotation).2) ∧
      (u.xStart, u.yStart) =
        (some (offs s.cfg.xyStartSwap s.colStart s.rowStart s.cfg.initRotation).1,
         some (offs s.cfg.xyStartSwap s.colStart s.rowStart s.cfg.initRotation).2) ∧
      u.fault = none ∧ u.refused = false ∧ u.resetIn = false ∧ u.pending = .none ∧
      u.cfg = s.cfg ∧ u.ram = s.ram ∧ u.rostore = s.rostore ∧ u.requests = s.requests ∧
      u.colStart = s.colStart ∧ u.rowStart = s.rowStart ∧
      u.dmaBusy = s.dmaBusy ∧ u.dmaVal = s.dmaVal ∧ u.dmaRem = s.dmaRem

/-- R150: `RUN_SCRIPT` on an accepting block that is set up enters the FSM at the script, and the machine then replays
it: the trace has grown by `SET_WS(8)`, the records, `SET_WS(16)` and the response; no geometry field is written. That
every DELAY ends is the progress assumption of R308 (log entry 19). -/
def Obligations.RunScriptCompletes : Prop :=
  ∀ (s : State) (ptr : BitVec 32) (records : List Instr), Accepts s → s.initialized = true →
    scriptAt s.cfg (ptr.toNat % 2 ^ s.cfg.addrW.val) = some records →
    ∃ t, exec (.runScript ptr) s = .next t ∧ t.busy = true ∧ t.seq = .hdr ∧ t.script = some .x ∧
    ∃ k u, Reaches k t u ∧
      u.trace = s.trace ++ runScriptTrace records ∧
      u.busy = false ∧ u.seq = .idle ∧ u.ws = some .w16 ∧ u.script = some .x ∧
      u.sp = some (ptr.toNat % 2 ^ s.cfg.addrW.val + 1 + (records.flatMap Instr.recordBytes).length) ∧
      u.initialized = true ∧ u.fault = none ∧ u.refused = false ∧ u.resetIn = false ∧ u.pending = .none ∧
      u.rotation = s.rotation ∧ u.width = s.width ∧ u.height = s.height ∧ u.xStart = s.xStart ∧ u.yStart = s.yStart ∧
      u.cfg = s.cfg ∧ u.ram = s.ram ∧ u.rostore = s.rostore ∧ u.requests = s.requests ∧
      u.colStart = s.colStart ∧ u.rowStart = s.rowStart ∧ u.session = s.session ∧ u.rst = s.rst ∧
      u.dmaBusy = s.dmaBusy ∧ u.dmaVal = s.dmaVal ∧ u.dmaRem = s.dmaRem

/-- R151, with R140's SQ_REC_DONE: what a record does and all it does. `REC` and `REC_D` emit the bracket with the
command byte and the arguments, `REC_D` then the delay; `S.sp` advances by `2 + N + F`, `S.ncmd` by -1; the record
registers hold the record; every other field is as it was. -/
def Obligations.RecordCompletes : Prop :=
  ∀ (s : State) (p : Nat) (n : Byte) (cmd : Byte) (args : List Byte), s.sp = some p → s.ncmd = some n →
    exec (.record cmd args) s = .next { s with
      trace := s.trace ++ ([.cs false, .dc false, .w (cmd.setWidth 16), .dc true] ++
        args.map (fun a => .w (a.setWidth 16)) ++ [.cs true])
      cs := some true, dc := some true, cmd := some cmd, nargs := some 0, dflag := some false
      sp := some (p + (2 + args.length)), ncmd := some (n - 1), seq := if n - 1 = 0 then .next else .cmd } ∧
    ∀ dly : Byte, exec (.recordDelay cmd args dly) s = .next { s with
      trace := s.trace ++ ([.cs false, .dc false, .w (cmd.setWidth 16), .dc true] ++
        args.map (fun a => .w (a.setWidth 16)) ++ [.cs true, .delay (if dly = 255 then 500 else dly.toNat)])
      cs := some true, dc := some true, cmd := some cmd, nargs := some 0, dflag := some true
      sp := some (p + (3 + args.length)), ncmd := some (n - 1), seq := if n - 1 = 0 then .next else .cmd }

/-- R140 and R151 agree: a record run as one instruction leaves what the FSM's rows leave, read byte by byte from
SQ_CMD to SQ_REC_DONE. -/
def Obligations.RecordRefinesRows : Prop :=
  ∀ (s : State) (i : Instr), s.seq = .cmd → recordAt s = some i → ∃ k, fsmRows k s = exec i s

/-- R152: the wire stream of one record at word size 8 is the command byte with dc 0 and the arguments with dc 1, in
script order. -/
def Obligations.RecordWireStream : Prop :=
  ∀ (l : Levels) (cmd : Byte) (args : List Byte) (delay : Option Nat), l.ws = some .w8 →
    wireFrom l (recordEvents cmd args delay) = (some false, cmd) :: args.map (fun a => (some true, a))

/-- R301, R303, R143: a script byte read past the end of P_SCRIPT_ROM, in each state of the FSM that reads one, faults
`ScriptOverrun` with the OP of the request and the script pointer: the fault is recorded, no event is emitted, and
every other field stays as it was at that point (in SQ_HDR, with `S.sp` at the start address).
R151, R306: a record cut off by the end of P_SCRIPT_ROM, after its command byte, inside its arguments or before its
delay byte, emits the events before the faulting read and reaches that fault, with the bracket as it then stands.
That SQ_HDR of script X finds its start address in `S.sp`, where `RUN_SCRIPT` left it, is the model's choice (DESIGN
CHOICE, log entry 12), that the OP comes from `S.script` its inference (log entry 13), and the size of a step its choice
(log entry 6). -/
def Obligations.ScriptOverrunFaults : Prop :=
  ∀ (s : State) (p : Nat) (id : ScriptId), SequencerMoves s → s.pending = .none → s.script = some id →
    let overrun (u : State) (a : Nat) : State := { u with
      fault := some { reason := .scriptOverrun, op := if id = .x then 0x02 else 0x01, info := .pointer a } }
    (s.cfg.scriptRom.length ≤ p →
      (s.sp = some p →
        (s.seq = .cmd ∨ s.seq = .cnt ∨ s.seq = .dly ∨ (s.seq = .arg ∧ ∃ n, s.nargs = some n ∧ n ≠ 0) ∨
          (s.seq = .hdr ∧ id = .x)) → step s = .next (overrun s p)) ∧
      (s.seq = .hdr →
        ((id = .one ∧ s.cfg.scriptAddr1 = p) ∨ (id = .two ∧ s.cfg.scriptAddr2 = p) ∨
          (id = .three ∧ s.cfg.scriptAddr3 = p)) → step s = .next (overrun { s with sp := some p } p))) ∧
    (s.seq = .cmd → s.sp = some p →
      let last := s.cfg.scriptRom.length
      (∀ cmd : Byte, s.cfg.scriptRom.drop p = [cmd] →
        ∃ k, Reaches k s (overrun { s with
          trace := s.trace ++ [.cs false, .dc false, .w (cmd.setWidth 16)]
          cs := some false, dc := some false, cmd := some cmd, sp := some last, seq := .cnt } last)) ∧
      (∀ (cmd cnt : Byte) (args : List Byte), s.cfg.scriptRom.drop p = cmd :: cnt :: args →
        args.length < cnt.toNat % 128 →
        ∃ k, Reaches k s (overrun { s with
          trace := s.trace ++ ([.cs false, .dc false, .w (cmd.setWidth 16), .dc true] ++
            args.map (fun a => .w (a.setWidth 16)))
          cs := some false, dc := some true, cmd := some cmd, dflag := some (decide (128 ≤ cnt.toNat))
          nargs := some (BitVec.ofNat 7 (cnt.toNat % 128 - args.length)), sp := some last, seq := .arg } last)) ∧
      (∀ (cmd cnt : Byte) (args : List Byte), s.cfg.scriptRom.drop p = cmd :: cnt :: args →
        args.length = cnt.toNat % 128 → 128 ≤ cnt.toNat →
        ∃ k, Reaches k s (overrun { s with
          trace := s.trace ++ ([.cs false, .dc false, .w (cmd.setWidth 16), .dc true] ++
            args.map (fun a => .w (a.setWidth 16)) ++ [.cs true])
          cs := some true, dc := some true, cmd := some cmd, dflag := some true, nargs := some 0
          sp := some last, seq := .dly } last)))

/-- R154: under DOC_SCRIPTS the `DELAY` events of `INIT` sum to at least 760 ms, and to at least 910 ms when the reset
line exists. Which byte is the reset command is the premise's. -/
def Obligations.DocumentedInitDelay : Prop :=
  ∀ (s : State) (resetCmd : Byte) (s1 s2 s3 : List Instr), DocScripts s.cfg resetCmd s1 s3 →
    760 ≤ totalDelay (initTrace s (s1 ++ s2 ++ s3)) ∧
    (s.cfg.rstPresent = true → 910 ≤ totalDelay (initTrace s (s1 ++ s2 ++ s3)))

/-- R346: under SLEEPOUT_FIRST the machine's steps from an accepted `INIT` reach its end with a trace in which every
bracket of a gamma or power command comes after a whole bracket of a sleep-out record of the scripts and its delay.
Which command bytes are which is the premise's. That the steps reach the end of `INIT` rests on every DELAY ending, the
progress assumption of R308 (log entry 19). -/
def Obligations.SleepoutHazardMet : Prop :=
  ∀ (gammaOrPower sleepOut : Byte → Bool) (s : State) (s1 s2 s3 : List Instr),
    Accepts s → HasScripts s.cfg s1 s2 s3 → SleepoutFirst gammaOrPower sleepOut (s1 ++ s2 ++ s3) →
    ∃ t k u es, exec .init s = .next t ∧ Reaches k t u ∧ u.trace = s.trace ++ es ∧ u.initialized = true ∧
      ∀ (cmd : Byte) (front back : List Event), gammaOrPower cmd = true →
        es = front ++ [.cs false, .dc false, .w (cmd.setWidth 16)] ++ back →
        ∃ (c : Byte) (args : List Byte) (dly : Byte) (before between : List Event), sleepOut c = true ∧
          Instr.recordDelay c args dly ∈ s1 ++ s2 ++ s3 ∧
          front = before ++
            ([.cs false, .dc false, .w (c.setWidth 16), .dc true] ++ args.map (fun a => .w (a.setWidth 16)) ++
              [.cs true, .delay (if dly = 255 then 500 else dly.toNat)]) ++ between

/-- R144, R145, R350, R353: the whole of `INIT`'s trace keeps the bus discipline from any bus: no word outside a
bracket, every command byte, argument and orientation byte at word size 8, no delay inside a bracket. -/
def Obligations.InitTraceKeepsDiscipline : Prop :=
  ∀ (s : State) (records : List Instr) (b : Bus),
    busDiscipline s.cfg b (initTrace s records) = true ∧
    (b.levels.afterAll (initTrace s records)).cs = some true ∧
    (b.levels.afterAll (initTrace s records)).ws = some .w16

/-! The window and the rotation. -/

/-- R180: the wire stream of WINDOW is 11 pairs: the column-range command and its four bytes, the row-range command and
its four, the write-to-RAM command; each end is the sum with the offset, modulo 2^16: its high byte, which the format
ZERO_HI_LOW8 sends as 0, then its low byte; it ends in data mode at word size 8. -/
def Obligations.WindowWireStream : Prop :=
  ∀ (c : Config) (l : Levels) (xs ys : Word) (x0 y0 x1 y1 : Int),
    let hi (v : Int) (o : Word) : WireByte := (some true, match c.coordFormat with
      | .bytesHiLo => BitVec.ofInt 8 ((v + o.toNat) / 256)
      | .zeroHiLow8 => 0)
    let lo (v : Int) (o : Word) : WireByte := (some true, BitVec.ofInt 8 (v + o.toNat))
    wireFrom l (windowEvents c xs ys x0 y0 x1 y1) =
      [(some false, c.cmdCaset), hi x0 xs, lo x0 xs, hi x1 xs, lo x1 xs,
       (some false, c.cmdRaset), hi y0 ys, lo y0 ys, hi y1 ys, lo y1 ys, (some false, c.cmdRamwr)] ∧
    (l.afterAll (windowEvents c xs ys x0 y0 x1 y1)).dc = some true ∧
    (l.afterAll (windowEvents c xs ys x0 y0 x1 y1)).ws = some .w8

/-- R181: the two coordinate formats give the same events whenever every sum lies in 0 to 255. -/
def Obligations.CoordFormatsAgreeInPanel : Prop :=
  ∀ (c : Config) (f g : CoordFormat) (xs ys : Word) (x0 y0 x1 y1 : Int),
    (0 ≤ x0 + xs.toNat ∧ x0 + xs.toNat ≤ 255) → (0 ≤ x1 + xs.toNat ∧ x1 + xs.toNat ≤ 255) →
    (0 ≤ y0 + ys.toNat ∧ y0 + ys.toNat ≤ 255) → (0 ≤ y1 + ys.toNat ∧ y1 + ys.toNat ≤ 255) →
    windowEvents { c with coordFormat := f } xs ys x0 y0 x1 y1 =
      windowEvents { c with coordFormat := g } xs ys x0 y0 x1 y1

/-- R182: `SET_ADDR_WINDOW` on a block that is set up sends the window of its unsigned operands in a bracket, leaves the
word size 16, and stores nothing else; on a block that is not, it faults. -/
def Obligations.SetAddrWindowCompletes : Prop :=
  ∀ (s : State) (x0 y0 x1 y1 : Word),
    (∀ xs ys : Word, s.initialized = true → s.xStart = some xs → s.yStart = some ys →
      exec (.setAddrWindow x0 y0 x1 y1) s =
        .next (drawn s (drawTrace s.cfg xs ys x0.toNat y0.toNat x1.toNat y1.toNat []))) ∧
    (s.initialized = false →
      exec (.setAddrWindow x0 y0 x1 y1) s = .next (faultedAt s .notInitialized 0x03 .none))

/-- R184, R185, R186: `SET_ROTATION` on a block that is set up takes the mode modulo 4, sends the orientation byte of
that rotation in a bracket, and writes the rotation and the four geometry fields together; nothing else but the lines
and the word size changes; on a block that is not, it faults. -/
def Obligations.SetRotationCompletes : Prop :=
  ∀ (s : State) (mode : Byte),
    let r : BitVec 2 := BitVec.ofNat 2 mode.toNat
    let odd : Bool := mode.toNat % 2 == 1
    let swap : Bool := odd && s.cfg.xyStartSwap
    (s.initialized = true → exec (.setRotation mode) s = .next { drawn s
        [.cs false, .setWs .w8, .dc false, .w (s.cfg.cmdMadctl.setWidth 16), .dc true,
         .w ((madctl s.cfg r).setWidth 16), .setWs .w16, .cs true, .resp .ok 0] with
      rotation := some r
      width := some (if odd then s.cfg.panelH else s.cfg.panelW)
      height := some (if odd then s.cfg.panelW else s.cfg.panelH)
      xStart := some (if swap then s.rowStart else s.colStart)
      yStart := some (if swap then s.colStart else s.rowStart) }) ∧
    (s.initialized = false → exec (.setRotation mode) s = .next (faultedAt s .notInitialized 0x04 .none))

/-- R188: modes that differ by 4 do the same, in every state; R189: the same mode twice emits its events again and
leaves every other field as the first time left it. -/
def Obligations.RotationAliasAndRepeat : Prop :=
  (∀ (s : State) (m : Byte), m.toNat ≤ 251 → exec (.setRotation (m + 4)) s = exec (.setRotation m) s) ∧
  (∀ (s t : State) (m : Byte), s.initialized = true → exec (.setRotation m) s = .next t →
    ∃ es, t.trace = s.trace ++ es ∧ exec (.setRotation m) t = .next { t with trace := t.trace ++ es })

/-! Batched transfers. -/

/-- R214, R223: `DRAW_PIXEL` on a block that is set up: outside `[0, W) x [0, H)` only the response, inside a 1 by 1
window and one word, and nothing else changes; on a block that is not set up, it faults. -/
def Obligations.DrawPixelCompletes : Prop :=
  ∀ (s : State) (x y c : Word),
    (∀ W H xs ys : Word, Ready s W H xs ys → exec (.drawPixel x y c) s = .next (
      if x.toInt < 0 ∨ x.toInt ≥ W.toNat ∨ y.toInt < 0 ∨ y.toInt ≥ H.toNat then
        { s with busy := false, trace := s.trace ++ [.resp .ok 0] }
      else drawn s (drawTrace s.cfg xs ys x.toInt y.toInt x.toInt y.toInt [.w c]))) ∧
    (s.initialized = false → exec (.drawPixel x y c) s = .next (faultedAt s .notInitialized 0x05 .none))

/-- R215: `DRAW_HLINE` on a block that is set up, unless its stream takes the DMA path: a no-op for a start outside
the panel or a length of at most 0; else the length is cut at the edge, a length below 2 is the pixel, and a longer one
is one window and its chunks; nothing else changes. -/
def Obligations.DrawHLineCompletes : Prop :=
  ∀ (s : State) (W H xs ys x y w c : Word), Ready s W H xs ys →
    let n : Int := if x.toInt + w.toInt - 1 ≥ W.toNat then W.toNat - x.toInt else w.toInt
    let noop : Bool := decide (x.toInt < 0 ∨ x.toInt ≥ W.toNat ∨ y.toInt < 0 ∨ y.toInt ≥ H.toNat ∨ w.toInt ≤ 0)
    (noop = true ∨ n < 2 ∨ s.cfg.dmaPresent = false ∨ n ≤ s.cfg.dmaThreshold) →
    exec (.drawHLine x y w c) s = .next (
      if noop then { s with busy := false, trace := s.trace ++ [.resp .ok 0] }
      else if n < 2 then drawn s (drawTrace s.cfg xs ys x.toInt y.toInt x.toInt y.toInt [.w c])
      else drawn s (drawTrace s.cfg xs ys x.toInt y.toInt (x.toInt + n - 1) y.toInt
        ((chunks s.cfg n.toNat).map (Event.wrep c))))

/-- R216: `DRAW_VLINE`, as `DRAW_HLINE` along y. -/
def Obligations.DrawVLineCompletes : Prop :=
  ∀ (s : State) (W H xs ys x y h c : Word), Ready s W H xs ys →
    let n : Int := if y.toInt + h.toInt - 1 ≥ H.toNat then H.toNat - y.toInt else h.toInt
    let noop : Bool := decide (x.toInt < 0 ∨ x.toInt ≥ W.toNat ∨ y.toInt < 0 ∨ y.toInt ≥ H.toNat ∨ h.toInt ≤ 0)
    (noop = true ∨ n < 2 ∨ s.cfg.dmaPresent = false ∨ n ≤ s.cfg.dmaThreshold) →
    exec (.drawVLine x y h c) s = .next (
      if noop then { s with busy := false, trace := s.trace ++ [.resp .ok 0] }
      else if n < 2 then drawn s (drawTrace s.cfg xs ys x.toInt y.toInt x.toInt y.toInt [.w c])
      else drawn s (drawTrace s.cfg xs ys x.toInt y.toInt x.toInt (y.toInt + n - 1)
        ((chunks s.cfg n.toNat).map (Event.wrep c))))

/-- R217: `FILL_RECT` on a block that is set up, unless its stream takes the DMA path: the origin under
P_NEG_ORIGIN, the no-op test, the cut at the edges, one window and `w*h` words in chunks; nothing else changes. -/
def Obligations.FillRectCompletes : Prop :=
  ∀ (s : State) (W H xs ys x y w h c : Word), Ready s W H xs ys →
    let clipX : Bool := s.cfg.negOrigin == .clip && decide (x.toInt < 0)
    let clipY : Bool := s.cfg.negOrigin == .clip && decide (y.toInt < 0)
    let X : Int := if clipX then 0 else x.toInt
    let Y : Int := if clipY then 0 else y.toInt
    let w1 : Int := if clipX then w.toInt + x.toInt else w.toInt
    let h1 : Int := if clipY then h.toInt + y.toInt else h.toInt
    let w2 : Int := if X + w1 - 1 ≥ W.toNat then W.toNat - X else w1
    let h2 : Int := if Y + h1 - 1 ≥ H.toNat then H.toNat - Y else h1
    let noop : Bool := decide (X < 0 ∨ Y < 0 ∨ X ≥ W.toNat ∨ Y ≥ H.toNat ∨ w1 ≤ 0 ∨ h1 ≤ 0)
    (noop = true ∨ s.cfg.dmaPresent = false ∨ w2 * h2 ≤ s.cfg.dmaThreshold) →
    exec (.fillRect x y w h c) s = .next (
      if noop then { s with busy := false, trace := s.trace ++ [.resp .ok 0] }
      else drawn s (drawTrace s.cfg xs ys X Y (X + w2 - 1) (Y + h2 - 1)
        ((chunks s.cfg (w2 * h2).toNat).map (Event.wrep c))))

/-- R222: every rectangle inside the bounds is filled by exactly one window and exactly `w*h` words, in chunks of at
most P_MAX_CHUNK. -/
def Obligations.FillInsidePanel : Prop :=
  ∀ (s : State) (W H xs ys x y w h c : Word), Ready s W H xs ys → s.cfg.dmaPresent = false →
    0 ≤ x.toInt → 0 ≤ y.toInt → 1 ≤ w.toInt → 1 ≤ h.toInt →
    x.toInt + w.toInt ≤ W.toNat → y.toInt + h.toInt ≤ H.toNat →
    ∃ sizes : List Nat, sizes.sum = w.toNat * h.toNat ∧ (∀ k ∈ sizes, 1 ≤ k ∧ k ≤ s.cfg.maxChunk) ∧
      exec (.fillRect x y w h c) s = .next (drawn s
        (drawTrace s.cfg xs ys x.toInt y.toInt (x.toInt + w.toInt - 1) (y.toInt + h.toInt - 1)
          (sizes.map (Event.wrep c))))

/-- R123: `FILL_SCREEN` covers the whole panel under the current rotation, for a panel whose sides fit an operand. -/
def Obligations.FillScreenCoversPanel : Prop :=
  ∀ (s : State) (W H xs ys c : Word), Ready s W H xs ys → s.cfg.dmaPresent = false →
    1 ≤ W.toNat → W.toNat ≤ 32767 → 1 ≤ H.toNat → H.toNat ≤ 32767 →
    exec (fillScreen c) s = .next (drawn s
      (drawTrace s.cfg xs ys 0 0 (W.toNat - 1) (H.toNat - 1) ((chunks s.cfg (W.toNat * H.toNat)).map (Event.wrep c))))

/-- R210: the chunks of a stream of `n ≥ 1` words: every one but the last holds P_MAX_CHUNK words, the last what is
left, which is `n mod P_MAX_CHUNK` or a full chunk when that is 0. -/
def Obligations.ChunkSizes : Prop :=
  ∀ (c : Config) (n : Nat), 1 ≤ n →
    chunks c n = List.replicate ((n - 1) / c.maxChunk) (c.maxChunk : Nat) ++
      [if n % c.maxChunk = 0 then (c.maxChunk : Nat) else n % c.maxChunk] ∧
    (chunks c n).sum = n

/-- R224: a line in bounds whose run to the edge is shorter than 2 does exactly what the pixel does; the same for the
vertical line. -/
def Obligations.LineDegradesToPixel : Prop :=
  (∀ (s : State) (W H xs ys x y w c : Word), Ready s W H xs ys →
    0 ≤ x.toInt → x.toInt < W.toNat → 0 ≤ y.toInt → y.toInt < H.toNat → 1 ≤ w.toInt →
    x.toInt + w.toInt - 1 ≥ W.toNat → W.toNat - x.toInt < 2 →
    exec (.drawHLine x y w c) s = exec (.drawPixel x y c) s) ∧
  (∀ (s : State) (W H xs ys x y h c : Word), Ready s W H xs ys →
    0 ≤ x.toInt → x.toInt < W.toNat → 0 ≤ y.toInt → y.toInt < H.toNat → 1 ≤ h.toInt →
    y.toInt + h.toInt - 1 ≥ H.toNat → H.toNat - y.toInt < 2 →
    exec (.drawVLine x y h c) s = exec (.drawPixel x y c) s)

/-- R217, R210, R212: a `FILL_RECT` that is no no-op and whose stream takes the DMA path: the request opens its bracket,
sends the window and starts the first chunk, and the machine then reaches, by its own steps, the end of the request:
each chunk a `DMA_START` with its `DMA_DONE` before the next event, then `CS(1)` and the response; nothing else
changes. That every bulk transfer completes is the progress assumption of R308 (log entry 19), and that the request's
step stops at each `DMA_START` is the model's choice (DESIGN CHOICE, log entry 6). -/
def Obligations.DmaFillCompletes : Prop :=
  ∀ (s : State) (W H xs ys x y w h c : Word), Accepts s → Ready s W H xs ys →
    let clipX : Bool := s.cfg.negOrigin == .clip && decide (x.toInt < 0)
    let clipY : Bool := s.cfg.negOrigin == .clip && decide (y.toInt < 0)
    let X : Int := if clipX then 0 else x.toInt
    let Y : Int := if clipY then 0 else y.toInt
    let w1 : Int := if clipX then w.toInt + x.toInt else w.toInt
    let h1 : Int := if clipY then h.toInt + y.toInt else h.toInt
    let w2 : Int := if X + w1 - 1 ≥ W.toNat then W.toNat - X else w1
    let h2 : Int := if Y + h1 - 1 ≥ H.toNat then H.toNat - Y else h1
    ¬ (X < 0 ∨ Y < 0 ∨ X ≥ W.toNat ∨ Y ≥ H.toNat ∨ w1 ≤ 0 ∨ h1 ≤ 0) →
    s.cfg.dmaPresent = true → s.cfg.dmaThreshold < w2 * h2 →
    ∃ t, exec (.fillRect x y w h c) s = .next t ∧ t.dmaBusy = true ∧ t.busy = true ∧ t.cs = some false ∧
    ∃ k, Reaches k t { drawn s
        (drawTrace s.cfg xs ys X Y (X + w2 - 1) (Y + h2 - 1)
          ((chunks s.cfg (w2 * h2).toNat).flatMap fun k => [.dmaStart c k, .dmaDone])) with
      dmaVal := some c, dmaRem := 0 }

/-- R215, R216, R210, R212: the two lines on the DMA path, cut at the edge as on the other path, reach the end of their
request in the same way: that every bulk transfer completes is the progress assumption of R308 (log entry 19), and that
the request's step stops at each `DMA_START` is the model's choice (DESIGN CHOICE, log entry 6). -/
def Obligations.DmaLinesComplete : Prop :=
  ∀ (s : State) (W H xs ys x y len c : Word), Accepts s → Ready s W H xs ys →
    0 ≤ x.toInt → x.toInt < W.toNat → 0 ≤ y.toInt → y.toInt < H.toNat → 1 ≤ len.toInt → s.cfg.dmaPresent = true →
    (let n : Int := if x.toInt + len.toInt - 1 ≥ W.toNat then W.toNat - x.toInt else len.toInt
     2 ≤ n → s.cfg.dmaThreshold < n →
      ∃ t k, exec (.drawHLine x y len c) s = .next t ∧ t.dmaBusy = true ∧ t.busy = true ∧ Reaches k t { drawn s
          (drawTrace s.cfg xs ys x.toInt y.toInt (x.toInt + n - 1) y.toInt
            ((chunks s.cfg n.toNat).flatMap fun k => [.dmaStart c k, .dmaDone])) with
        dmaVal := some c, dmaRem := 0 }) ∧
    (let n : Int := if y.toInt + len.toInt - 1 ≥ H.toNat then H.toNat - y.toInt else len.toInt
     2 ≤ n → s.cfg.dmaThreshold < n →
      ∃ t k, exec (.drawVLine x y len c) s = .next t ∧ t.dmaBusy = true ∧ t.busy = true ∧ Reaches k t { drawn s
          (drawTrace s.cfg xs ys x.toInt y.toInt x.toInt (y.toInt + n - 1)
            ((chunks s.cfg n.toNat).flatMap fun k => [.dmaStart c k, .dmaDone])) with
        dmaVal := some c, dmaRem := 0 })

/-- R211: the two paths of a stream give the same wire stream, for every split into chunks. That each word is two pairs,
its high byte first, is the spec's own inference (R54: from general knowledge, not in source; log entry 24). -/
def Obligations.DmaAndWordPathsSameWire : Prop :=
  ∀ (l : Levels) (c : Word) (sizes rest : List Nat), sizes.sum = rest.sum →
    wireFrom l (sizes.flatMap fun n => [.dmaStart c n, .dmaDone]) = wireFrom l (rest.map (Event.wrep c)) ∧
    wireFrom l (rest.map (Event.wrep c)) = (List.replicate rest.sum [(l.dc, hiByte c), (l.dc, loByte c)]).flatten

/-- R212, R330: the DMA agent's step, taken only while a transfer is in flight: `DMA_DONE`, and the transfer's registers
cleared; the sequencer emits nothing in it. -/
def Obligations.DmaAgentStep : Prop :=
  ∀ s : State, s.resetIn = false → s.fault = none → s.refused = false → s.dmaBusy = true →
    step s = .next { s with trace := s.trace ++ [.dmaDone], dmaBusy := false, dmaRem := 0 }

/-- R218, R219, R304: the image requests on a block that is set up, from RAM and from ROSTORE: the no-op test comes
first, then the alignment test, whose fault records the address before any event, then the unclipped window and the
whole buffer of `w*h` words in one WBUF; nothing else changes. -/
def Obligations.DrawImageCompletes : Prop :=
  ∀ (s : State) (W H xs ys x y w h : Word) (ptr : BitVec 32), Ready s W H xs ys →
    let p : Nat := ptr.toNat % 2 ^ s.cfg.addrW.val
    let out : Prop := w.toInt ≤ 0 ∨ h.toInt ≤ 0 ∨ x.toInt ≥ W.toNat ∨ y.toInt ≥ H.toNat ∨
      x.toInt + w.toInt ≤ 0 ∨ y.toInt + h.toInt ≤ 0
    let noop : Outcome := .next { s with busy := false, trace := s.trace ++ [.resp .ok 0] }
    let image (sp : Space) (words : List Word) : Outcome := .next (drawn s
      (drawTrace s.cfg xs ys x.toInt y.toInt (x.toInt + w.toInt - 1) (y.toInt + h.toInt - 1) [.wbuf sp p words]))
    let misaligned (op : Byte) : Outcome := .next (faultedAt s .misaligned op (.address p))
    (out → exec (.drawImage x y w h ptr) s = noop ∧ exec (.drawImageRom x y w h ptr) s = noop) ∧
    (¬ out → p % 2 = 1 →
      exec (.drawImage x y w h ptr) s = misaligned 0x09 ∧ exec (.drawImageRom x y w h ptr) s = misaligned 0x0A) ∧
    (¬ out → p % 2 = 0 →
      (∀ ws, s.readWords .ram p (w.toNat * h.toNat) = some ws → exec (.drawImage x y w h ptr) s = image .ram ws) ∧
      (∀ ws, s.readWords .rostore p (w.toNat * h.toNat) = some ws →
        exec (.drawImageRom x y w h ptr) s = image .rostore ws))

/-- R213, R74: the words of a buffer are read in order, two bytes each from consecutive even addresses, in the host's
byte order; they are readable exactly when every byte of the buffer is in the launch memory. -/
def Obligations.BufferWords : Prop :=
  ∀ (s : State) (sp : Space) (p n : Nat),
    ((∃ ws, s.readWords sp p n = some ws) ↔ ∀ k, k < 2 * n → (s.memRead sp (p + k)).isSome = true) ∧
    (∀ ws, s.readWords sp p n = some ws → ws.length = n ∧
      ∀ k (b0 b1 : Byte), k < n → s.memRead sp (p + 2 * k) = some b0 → s.memRead sp (p + 2 * k + 1) = some b1 →
        ws[k]? = some (match s.cfg.hostEndian with | .little => b1 ++ b0 | .big => b0 ++ b1))

/-- R85, R307: an image whose buffer the launch memory does not hold, in RAM or in ROSTORE, is stuck before its WBUF:
the request has opened its bracket and sent its window, `S.fault` stays none, and it has not responded. R307: stuck is not
a fault of the block. That the step there answers the outcome `fault stuckRead` with the space and the address is the
model's choice (DESIGN CHOICE, log entries 6 and 10). -/
def Obligations.UnreadableImageIsStuck : Prop :=
  ∀ (s : State) (W H xs ys x y w h : Word) (ptr : BitVec 32) (i : Instr) (sp : Space),
    Accepts s → Ready s W H xs ys →
    (i = .drawImage x y w h ptr ∧ sp = .ram) ∨ (i = .drawImageRom x y w h ptr ∧ sp = .rostore) →
    let p : Nat := ptr.toNat % 2 ^ s.cfg.addrW.val
    ¬ (w.toInt ≤ 0 ∨ h.toInt ≤ 0 ∨ x.toInt ≥ W.toNat ∨ y.toInt ≥ H.toNat ∨
      x.toInt + w.toInt ≤ 0 ∨ y.toInt + h.toInt ≤ 0) → p % 2 = 0 →
    s.readWords sp p (w.toNat * h.toNat) = none →
    ∃ t, exec i s = .next t ∧
      t.trace = s.trace ++ ([.cs false] ++
        windowEvents s.cfg xs ys x.toInt y.toInt (x.toInt + w.toInt - 1) (y.toInt + h.toInt - 1) ++ [.setWs .w16]) ∧
      t.fault = none ∧ t.busy = true ∧ t.cs = some false ∧ step t = .fault (.stuckRead sp p)

/-- 20_memory R86, R87 (informative): on a controller whose range and write commands are told apart, after any window
the observer fills, for the k-th pixel word, the cell at column `X0 + k mod (X1 - X0 + 1)` and row
`Y0 + k div (X1 - X0 + 1)` of the window its argument bytes carry, and no other; it says nothing of a word past the
window's last cell (R87 (a)), of a reversed window (R87 (b)), of a cell outside the block's panel (R87 (c)), or of a word
after a `CS(1)` that follows the write command (R87 (e)). So a pixel request fills its own cell, and an image that hangs
over an edge the part of it that the panel holds (93_implementation_defined U5). That the panel is the block's own
bounds at its own offsets, and that the test is made of each cell, are the model's reading (log entry 25). -/
def Obligations.PixelFillsItsCell : Prop :=
  ∀ c : Config, c.cmdCaset ≠ c.cmdRaset → c.cmdCaset ≠ c.cmdRamwr → c.cmdRaset ≠ c.cmdRamwr →
    let limit : Int := match c.coordFormat with
      | .bytesHiLo => 65536
      | .zeroHiLow8 => 256
    (∀ (p : Option Panel) (o : Observer) (xs ys : Word) (x0 y0 x1 y1 : Int) (es : List Event),
      (∀ e ∈ es, (pixelWords e).isSome) →
      let X0 : Nat := ((x0 + xs.toNat) % limit).toNat
      let X1 : Nat := ((x1 + xs.toNat) % limit).toNat
      let Y0 : Nat := ((y0 + ys.toNat) % limit).toNat
      let Y1 : Nat := ((y1 + ys.toNat) % limit).toNat
      let columns : Nat := X1 - X0 + 1
      let words : List Word := es.flatMap fun e => (pixelWords e).getD []
      let window : List Event := [.cs false] ++ windowEvents c xs ys x0 y0 x1 y1 ++ [.setWs .w16]
      (o.seeAll c p (window ++ es)).cells = o.cells ++ words.zipIdx.filterMap (fun (v, k) =>
        let col : Nat := X0 + k % columns
        let row : Nat := Y0 + k / columns
        if X0 ≤ X1 ∧ Y0 ≤ Y1 ∧ k < columns * (Y1 - Y0 + 1) ∧ (∀ q, p = some q →
            q.left ≤ col ∧ col < q.left + q.width ∧ q.top ≤ row ∧ row < q.top + q.height) then
          some ((col, row), v)
        else none) ∧
      (o.seeAll c p (window ++ [.cs true, .cs false] ++ es)).cells = o.cells) ∧
    (∀ (s : State) (o : Observer) (W H xs ys x y v : Word), s.cfg = c → s.resetIn = false → Ready s W H xs ys →
      x.toInt + xs.toNat < limit → y.toInt + ys.toNat < limit →
      ∃ t, exec (.drawPixel x y v) s = .next t ∧ (o.watch s t).cells =
        if 0 ≤ x.toInt ∧ x.toInt < W.toNat ∧ 0 ≤ y.toInt ∧ y.toInt < H.toNat then
          o.cells ++ [((x.toNat + xs.toNat, y.toNat + ys.toNat), v)]
        else o.cells) ∧
    (∀ (s : State) (o : Observer) (W H xs ys x y w h : Word) (ptr : BitVec 32) (i : Instr) (sp : Space)
      (words : List Word), s.cfg = c → s.resetIn = false → Ready s W H xs ys →
      (i = .drawImage x y w h ptr ∧ sp = .ram) ∨ (i = .drawImageRom x y w h ptr ∧ sp = .rostore) →
      let p : Nat := ptr.toNat % 2 ^ c.addrW.val
      0 < w.toInt → 0 < h.toInt → x.toInt < W.toNat → y.toInt < H.toNat →
      0 < x.toInt + w.toInt → 0 < y.toInt + h.toInt →
      0 ≤ x.toInt + xs.toNat → x.toInt + w.toInt - 1 + xs.toNat < limit →
      0 ≤ y.toInt + ys.toNat → y.toInt + h.toInt - 1 + ys.toNat < limit →
      p % 2 = 0 → s.readWords sp p (w.toNat * h.toNat) = some words →
      ∃ t, exec i s = .next t ∧ (o.watch s t).cells = o.cells ++ words.zipIdx.filterMap (fun (v, k) =>
        let col : Int := x.toInt + (k % w.toNat : Nat)
        let row : Int := y.toInt + (k / w.toNat : Nat)
        if 0 ≤ col ∧ col < W.toNat ∧ 0 ≤ row ∧ row < H.toNat then
          some (((col + xs.toNat).toNat, (row + ys.toNat).toNat), v)
        else none))

/-! Mode toggles and helpers. -/

/-- R259, R260, R262, R263, R264: each of these toggles on a block that is set up sends its one command byte in its own
bracket at word size 8, then its settle delay if it has one, then the response; it leaves dc 0 and the word size 16,
and nothing else changes; on a block that is not set up, it faults. -/
def Obligations.TogglesComplete : Prop :=
  ∀ (s : State) (on : Bool),
    let c := s.cfg
    let done (cmd : Byte) (settle : Option Nat) : Outcome := .next (toggled s cmd settle)
    (s.initialized = true →
      exec (.invert on) s =
        done (if on then c.cmdInvOn else c.cmdInvOff) (if on then c.settle.invert.on else c.settle.invert.off) ∧
      exec (.sleep on) s =
        done (if on then c.cmdSlpIn else c.cmdSlpOut) (if on then c.settle.sleep.on else c.settle.sleep.off) ∧
      exec (.idle on) s =
        done (if on then c.cmdIdmOn else c.cmdIdmOff) (if on then c.settle.idle.on else c.settle.idle.off) ∧
      exec (.enable on) s =
        done (if on then c.cmdDispOn else c.cmdDispOff) (if on then c.settle.enable.on else c.settle.enable.off)) ∧
    (s.initialized = false →
      exec (.invert on) s = .next (faultedAt s .notInitialized 0x10 .none) ∧
      exec (.sleep on) s = .next (faultedAt s .notInitialized 0x12 .none) ∧
      exec (.idle on) s = .next (faultedAt s .notInitialized 0x13 .none) ∧
      exec (.enable on) s = .next (faultedAt s .notInitialized 0x14 .none))

/-- R261: `PARTIAL`, as the other toggles. That partial off is the normal-mode command is the spec's own inference (R261:
from general knowledge, not in source). -/
def Obligations.PartialToggleCompletes : Prop :=
  ∀ (s : State) (on : Bool),
    (s.initialized = true → exec (.partialMode on) s = .next (toggled s
      (if on then s.cfg.cmdPtlOn else s.cfg.cmdNorOn)
      (if on then s.cfg.settle.partialMode.on else s.cfg.settle.partialMode.off))) ∧
    (s.initialized = false → exec (.partialMode on) s = .next (faultedAt s .notInitialized 0x11 .none))

/-- R265, R304: `POWER_SAVE` on a block that is set up: a mode with an entry in P_PWRSAVE is its toggle; a mode with
none faults `BadMode` with the mode, before any event; on a block that is not set up, it faults `NotInitialized`. -/
def Obligations.PowerSaveCompletes : Prop :=
  ∀ (s : State) (mode : Byte),
    (∀ e : PowerEntry, s.initialized = true → s.cfg.pwrSave.lookup mode = some e →
      exec (.powerSave mode) s = .next (toggled s e.cmd e.settle)) ∧
    (s.initialized = true → s.cfg.pwrSave.lookup mode = none →
      exec (.powerSave mode) s = .next (faultedAt s .badMode 0x15 (.mode mode))) ∧
    (s.initialized = false → exec (.powerSave mode) s = .next (faultedAt s .notInitialized 0x15 .none))

/-- R267: `SET_BRIGHTNESS` in every state, before `INIT` as well: only the response UNSUPPORTED. -/
def Obligations.SetBrightnessResponds : Prop :=
  ∀ (s : State) (level : Byte),
    exec (.setBrightness level) s = .next { s with busy := false, trace := s.trace ++ [.resp .unsupported 0] }

/-- R268, R269: `COLOR565` in every state, before `INIT` as well: only the response with the packed color, the top five
bits of red, six of green and five of blue, each cut without rounding. The bit positions are the spec's own inference
(R268: from general knowledge, not in source). -/
def Obligations.Color565Packs : Prop :=
  (∀ (s : State) (r g b : Byte),
    exec (.color565 r g b) s = .next { s with
      busy := false
      trace := s.trace ++ [.resp .ok
        (BitVec.ofNat 16 (r.toNat / 8 * 2048 + g.toNat / 4 * 32 + b.toNat / 8))] }) ∧
  pack565 0xFF 0xFF 0xFF = 0xFFFF ∧ pack565 0 0 0 = 0 ∧ pack565 0xF8 0 0 = 0xF800

/-! Faults, frames and whole-machine rules. -/

/-- R301, R303, R34: each of the fifteen requests that need the controller set up, while `S.initialized = 0`, faults
`NotInitialized` with its OP before any event: the fault is recorded, `S.busy` is 1, and nothing else changes. -/
def Obligations.NotInitializedFaults : Prop :=
  ∀ (i : Instr) (s : State), s.initialized = false → i.isRecord = false → i ≠ .init →
    (∀ l, i ≠ .setBrightness l) → (∀ r g b, i ≠ .color565 r g b) →
    exec i s = .next (faultedAt s .notInitialized i.opcode .none)

/-- The frame of every instruction, whatever it meets (R46's table): the configuration, both memories byte for byte, the
host's requests, the reset input, `S.refused`, `S.session`, `S.rst` and the fixed offsets stay; a request other than
`SET_ROTATION` leaves the rotation and the geometry; only `INIT` clears `S.initialized` and none sets it; only
`INIT`, `RUN_SCRIPT` and a record write the FSM's registers; only a line or a fill writes the DMA registers. -/
def Obligations.InstructionFrame : Prop :=
  ∀ (i : Instr) (s t : State), exec i s = .next t →
    (t.cfg = s.cfg ∧ t.requests = s.requests ∧ t.resetIn = s.resetIn ∧ t.refused = s.refused ∧
      t.session = s.session ∧ t.rst = s.rst ∧ t.colStart = s.colStart ∧ t.rowStart = s.rowStart ∧
      ∀ (sp : Space) (a : Nat), t.memRead sp a = s.memRead sp a) ∧
    ((∀ m, i ≠ .setRotation m) →
      t.rotation = s.rotation ∧ t.width = s.width ∧ t.height = s.height ∧ t.xStart = s.xStart ∧ t.yStart = s.yStart) ∧
    (i ≠ .init → t.initialized = s.initialized) ∧
    (i ≠ .init → (∀ p, i ≠ .runScript p) → i.isRecord = false →
      t.seq = s.seq ∧ t.script = s.script ∧ t.sp = s.sp ∧ t.ncmd = s.ncmd ∧ t.nargs = s.nargs ∧
      t.dflag = s.dflag ∧ t.cmd = s.cmd) ∧
    ((∀ x y w c, i ≠ .drawHLine x y w c) → (∀ x y h c, i ≠ .drawVLine x y h c) →
      (∀ x y w h c, i ≠ .fillRect x y w h c) →
      t.dmaBusy = s.dmaBusy ∧ t.dmaVal = s.dmaVal ∧ t.dmaRem = s.dmaRem ∧
      ((∀ x y w h p, i ≠ .drawImage x y w h p) → (∀ x y w h p, i ≠ .drawImageRom x y w h p) →
        t.pending = s.pending))

/-- R59, R82, R50, R41: no step changes the configuration or writes a memory, so every byte reads as before; a step
other than reset only appends to the trace and never ends the session. -/
def Obligations.StepFrame : Prop :=
  ∀ s t : State, step s = .next t →
    t.cfg = s.cfg ∧ t.ram = s.ram ∧ t.rostore = s.rostore ∧
    (∀ (sp : Space) (a : Nat), t.memRead sp a = s.memRead sp a) ∧
    (s.resetIn = false → (∃ es, t.trace = s.trace ++ es) ∧ (s.session = true → t.session = true))

/-- R35, R36, R37: outside reset, only `SET_ROTATION` and `INIT`'s orientation step write the rotation and the geometry
fields. -/
def Obligations.GeometryWriters : Prop :=
  ∀ s t : State, s.resetIn = false → step s = .next t →
    (t.rotation, t.width, t.height, t.xStart, t.yStart) ≠ (s.rotation, s.width, s.height, s.xStart, s.yStart) →
    s.seq = .rot ∨ (s.seq = .idle ∧ ∃ q rest m, s.requests = q :: rest ∧ decodeRequest q = .ok (.setRotation m))

/-- R31, R149, R155: outside reset, a step sets `S.initialized` only in the SQ_DONE of an `INIT`, with the response, and
clears it only when the block accepts an `INIT`; and both do so. -/
def Obligations.InitializedWriters : Prop :=
  ∀ s t : State, s.resetIn = false → step s = .next t →
    (s.initialized = false → t.initialized = true →
      s.seq = .done ∧ (∃ id, s.script = some id ∧ id ≠ .x) ∧ t.trace = s.trace ++ [.resp .ok 0] ∧ t.busy = false) ∧
    (s.initialized = true → t.initialized = false →
      Accepts s ∧ ∃ q rest, s.requests = q :: rest ∧ decodeRequest q = .ok .init) ∧
    (∀ id : ScriptId, SequencerMoves s → s.pending = .none → s.seq = .done → s.script = some id → id ≠ .x →
      t.initialized = true) ∧
    (∀ (q : Request) (rest : List Request), Accepts s → s.requests = q :: rest → decodeRequest q = .ok .init →
      t.initialized = false)

/-- R42, R142: without P_RST_PRESENT no step emits an RST event or sets `S.rst`: from a state in which the line is
unset and the FSM is in no state of the reset pulse, every step leads to one. With it, outside reset, only the three
states of the pulse emit RST, which drives the line to the event's level, and only they write `S.rst`. -/
def Obligations.ResetLineOnlyPulsed : Prop :=
  ∀ s t : State, step s = .next t →
    (ResetLineOk s → ResetLineOk t) ∧
    (s.resetIn = false →
      (t.rst ≠ s.rst → s.seq = .rst1 ∨ s.seq = .rst2 ∨ s.seq = .rst3) ∧
      (∀ (es : List Event) (v : Bool), t.trace = s.trace ++ es → Event.rst v ∈ es →
        (s.seq = .rst1 ∨ s.seq = .rst2 ∨ s.seq = .rst3) ∧ t.rst = some v))

/-- R51: a step emits at most one RESP, as its last event, with `S.busy` 0 after it; a busy block that a step leaves
idle has responded in that step; and so has an accepting block whose next request decodes and whose step leaves it
idle with no fault: an accepted request that ends has emitted exactly one RESP, and that is its last event. -/
def Obligations.OneResponsePerRequest : Prop :=
  ∀ s t : State, s.resetIn = false → step s = .next t →
    ∃ es, t.trace = s.trace ++ es ∧
      (∀ (front back : List Event) (st : Status) (v : Word), es = front ++ .resp st v :: back →
        back = [] ∧ t.busy = false ∧ ∀ e ∈ front, ∀ st' v', e ≠ .resp st' v') ∧
      (s.busy = true → t.busy = false → ∃ front st v, es = front ++ [.resp st v]) ∧
      (∀ (q : Request) (rest : List Request) (i : Instr), Accepts s → s.requests = q :: rest →
        decodeRequest q = .ok i → t.fault = none → t.busy = false → ∃ front st v, es = front ++ [.resp st v])

/-- R358, R51, R34: in a run, a reset and then a finite sequence of host requests, as long as none is refused, every
request is still to come, in progress (or faulted), or has emitted exactly one RESP; so a run whose requests are all
issued and whose block is at rest has a RESP for each. And such a run exists: with well-formed scripts, the run of one
`INIT` ends successfully. That every DELAY ends is the progress assumption of R308 (log entry 19). -/
def Obligations.RunResponses : Prop :=
  ∀ (c : Config) (ram rostore : List Host.Cell),
    (∀ (requests : List Request) (k : Nat) (t : State), Run c ram rostore requests k t → t.refused = false →
      responses t.trace + (if t.busy then 1 else 0) + t.requests.length = requests.length ∧
      (t.requests = [] → EndedWell t → RunEndsWell c ram rostore requests k t)) ∧
    (∀ (s1 s2 s3 : List Instr) (q : Request), HasScripts c s1 s2 s3 → q.toNat % 256 = 0x01 →
      ∃ k t, RunEndsWell c ram rostore [q] k t)

/-! Invariants that every step keeps. -/

/-- R39: from every state in which the geometry fields follow the rotation, every step leads to one. -/
def Obligations.GeometryFollowsRotation : Prop :=
  ∀ s t : State, GeometryOk s → step s = .next t → GeometryOk t

/-- R56, R347, R350, R353, R40: from every state that keeps the bus discipline, every step leads to one: no word is
written outside a bracket; every command byte and every argument, coordinate and orientation byte goes out at word size
8; every pixel word goes out as data at word size 16, with a whole window and no other command before it in its bracket,
and no byte argument does; no delay falls inside a bracket; and an idle block that is set up has the bus deselected at
the steady-state width. -/
def Obligations.BusDisciplineKept : Prop :=
  ∀ s t : State, BusOk s → step s = .next t → BusOk t

/-- R44, R349: from every state in which the DMA registers agree, every step leads to one; and the value of a transfer
in flight is never overwritten. -/
def Obligations.DmaRegistersKept : Prop :=
  ∀ s t : State, DmaOk s → step s = .next t →
    DmaOk t ∧ (s.resetIn = false → s.dmaBusy = true → t.dmaVal = s.dmaVal)

/-- The invariants and the canonical memories hold at reset, under every configuration. -/
def Obligations.InvariantsHoldAtReset : Prop :=
  ∀ c : Config, let s := State.resetWith c
    GeometryOk s ∧ BusOk s ∧ DmaOk s ∧ MemoryOk s ∧ ResetLineOk s ∧ Accepts s
end

