-- ==== Sys2Proof/Laws/State.lean ====
section
/-! SUPPORT. What each named operation does to each field of the state: the lemmas that keep later proofs from
unfolding a record update. -/

namespace Sys2Proof.Machine

/-! `emit`: only the trace and the levels change. -/

@[simp] theorem State.emit_cfg (s : State) (e : Event) : (s.emit e).cfg = s.cfg := by cases e <;> rfl
@[simp] theorem State.emit_ram (s : State) (e : Event) : (s.emit e).ram = s.ram := by cases e <;> rfl
@[simp] theorem State.emit_rostore (s : State) (e : Event) : (s.emit e).rostore = s.rostore := by cases e <;> rfl
@[simp] theorem State.emit_requests (s : State) (e : Event) : (s.emit e).requests = s.requests := by cases e <;> rfl
@[simp] theorem State.emit_resetIn (s : State) (e : Event) : (s.emit e).resetIn = s.resetIn := by cases e <;> rfl
@[simp] theorem State.emit_initialized (s : State) (e : Event) : (s.emit e).initialized = s.initialized := by cases e <;> rfl
@[simp] theorem State.emit_fault (s : State) (e : Event) : (s.emit e).fault = s.fault := by cases e <;> rfl
@[simp] theorem State.emit_refused (s : State) (e : Event) : (s.emit e).refused = s.refused := by cases e <;> rfl
@[simp] theorem State.emit_busy (s : State) (e : Event) : (s.emit e).busy = s.busy := by cases e <;> rfl
@[simp] theorem State.emit_rotation (s : State) (e : Event) : (s.emit e).rotation = s.rotation := by cases e <;> rfl
@[simp] theorem State.emit_width (s : State) (e : Event) : (s.emit e).width = s.width := by cases e <;> rfl
@[simp] theorem State.emit_height (s : State) (e : Event) : (s.emit e).height = s.height := by cases e <;> rfl
@[simp] theorem State.emit_xStart (s : State) (e : Event) : (s.emit e).xStart = s.xStart := by cases e <;> rfl
@[simp] theorem State.emit_yStart (s : State) (e : Event) : (s.emit e).yStart = s.yStart := by cases e <;> rfl
@[simp] theorem State.emit_colStart (s : State) (e : Event) : (s.emit e).colStart = s.colStart := by cases e <;> rfl
@[simp] theorem State.emit_rowStart (s : State) (e : Event) : (s.emit e).rowStart = s.rowStart := by cases e <;> rfl
@[simp] theorem State.emit_session (s : State) (e : Event) : (s.emit e).session = s.session := by cases e <;> rfl
@[simp] theorem State.emit_seq (s : State) (e : Event) : (s.emit e).seq = s.seq := by cases e <;> rfl
@[simp] theorem State.emit_script (s : State) (e : Event) : (s.emit e).script = s.script := by cases e <;> rfl
@[simp] theorem State.emit_sp (s : State) (e : Event) : (s.emit e).sp = s.sp := by cases e <;> rfl
@[simp] theorem State.emit_ncmd (s : State) (e : Event) : (s.emit e).ncmd = s.ncmd := by cases e <;> rfl
@[simp] theorem State.emit_nargs (s : State) (e : Event) : (s.emit e).nargs = s.nargs := by cases e <;> rfl
@[simp] theorem State.emit_dflag (s : State) (e : Event) : (s.emit e).dflag = s.dflag := by cases e <;> rfl
@[simp] theorem State.emit_cmd (s : State) (e : Event) : (s.emit e).cmd = s.cmd := by cases e <;> rfl
@[simp] theorem State.emit_dmaBusy (s : State) (e : Event) : (s.emit e).dmaBusy = s.dmaBusy := by cases e <;> rfl
@[simp] theorem State.emit_dmaVal (s : State) (e : Event) : (s.emit e).dmaVal = s.dmaVal := by cases e <;> rfl
@[simp] theorem State.emit_dmaRem (s : State) (e : Event) : (s.emit e).dmaRem = s.dmaRem := by cases e <;> rfl
@[simp] theorem State.emit_pending (s : State) (e : Event) : (s.emit e).pending = s.pending := by cases e <;> rfl

@[simp] theorem State.emit_trace (s : State) (e : Event) : (s.emit e).trace = s.trace ++ [e] := by cases e <;> rfl

@[simp] theorem State.emit_levels (s : State) (e : Event) : (s.emit e).levels = s.levels.after e := by cases e <;> rfl

theorem State.emit_ws (s : State) (e : Event) : (s.emit e).ws = (s.levels.after e).ws := by cases e <;> rfl
theorem State.emit_cs (s : State) (e : Event) : (s.emit e).cs = (s.levels.after e).cs := by cases e <;> rfl
theorem State.emit_dc (s : State) (e : Event) : (s.emit e).dc = (s.levels.after e).dc := by cases e <;> rfl
theorem State.emit_rst (s : State) (e : Event) : (s.emit e).rst = (s.levels.after e).rst := by cases e <;> rfl

/-! `emitAll`. -/

@[simp] theorem State.emitAll_nil (s : State) : s.emitAll [] = s := rfl

theorem State.emitAll_cons (s : State) (e : Event) (es : List Event) :
    s.emitAll (e :: es) = (s.emit e).emitAll es := rfl

theorem State.emitAll_append (s : State) (es fs : List Event) :
    s.emitAll (es ++ fs) = (s.emitAll es).emitAll fs := List.foldl_append

theorem State.emit_emitAll (s : State) (es : List Event) (e : Event) :
    (s.emitAll es).emit e = s.emitAll (es ++ [e]) := by simp [State.emitAll]

@[simp] theorem State.emitAll_cfg (s : State) (es : List Event) : (s.emitAll es).cfg = s.cfg := by
  induction es generalizing s with
  | nil => rfl
  | cons e es ih => rw [State.emitAll_cons, ih, State.emit_cfg]

@[simp] theorem State.emitAll_ram (s : State) (es : List Event) : (s.emitAll es).ram = s.ram := by
  induction es generalizing s with
  | nil => rfl
  | cons e es ih => rw [State.emitAll_cons, ih, State.emit_ram]

@[simp] theorem State.emitAll_rostore (s : State) (es : List Event) : (s.emitAll es).rostore = s.rostore := by
  induction es generalizing s with
  | nil => rfl
  | cons e es ih => rw [State.emitAll_cons, ih, State.emit_rostore]

@[simp] theorem State.emitAll_requests (s : State) (es : List Event) : (s.emitAll es).requests = s.requests := by
  induction es generalizing s with
  | nil => rfl
  | cons e es ih => rw [State.emitAll_cons, ih, State.emit_requests]

@[simp] theorem State.emitAll_resetIn (s : State) (es : List Event) : (s.emitAll es).resetIn = s.resetIn := by
  induction es generalizing s with
  | nil => rfl
  | cons e es ih => rw [State.emitAll_cons, ih, State.emit_resetIn]

@[simp] theorem State.emitAll_initialized (s : State) (es : List Event) : (s.emitAll es).initialized = s.initialized := by
  induction es generalizing s with
  | nil => rfl
  | cons e es ih => rw [State.emitAll_cons, ih, State.emit_initialized]

@[simp] theorem State.emitAll_fault (s : State) (es : List Event) : (s.emitAll es).fault = s.fault := by
  induction es generalizing s with
  | nil => rfl
  | cons e es ih => rw [State.emitAll_cons, ih, State.emit_fault]

@[simp] theorem State.emitAll_refused (s : State) (es : List Event) : (s.emitAll es).refused = s.refused := by
  induction es generalizing s with
  | nil => rfl
  | cons e es ih => rw [State.emitAll_cons, ih, State.emit_refused]

@[simp] theorem State.emitAll_busy (s : State) (es : List Event) : (s.emitAll es).busy = s.busy := by
  induction es generalizing s with
  | nil => rfl
  | cons e es ih => rw [State.emitAll_cons, ih, State.emit_busy]

@[simp] theorem State.emitAll_rotation (s : State) (es : List Event) : (s.emitAll es).rotation = s.rotation := by
  induction es generalizing s with
  | nil => rfl
  | cons e es ih => rw [State.emitAll_cons, ih, State.emit_rotation]

@[simp] theorem State.emitAll_width (s : State) (es : List Event) : (s.emitAll es).width = s.width := by
  induction es generalizing s with
  | nil => rfl
  | cons e es ih => rw [State.emitAll_cons, ih, State.emit_width]

@[simp] theorem State.emitAll_height (s : State) (es : List Event) : (s.emitAll es).height = s.height := by
  induction es generalizing s with
  | nil => rfl
  | cons e es ih => rw [State.emitAll_cons, ih, State.emit_height]

@[simp] theorem State.emitAll_xStart (s : State) (es : List Event) : (s.emitAll es).xStart = s.xStart := by
  induction es generalizing s with
  | nil => rfl
  | cons e es ih => rw [State.emitAll_cons, ih, State.emit_xStart]

@[simp] theorem State.emitAll_yStart (s : State) (es : List Event) : (s.emitAll es).yStart = s.yStart := by
  induction es generalizing s with
  | nil => rfl
  | cons e es ih => rw [State.emitAll_cons, ih, State.emit_yStart]

@[simp] theorem State.emitAll_colStart (s : State) (es : List Event) : (s.emitAll es).colStart = s.colStart := by
  induction es generalizing s with
  | nil => rfl
  | cons e es ih => rw [State.emitAll_cons, ih, State.emit_colStart]

@[simp] theorem State.emitAll_rowStart (s : State) (es : List Event) : (s.emitAll es).rowStart = s.rowStart := by
  induction es generalizing s with
  | nil => rfl
  | cons e es ih => rw [State.emitAll_cons, ih, State.emit_rowStart]

@[simp] theorem State.emitAll_session (s : State) (es : List Event) : (s.emitAll es).session = s.session := by
  induction es generalizing s with
  | nil => rfl
  | cons e es ih => rw [State.emitAll_cons, ih, State.emit_session]

@[simp] theorem State.emitAll_seq (s : State) (es : List Event) : (s.emitAll es).seq = s.seq := by
  induction es generalizing s with
  | nil => rfl
  | cons e es ih => rw [State.emitAll_cons, ih, State.emit_seq]

@[simp] theorem State.emitAll_script (s : State) (es : List Event) : (s.emitAll es).script = s.script := by
  induction es generalizing s with
  | nil => rfl
  | cons e es ih => rw [State.emitAll_cons, ih, State.emit_script]

@[simp] theorem State.emitAll_sp (s : State) (es : List Event) : (s.emitAll es).sp = s.sp := by
  induction es generalizing s with
  | nil => rfl
  | cons e es ih => rw [State.emitAll_cons, ih, State.emit_sp]

@[simp] theorem State.emitAll_ncmd (s : State) (es : List Event) : (s.emitAll es).ncmd = s.ncmd := by
  induction es generalizing s with
  | nil => rfl
  | cons e es ih => rw [State.emitAll_cons, ih, State.emit_ncmd]

@[simp] theorem State.emitAll_nargs (s : State) (es : List Event) : (s.emitAll es).nargs = s.nargs := by
  induction es generalizing s with
  | nil => rfl
  | cons e es ih => rw [State.emitAll_cons, ih, State.emit_nargs]

@[simp] theorem State.emitAll_dflag (s : State) (es : List Event) : (s.emitAll es).dflag = s.dflag := by
  induction es generalizing s with
  | nil => rfl
  | cons e es ih => rw [State.emitAll_cons, ih, State.emit_dflag]

@[simp] theorem State.emitAll_cmd (s : State) (es : List Event) : (s.emitAll es).cmd = s.cmd := by
  induction es generalizing s with
  | nil => rfl
  | cons e es ih => rw [State.emitAll_cons, ih, State.emit_cmd]

@[simp] theorem State.emitAll_dmaBusy (s : State) (es : List Event) : (s.emitAll es).dmaBusy = s.dmaBusy := by
  induction es generalizing s with
  | nil => rfl
  | cons e es ih => rw [State.emitAll_cons, ih, State.emit_dmaBusy]

@[simp] theorem State.emitAll_dmaVal (s : State) (es : List Event) : (s.emitAll es).dmaVal = s.dmaVal := by
  induction es generalizing s with
  | nil => rfl
  | cons e es ih => rw [State.emitAll_cons, ih, State.emit_dmaVal]

@[simp] theorem State.emitAll_dmaRem (s : State) (es : List Event) : (s.emitAll es).dmaRem = s.dmaRem := by
  induction es generalizing s with
  | nil => rfl
  | cons e es ih => rw [State.emitAll_cons, ih, State.emit_dmaRem]

@[simp] theorem State.emitAll_pending (s : State) (es : List Event) : (s.emitAll es).pending = s.pending := by
  induction es generalizing s with
  | nil => rfl
  | cons e es ih => rw [State.emitAll_cons, ih, State.emit_pending]

@[simp] theorem State.emitAll_trace (s : State) (es : List Event) : (s.emitAll es).trace = s.trace ++ es := by
  induction es generalizing s with
  | nil => simp
  | cons e es ih => rw [State.emitAll_cons, ih, State.emit_trace, List.append_assoc]; rfl

@[simp] theorem State.emitAll_levels (s : State) (es : List Event) :
    (s.emitAll es).levels = s.levels.afterAll es := by
  induction es generalizing s with
  | nil => rfl
  | cons e es ih => rw [State.emitAll_cons, ih, State.emit_levels]; rfl

theorem State.emitAll_ws (s : State) (es : List Event) : (s.emitAll es).ws = (s.levels.afterAll es).ws := by
  rw [← State.emitAll_levels]; rfl

theorem State.emitAll_cs (s : State) (es : List Event) : (s.emitAll es).cs = (s.levels.afterAll es).cs := by
  rw [← State.emitAll_levels]; rfl

theorem State.emitAll_dc (s : State) (es : List Event) : (s.emitAll es).dc = (s.levels.afterAll es).dc := by
  rw [← State.emitAll_levels]; rfl

theorem State.emitAll_rst (s : State) (es : List Event) : (s.emitAll es).rst = (s.levels.afterAll es).rst := by
  rw [← State.emitAll_levels]; rfl

/-- `emitAll` in one record update: the trace grows by the events and the lines take the levels after them. -/
theorem State.emitAll_eq (s : State) (es : List Event) :
    s.emitAll es = { s with
      trace := s.trace ++ es
      ws := (s.levels.afterAll es).ws
      cs := (s.levels.afterAll es).cs
      dc := (s.levels.afterAll es).dc
      rst := (s.levels.afterAll es).rst } := by
  induction es generalizing s with
  | nil => simp [Levels.afterAll, State.levels]
  | cons e es ih =>
    rw [State.emitAll_cons, ih]
    simp only [State.emit_levels, State.emit_trace, List.append_assoc, List.singleton_append]
    cases e <;> rfl

/-- `emit` in one record update. -/
theorem State.emit_eq (s : State) (e : Event) :
    s.emit e = { s with
      trace := s.trace ++ [e]
      ws := (s.levels.after e).ws
      cs := (s.levels.after e).cs
      dc := (s.levels.after e).dc
      rst := (s.levels.after e).rst } := by cases e <;> rfl

/-! `accept`, `raise`, `respond`. -/

@[simp] theorem State.accept_cfg (s : State) : s.accept.cfg = s.cfg := rfl
@[simp] theorem State.accept_ram (s : State) : s.accept.ram = s.ram := rfl
@[simp] theorem State.accept_rostore (s : State) : s.accept.rostore = s.rostore := rfl
@[simp] theorem State.accept_requests (s : State) : s.accept.requests = s.requests := rfl
@[simp] theorem State.accept_resetIn (s : State) : s.accept.resetIn = s.resetIn := rfl
@[simp] theorem State.accept_initialized (s : State) : s.accept.initialized = s.initialized := rfl
@[simp] theorem State.accept_fault (s : State) : s.accept.fault = s.fault := rfl
@[simp] theorem State.accept_refused (s : State) : s.accept.refused = s.refused := rfl
@[simp] theorem State.accept_rotation (s : State) : s.accept.rotation = s.rotation := rfl
@[simp] theorem State.accept_width (s : State) : s.accept.width = s.width := rfl
@[simp] theorem State.accept_height (s : State) : s.accept.height = s.height := rfl
@[simp] theorem State.accept_xStart (s : State) : s.accept.xStart = s.xStart := rfl
@[simp] theorem State.accept_yStart (s : State) : s.accept.yStart = s.yStart := rfl
@[simp] theorem State.accept_colStart (s : State) : s.accept.colStart = s.colStart := rfl
@[simp] theorem State.accept_rowStart (s : State) : s.accept.rowStart = s.rowStart := rfl
@[simp] theorem State.accept_ws (s : State) : s.accept.ws = s.ws := rfl
@[simp] theorem State.accept_session (s : State) : s.accept.session = s.session := rfl
@[simp] theorem State.accept_cs (s : State) : s.accept.cs = s.cs := rfl
@[simp] theorem State.accept_dc (s : State) : s.accept.dc = s.dc := rfl
@[simp] theorem State.accept_rst (s : State) : s.accept.rst = s.rst := rfl
@[simp] theorem State.accept_seq (s : State) : s.accept.seq = s.seq := rfl
@[simp] theorem State.accept_script (s : State) : s.accept.script = s.script := rfl
@[simp] theorem State.accept_sp (s : State) : s.accept.sp = s.sp := rfl
@[simp] theorem State.accept_ncmd (s : State) : s.accept.ncmd = s.ncmd := rfl
@[simp] theorem State.accept_nargs (s : State) : s.accept.nargs = s.nargs := rfl
@[simp] theorem State.accept_dflag (s : State) : s.accept.dflag = s.dflag := rfl
@[simp] theorem State.accept_cmd (s : State) : s.accept.cmd = s.cmd := rfl
@[simp] theorem State.accept_dmaBusy (s : State) : s.accept.dmaBusy = s.dmaBusy := rfl
@[simp] theorem State.accept_dmaVal (s : State) : s.accept.dmaVal = s.dmaVal := rfl
@[simp] theorem State.accept_dmaRem (s : State) : s.accept.dmaRem = s.dmaRem := rfl
@[simp] theorem State.accept_pending (s : State) : s.accept.pending = s.pending := rfl
@[simp] theorem State.accept_trace (s : State) : s.accept.trace = s.trace := rfl

@[simp] theorem State.accept_busy (s : State) : s.accept.busy = true := rfl

@[simp] theorem State.accept_levels (s : State) : s.accept.levels = s.levels := rfl

@[simp] theorem State.raise_cfg (s : State) (r : FaultReason) (op : Byte) (i : FaultInfo) :
    (s.raise r op i).cfg = s.cfg := rfl
@[simp] theorem State.raise_ram (s : State) (r : FaultReason) (op : Byte) (i : FaultInfo) :
    (s.raise r op i).ram = s.ram := rfl
@[simp] theorem State.raise_rostore (s : State) (r : FaultReason) (op : Byte) (i : FaultInfo) :
    (s.raise r op i).rostore = s.rostore := rfl
@[simp] theorem State.raise_requests (s : State) (r : FaultReason) (op : Byte) (i : FaultInfo) :
    (s.raise r op i).requests = s.requests := rfl
@[simp] theorem State.raise_resetIn (s : State) (r : FaultReason) (op : Byte) (i : FaultInfo) :
    (s.raise r op i).resetIn = s.resetIn := rfl
@[simp] theorem State.raise_initialized (s : State) (r : FaultReason) (op : Byte) (i : FaultInfo) :
    (s.raise r op i).initialized = s.initialized := rfl
@[simp] theorem State.raise_refused (s : State) (r : FaultReason) (op : Byte) (i : FaultInfo) :
    (s.raise r op i).refused = s.refused := rfl
@[simp] theorem State.raise_busy (s : State) (r : FaultReason) (op : Byte) (i : FaultInfo) :
    (s.raise r op i).busy = s.busy := rfl
@[simp] theorem State.raise_rotation (s : State) (r : FaultReason) (op : Byte) (i : FaultInfo) :
    (s.raise r op i).rotation = s.rotation := rfl
@[simp] theorem State.raise_width (s : State) (r : FaultReason) (op : Byte) (i : FaultInfo) :
    (s.raise r op i).width = s.width := rfl
@[simp] theorem State.raise_height (s : State) (r : FaultReason) (op : Byte) (i : FaultInfo) :
    (s.raise r op i).height = s.height := rfl
@[simp] theorem State.raise_xStart (s : State) (r : FaultReason) (op : Byte) (i : FaultInfo) :
    (s.raise r op i).xStart = s.xStart := rfl
@[simp] theorem State.raise_yStart (s : State) (r : FaultReason) (op : Byte) (i : FaultInfo) :
    (s.raise r op i).yStart = s.yStart := rfl
@[simp] theorem State.raise_colStart (s : State) (r : FaultReason) (op : Byte) (i : FaultInfo) :
    (s.raise r op i).colStart = s.colStart := rfl
@[simp] theorem State.raise_rowStart (s : State) (r : FaultReason) (op : Byte) (i : FaultInfo) :
    (s.raise r op i).rowStart = s.rowStart := rfl
@[simp] theorem State.raise_ws (s : State) (r : FaultReason) (op : Byte) (i : FaultInfo) :
    (s.raise r op i).ws = s.ws := rfl
@[simp] theorem State.raise_session (s : State) (r : FaultReason) (op : Byte) (i : FaultInfo) :
    (s.raise r op i).session = s.session := rfl
@[simp] theorem State.raise_cs (s : State) (r : FaultReason) (op : Byte) (i : FaultInfo) :
    (s.raise r op i).cs = s.cs := rfl
@[simp] theorem State.raise_dc (s : State) (r : FaultReason) (op : Byte) (i : FaultInfo) :
    (s.raise r op i).dc = s.dc := rfl
@[simp] theorem State.raise_rst (s : State) (r : FaultReason) (op : Byte) (i : FaultInfo) :
    (s.raise r op i).rst = s.rst := rfl
@[simp] theorem State.raise_seq (s : State) (r : FaultReason) (op : Byte) (i : FaultInfo) :
    (s.raise r op i).seq = s.seq := rfl
@[simp] theorem State.raise_script (s : State) (r : FaultReason) (op : Byte) (i : FaultInfo) :
    (s.raise r op i).script = s.script := rfl
@[simp] theorem State.raise_sp (s : State) (r : FaultReason) (op : Byte) (i : FaultInfo) :
    (s.raise r op i).sp = s.sp := rfl
@[simp] theorem State.raise_ncmd (s : State) (r : FaultReason) (op : Byte) (i : FaultInfo) :
    (s.raise r op i).ncmd = s.ncmd := rfl
@[simp] theorem State.raise_nargs (s : State) (r : FaultReason) (op : Byte) (i : FaultInfo) :
    (s.raise r op i).nargs = s.nargs := rfl
@[simp] theorem State.raise_dflag (s : State) (r : FaultReason) (op : Byte) (i : FaultInfo) :
    (s.raise r op i).dflag = s.dflag := rfl
@[simp] theorem State.raise_cmd (s : State) (r : FaultReason) (op : Byte) (i : FaultInfo) :
    (s.raise r op i).cmd = s.cmd := rfl
@[simp] theorem State.raise_dmaBusy (s : State) (r : FaultReason) (op : Byte) (i : FaultInfo) :
    (s.raise r op i).dmaBusy = s.dmaBusy := rfl
@[simp] theorem State.raise_dmaVal (s : State) (r : FaultReason) (op : Byte) (i : FaultInfo) :
    (s.raise r op i).dmaVal = s.dmaVal := rfl
@[simp] theorem State.raise_dmaRem (s : State) (r : FaultReason) (op : Byte) (i : FaultInfo) :
    (s.raise r op i).dmaRem = s.dmaRem := rfl
@[simp] theorem State.raise_pending (s : State) (r : FaultReason) (op : Byte) (i : FaultInfo) :
    (s.raise r op i).pending = s.pending := rfl
@[simp] theorem State.raise_trace (s : State) (r : FaultReason) (op : Byte) (i : FaultInfo) :
    (s.raise r op i).trace = s.trace := rfl

@[simp] theorem State.raise_fault (s : State) (r : FaultReason) (op : Byte) (i : FaultInfo) :
    (s.raise r op i).fault = some { reason := r, op := op, info := i } := rfl

@[simp] theorem State.raise_levels (s : State) (r : FaultReason) (op : Byte) (i : FaultInfo) :
    (s.raise r op i).levels = s.levels := rfl

@[simp] theorem State.respond_cfg (s : State) (st : Status) (v : Word) : (s.respond st v).cfg = s.cfg := rfl
@[simp] theorem State.respond_ram (s : State) (st : Status) (v : Word) : (s.respond st v).ram = s.ram := rfl
@[simp] theorem State.respond_rostore (s : State) (st : Status) (v : Word) : (s.respond st v).rostore = s.rostore := rfl
@[simp] theorem State.respond_requests (s : State) (st : Status) (v : Word) : (s.respond st v).requests = s.requests := rfl
@[simp] theorem State.respond_resetIn (s : State) (st : Status) (v : Word) : (s.respond st v).resetIn = s.resetIn := rfl
@[simp] theorem State.respond_initialized (s : State) (st : Status) (v : Word) : (s.respond st v).initialized = s.initialized := rfl
@[simp] theorem State.respond_fault (s : State) (st : Status) (v : Word) : (s.respond st v).fault = s.fault := rfl
@[simp] theorem State.respond_refused (s : State) (st : Status) (v : Word) : (s.respond st v).refused = s.refused := rfl
@[simp] theorem State.respond_rotation (s : State) (st : Status) (v : Word) : (s.respond st v).rotation = s.rotation := rfl
@[simp] theorem State.respond_width (s : State) (st : Status) (v : Word) : (s.respond st v).width = s.width := rfl
@[simp] theorem State.respond_height (s : State) (st : Status) (v : Word) : (s.respond st v).height = s.height := rfl
@[simp] theorem State.respond_xStart (s : State) (st : Status) (v : Word) : (s.respond st v).xStart = s.xStart := rfl
@[simp] theorem State.respond_yStart (s : State) (st : Status) (v : Word) : (s.respond st v).yStart = s.yStart := rfl
@[simp] theorem State.respond_colStart (s : State) (st : Status) (v : Word) : (s.respond st v).colStart = s.colStart := rfl
@[simp] theorem State.respond_rowStart (s : State) (st : Status) (v : Word) : (s.respond st v).rowStart = s.rowStart := rfl
@[simp] theorem State.respond_ws (s : State) (st : Status) (v : Word) : (s.respond st v).ws = s.ws := rfl
@[simp] theorem State.respond_session (s : State) (st : Status) (v : Word) : (s.respond st v).session = s.session := rfl
@[simp] theorem State.respond_cs (s : State) (st : Status) (v : Word) : (s.respond st v).cs = s.cs := rfl
@[simp] theorem State.respond_dc (s : State) (st : Status) (v : Word) : (s.respond st v).dc = s.dc := rfl
@[simp] theorem State.respond_rst (s : State) (st : Status) (v : Word) : (s.respond st v).rst = s.rst := rfl
@[simp] theorem State.respond_seq (s : State) (st : Status) (v : Word) : (s.respond st v).seq = s.seq := rfl
@[simp] theorem State.respond_script (s : State) (st : Status) (v : Word) : (s.respond st v).script = s.script := rfl
@[simp] theorem State.respond_sp (s : State) (st : Status) (v : Word) : (s.respond st v).sp = s.sp := rfl
@[simp] theorem State.respond_ncmd (s : State) (st : Status) (v : Word) : (s.respond st v).ncmd = s.ncmd := rfl
@[simp] theorem State.respond_nargs (s : State) (st : Status) (v : Word) : (s.respond st v).nargs = s.nargs := rfl
@[simp] theorem State.respond_dflag (s : State) (st : Status) (v : Word) : (s.respond st v).dflag = s.dflag := rfl
@[simp] theorem State.respond_cmd (s : State) (st : Status) (v : Word) : (s.respond st v).cmd = s.cmd := rfl
@[simp] theorem State.respond_dmaBusy (s : State) (st : Status) (v : Word) : (s.respond st v).dmaBusy = s.dmaBusy := rfl
@[simp] theorem State.respond_dmaVal (s : State) (st : Status) (v : Word) : (s.respond st v).dmaVal = s.dmaVal := rfl
@[simp] theorem State.respond_dmaRem (s : State) (st : Status) (v : Word) : (s.respond st v).dmaRem = s.dmaRem := rfl
@[simp] theorem State.respond_pending (s : State) (st : Status) (v : Word) : (s.respond st v).pending = s.pending := rfl

@[simp] theorem State.respond_busy (s : State) (st : Status) (v : Word) : (s.respond st v).busy = false := rfl

@[simp] theorem State.respond_trace (s : State) (st : Status) (v : Word) :
    (s.respond st v).trace = s.trace ++ [.resp st v] := rfl

@[simp] theorem State.respond_levels (s : State) (st : Status) (v : Word) : (s.respond st v).levels = s.levels := rfl

theorem State.ok_eq (s : State) : s.ok = s.respond .ok 0 := rfl

theorem State.unset_eq (s : State) (op : Byte) (f : Field) : s.unset op f = s.raise .readUnset op (.field f) := rfl

/-! The levels along the trace. -/

@[simp] theorem Levels.after_sessionBegin (l : Levels) (k : Nat) (o : BitOrder) (m : BitVec 2) (n : WordSize) :
    l.after (.sessionBegin k o m n) = { l with ws := some n } := rfl
@[simp] theorem Levels.after_setWs (l : Levels) (n : WordSize) : l.after (.setWs n) = { l with ws := some n } := rfl
@[simp] theorem Levels.after_cs (l : Levels) (v : Bool) : l.after (.cs v) = { l with cs := some v } := rfl
@[simp] theorem Levels.after_dc (l : Levels) (v : Bool) : l.after (.dc v) = { l with dc := some v } := rfl
@[simp] theorem Levels.after_rst (l : Levels) (v : Bool) : l.after (.rst v) = { l with rst := some v } := rfl
@[simp] theorem Levels.after_w (l : Levels) (v : Word) : l.after (.w v) = l := rfl
@[simp] theorem Levels.after_wByte (l : Levels) (b : Byte) : l.after (wByte b) = l := rfl
@[simp] theorem Levels.after_wrep (l : Levels) (v : Word) (n : Nat) : l.after (.wrep v n) = l := rfl
@[simp] theorem Levels.after_wbuf (l : Levels) (sp : Space) (p : Nat) (vs : List Word) :
    l.after (.wbuf sp p vs) = l := rfl
@[simp] theorem Levels.after_dmaStart (l : Levels) (v : Word) (n : Nat) : l.after (.dmaStart v n) = l := rfl
@[simp] theorem Levels.after_dmaDone (l : Levels) : l.after .dmaDone = l := rfl
@[simp] theorem Levels.after_delay (l : Levels) (ms : Nat) : l.after (.delay ms) = l := rfl
@[simp] theorem Levels.after_resp (l : Levels) (st : Status) (v : Word) : l.after (.resp st v) = l := rfl

@[simp] theorem Levels.afterAll_nil (l : Levels) : l.afterAll [] = l := rfl

@[simp] theorem Levels.afterAll_cons (l : Levels) (e : Event) (es : List Event) :
    l.afterAll (e :: es) = (l.after e).afterAll es := rfl

theorem Levels.afterAll_append (l : Levels) (es fs : List Event) :
    l.afterAll (es ++ fs) = (l.afterAll es).afterAll fs := List.foldl_append

/-! The bus along the trace. -/

@[simp] theorem Bus.after_levels (b : Bus) (e : Event) : (b.after e).levels = b.levels.after e := rfl

@[simp] theorem Bus.after_cs (b : Bus) (v : Bool) : b.after (.cs v) = { levels := b.levels.after (.cs v), cmds := [] } :=
  rfl
@[simp] theorem Bus.after_sessionBegin (b : Bus) (k : Nat) (o : BitOrder) (m : BitVec 2) (n : WordSize) :
    b.after (.sessionBegin k o m n) = { b with levels := { b.levels with ws := some n } } := rfl
@[simp] theorem Bus.after_setWs (b : Bus) (n : WordSize) :
    b.after (.setWs n) = { b with levels := { b.levels with ws := some n } } := rfl
@[simp] theorem Bus.after_dc (b : Bus) (v : Bool) :
    b.after (.dc v) = { b with levels := { b.levels with dc := some v } } := rfl
@[simp] theorem Bus.after_rst (b : Bus) (v : Bool) :
    b.after (.rst v) = { b with levels := { b.levels with rst := some v } } := rfl
@[simp] theorem Bus.after_wrep (b : Bus) (v : Word) (n : Nat) : b.after (.wrep v n) = b := rfl
@[simp] theorem Bus.after_wbuf (b : Bus) (sp : Space) (p : Nat) (vs : List Word) : b.after (.wbuf sp p vs) = b := rfl
@[simp] theorem Bus.after_dmaStart (b : Bus) (v : Word) (n : Nat) : b.after (.dmaStart v n) = b := rfl
@[simp] theorem Bus.after_dmaDone (b : Bus) : b.after .dmaDone = b := rfl
@[simp] theorem Bus.after_delay (b : Bus) (ms : Nat) : b.after (.delay ms) = b := rfl
@[simp] theorem Bus.after_resp (b : Bus) (st : Status) (v : Word) : b.after (.resp st v) = b := rfl

/-- A word of the data phase is no command. -/
theorem Bus.after_w {b : Bus} (h : b.levels.dc = some true) (v : Word) : b.after (.w v) = b := by
  simp [Bus.after, Bus.cmdsAfter, h]

@[simp] theorem Bus.afterAll_nil (b : Bus) : b.afterAll [] = b := rfl

@[simp] theorem Bus.afterAll_cons (b : Bus) (e : Event) (es : List Event) :
    b.afterAll (e :: es) = (b.after e).afterAll es := rfl

theorem Bus.afterAll_append (b : Bus) (es fs : List Event) : b.afterAll (es ++ fs) = (b.afterAll es).afterAll fs :=
  List.foldl_append

@[simp] theorem Bus.afterAll_levels (b : Bus) (es : List Event) : (b.afterAll es).levels = b.levels.afterAll es := by
  induction es generalizing b with
  | nil => rfl
  | cons e es ih => simp [ih]

theorem busDiscipline_append (c : Config) (b : Bus) (es fs : List Event) :
    busDiscipline c b (es ++ fs) = (busDiscipline c b es && busDiscipline c (b.afterAll es) fs) := by
  induction es generalizing b with
  | nil => simp [busDiscipline]
  | cons e es ih => simp [busDiscipline, ih, Bool.and_assoc]

theorem responses_append (es fs : List Event) : responses (es ++ fs) = responses es + responses fs := by
  induction es with
  | nil => simp [responses]
  | cons e es ih => cases e <;> simp [responses, ih]; omega

theorem wireFrom_append (l : Levels) (es fs : List Event) :
    wireFrom l (es ++ fs) = wireFrom l es ++ wireFrom (l.afterAll es) fs := by
  induction es generalizing l with
  | nil => rfl
  | cons e es ih => simp [wireFrom, ih]

theorem totalDelay_append (es fs : List Event) : totalDelay (es ++ fs) = totalDelay es + totalDelay fs := by
  induction es with
  | nil => simp [totalDelay]
  | cons e es ih => cases e <;> simp [totalDelay, ih, Nat.add_assoc]

end Sys2Proof.Machine
end

