-- ==== Sys2Proof/Laws/Ops.lean ====
section
/-! SUPPORT. What each shared operation does: in a state where it completes, as an equation; in every state, as the
list of everything it can answer. -/

namespace Sys2Proof.Machine

/-! The init gate and the panel's size. -/

theorem requireInit_ready {op : Byte} {s : State} {k : State → Outcome} (h : s.initialized = true) :
    requireInit op s k = k s := by simp [requireInit, h]

theorem requireInit_unset {op : Byte} {s : State} {k : State → Outcome} (h : s.initialized = false) :
    requireInit op s k = .next (s.raise .notInitialized op .none) := by simp [requireInit, h]

/-- The gate of an accepted request, on a block that is not set up (60_exceptions R301, R303). -/
theorem requireInit_accept_unset {op : Byte} {s : State} {k : State → Outcome} (h : s.initialized = false) :
    requireInit op s.accept k = .next (faultedAt s .notInitialized op .none) := by
  rw [requireInit_unset (by exact h)]; rfl

theorem requireInit_cases {op : Byte} {s t : State} {k : State → Outcome} (h : requireInit op s k = .next t) :
    (s.initialized = true ∧ k s = .next t) ∨
      (s.initialized = false ∧ t = s.raise .notInitialized op .none) := by
  unfold requireInit at h
  split at h
  next hi => exact .inl ⟨hi, h⟩
  next hi => exact .inr ⟨by simpa using hi, (Host.Outcome.next.inj h).symm⟩

theorem withPanel_ready {op : Byte} {s : State} {k : Int → Int → Outcome} {W H : Word}
    (hw : s.width = some W) (hh : s.height = some H) : withPanel op s k = k W.toNat H.toNat := by
  simp [withPanel, hw, hh]

theorem withPanel_cases {op : Byte} {s t : State} {k : Int → Int → Outcome} (h : withPanel op s k = .next t) :
    (∃ W H, s.width = some W ∧ s.height = some H ∧ k W.toNat H.toNat = .next t) ∨
      ∃ f, t = s.unset op f := by
  unfold withPanel at h
  split at h
  next W H hw hh => exact .inl ⟨W, H, hw, hh, h⟩
  next => exact .inr ⟨_, (Host.Outcome.next.inj h).symm⟩
  next => exact .inr ⟨_, (Host.Outcome.next.inj h).symm⟩

/-! The window. -/

/-- What a window has sent when it reads a ⊥ offset. -/
def PartialWindow (c : Config) (es : List Event) : Prop :=
  es = [.setWs .w8] ++ command c.cmdCaset ∨
    ∃ xs x0 x1, es = [.setWs .w8] ++ rangeEvents c c.cmdCaset xs x0 x1 ++ command c.cmdRaset

theorem window_ready {op : Byte} {s : State} {x0 y0 x1 y1 : Int} {k : State → Outcome} {xs ys : Word}
    (hx : s.xStart = some xs) (hy : s.yStart = some ys) :
    window op s x0 y0 x1 y1 k = k (s.emitAll (windowEvents s.cfg xs ys x0 y0 x1 y1)) := by
  simp [window, hx, hy]

theorem window_cases {op : Byte} {s t : State} {x0 y0 x1 y1 : Int} {k : State → Outcome}
    (h : window op s x0 y0 x1 y1 k = .next t) :
    (∃ xs ys, s.xStart = some xs ∧ s.yStart = some ys ∧
      k (s.emitAll (windowEvents s.cfg xs ys x0 y0 x1 y1)) = .next t) ∨
    ∃ es f, PartialWindow s.cfg es ∧ t = (s.emitAll es).unset op f := by
  unfold window at h
  split at h
  next xs ys hx hy => exact .inl ⟨xs, ys, hx, hy, h⟩
  next => exact .inr ⟨_, _, .inl rfl, (Host.Outcome.next.inj h).symm⟩
  next xs _ _ => exact .inr ⟨_, _, .inr ⟨xs, x0, x1, rfl⟩, (Host.Outcome.next.inj h).symm⟩

@[simp] theorem Levels.afterAll_coord (l : Levels) (f : CoordFormat) (v : Word) : l.afterAll (coord f v) = l := by
  cases f <;> rfl

/-- A command leaves the data phase open. -/
@[simp] theorem Levels.afterAll_command (l : Levels) (b : Byte) :
    l.afterAll (command b) = { l with dc := some true } := rfl

@[simp] theorem Levels.afterAll_rangeEvents (l : Levels) (c : Config) (b : Byte) (o : Word) (v0 v1 : Int) :
    l.afterAll (rangeEvents c b o v0 v1) = { l with dc := some true } := by
  simp [rangeEvents, Levels.afterAll_append]

/-- A window ends in data mode at word size 8 (41_addressing R180). -/
@[simp] theorem Levels.afterAll_windowEvents (l : Levels) (c : Config) (xs ys : Word) (x0 y0 x1 y1 : Int) :
    l.afterAll (windowEvents c xs ys x0 y0 x1 y1) = { l with ws := some .w8, dc := some true } := by
  simp [windowEvents, Levels.afterAll_append]

theorem Levels.afterAll_partialWindow {c : Config} {es : List Event} (h : PartialWindow c es) (l : Levels) :
    l.afterAll es = { l with ws := some .w8, dc := some true } := by
  rcases h with rfl | ⟨xs, x0, x1, rfl⟩ <;> simp [Levels.afterAll_append]

/-! Pixels: events that drive no line and set no word size. -/

/-- Events that leave every level as it was. -/
def Neutral (es : List Event) : Prop := ∀ l : Levels, l.afterAll es = l

theorem Neutral.append {es fs : List Event} (h : Neutral es) (h' : Neutral fs) : Neutral (es ++ fs) := fun l => by
  rw [Levels.afterAll_append, h, h']

theorem neutral_nil : Neutral [] := fun _ => rfl

theorem neutral_wreps (c : Word) (ks : List Nat) : Neutral (ks.map (Event.wrep c)) := fun l => by
  induction ks with
  | nil => rfl
  | cons k ks ih => simpa using ih

theorem neutral_wBytes (bs : List Byte) : Neutral (bs.map wByte) := fun l => by
  induction bs with
  | nil => rfl
  | cons b bs ih => simpa using ih

theorem neutral_w (c : Word) : Neutral [.w c] := fun _ => rfl

theorem neutral_wbuf (sp : Space) (p : Nat) (ws : List Word) : Neutral [.wbuf sp p ws] := fun _ => rfl

theorem neutral_dmas (c : Word) (ks : List Nat) : Neutral (ks.flatMap fun k => [.dmaStart c k, .dmaDone]) := fun l => by
  induction ks with
  | nil => rfl
  | cons k ks ih => simpa using ih

/-! A drawn request. -/

/-- The state in which a drawn request's pixels go out: accepted, the bracket open, the window sent, word size 16. -/
def openWindow (s : State) (xs ys : Word) (x0 y0 x1 y1 : Int) : State :=
  ((s.accept.emit (.cs false)).emitAll (windowEvents s.cfg xs ys x0 y0 x1 y1)).emit (.setWs .w16)

theorem openWindow_eq (s : State) (xs ys : Word) (x0 y0 x1 y1 : Int) :
    openWindow s xs ys x0 y0 x1 y1 = { s with
      busy := true, ws := some .w16, cs := some false, dc := some true
      trace := s.trace ++ ([.cs false] ++ windowEvents s.cfg xs ys x0 y0 x1 y1 ++ [.setWs .w16]) } := by
  have h : openWindow s xs ys x0 y0 x1 y1 =
      s.accept.emitAll ([.cs false] ++ windowEvents s.cfg xs ys x0 y0 x1 y1 ++ [.setWs .w16]) := by
    rw [State.emitAll_append, State.emitAll_append]; rfl
  rw [h, State.emitAll_eq]
  simp [Levels.afterAll_append, State.accept, State.levels]

/-- The end of a drawn request whose pixels drive no line. -/
theorem closeStream_openWindow (s : State) (xs ys : Word) (x0 y0 x1 y1 : Int) {px : List Event} (h : Neutral px) :
    closeStream ((openWindow s xs ys x0 y0 x1 y1).emitAll px) =
      drawn s (drawTrace s.cfg xs ys x0 y0 x1 y1 px) := by
  rw [openWindow_eq, State.emitAll_eq, h]
  simp [closeStream, State.ok, State.respond, State.emit, State.levels, drawn, drawTrace]

/-! Streams. -/

theorem streamRep_words {s : State} {c : Word} {n : Nat} (h : usesDma s.cfg n = false) :
    streamRep s c n = closeStream (s.emitAll ((chunks s.cfg n).map (Event.wrep c))) := by simp [streamRep, h]

theorem streamRep_dma {s : State} {c : Word} {n : Nat} (h : usesDma s.cfg n = true) :
    streamRep s c n = dmaChunk s c n := by simp [streamRep, h]

theorem streamBuf_read {s : State} {sp : Space} {p n : Nat} {ws : List Word} (h : s.readWords sp p n = some ws) :
    streamBuf s sp p n = closeStream (s.emit (.wbuf sp p ws)) := by simp [streamBuf, h]

theorem streamBuf_stuck {s : State} {sp : Space} {p n : Nat} (h : s.readWords sp p n = none) :
    streamBuf s sp p n = { s with pending := .buf sp p n } := by simp [streamBuf, h]

/-- Memory reads depend on the configuration and the memories alone. -/
theorem State.memRead_congr {s t : State} (hc : t.cfg = s.cfg) (hr : t.ram = s.ram) (ho : t.rostore = s.rostore)
    (sp : Space) (a : Nat) : t.memRead sp a = s.memRead sp a := by
  cases sp <;> simp [State.memRead, State.space, hc, hr, ho]

theorem State.readWords_congr {s t : State} (hc : t.cfg = s.cfg) (hr : t.ram = s.ram) (ho : t.rostore = s.rostore)
    (sp : Space) (p n : Nat) : t.readWords sp p n = s.readWords sp p n := by
  induction n generalizing p with
  | zero => rfl
  | succ n ih => simp only [State.readWords, State.memRead16, State.memRead_congr hc hr ho, hc, ih]

/-! Toggles. -/

theorem toggle_ready {op cmd : Byte} {settle : Option Nat} {s : State} (h : s.initialized = true) :
    toggle op cmd settle s = .next (s.accept.emitAll (toggleEvents cmd settle)).ok := by
  simp [toggle, requireInit, h]

/-- A toggle's whole effect on a block that is set up (43_modes_and_helpers R259). -/
theorem toggle_eq {op cmd : Byte} {settle : Option Nat} {s : State} (h : s.initialized = true) :
    toggle op cmd settle s = .next (toggled s cmd settle) := by
  rw [toggle_ready h, State.emitAll_eq]
  cases settle <;>
    simp [toggled, State.ok, State.respond, State.emit, State.levels, State.accept, toggleEvents, settleEvents, wByte]

theorem toggle_cases {op cmd : Byte} {settle : Option Nat} {s t : State} (h : toggle op cmd settle s = .next t) :
    t = (s.accept.emitAll (toggleEvents cmd settle)).ok ∨ t = s.accept.raise .notInitialized op .none := by
  rcases requireInit_cases h with ⟨_, h⟩ | ⟨_, h⟩
  · exact .inl (Host.Outcome.next.inj h).symm
  · exact .inr h

@[simp] theorem Levels.afterAll_settleEvents (l : Levels) (o : Option Nat) : l.afterAll (settleEvents o) = l := by
  cases o <;> rfl

@[simp] theorem Levels.afterAll_toggleEvents (l : Levels) (b : Byte) (o : Option Nat) :
    l.afterAll (toggleEvents b o) = { l with ws := some .w16, cs := some true, dc := some false } := by
  simp [toggleEvents]

/-! Records and the rotation. -/

@[simp] theorem Levels.afterAll_recordEvents (l : Levels) (b : Byte) (args : List Byte) (o : Option Nat) :
    l.afterAll (recordEvents b args o) = { l with cs := some true, dc := some true } := by
  cases o <;> simp [recordEvents, Levels.afterAll_append, neutral_wBytes args _]

@[simp] theorem Levels.afterAll_rotateEvents (l : Levels) (c : Config) (r : BitVec 2) :
    l.afterAll (rotateEvents c r) = { l with ws := some .w16, cs := some true, dc := some true } := by
  simp [rotateEvents, Levels.afterAll_append]

/-! Script bytes. -/

theorem rd_byte {s : State} {k : Byte → State → Outcome} {p : Nat} {v : Byte} (hp : s.sp = some p)
    (hv : s.cfg.scriptRom[p]? = some v) : rd s k = k v { s with sp := some (p + 1) } := by simp [rd, hp, hv]

theorem rd_overrun {s : State} {k : Byte → State → Outcome} {p : Nat} (hp : s.sp = some p)
    (hv : s.cfg.scriptRom.length ≤ p) : rd s k = .next (s.raise .scriptOverrun s.scriptOp (.pointer p)) := by
  simp [rd, hp, hv]

theorem rd_cases {s t : State} {k : Byte → State → Outcome} (h : rd s k = .next t) :
    (∃ p v, s.sp = some p ∧ s.cfg.scriptRom[p]? = some v ∧ k v { s with sp := some (p + 1) } = .next t) ∨
      ∃ r i, t = s.raise r s.scriptOp i := by
  unfold rd at h
  split at h
  next => exact .inr ⟨_, _, (Host.Outcome.next.inj h).symm⟩
  next p hp =>
    split at h
    next => exact .inr ⟨_, _, (Host.Outcome.next.inj h).symm⟩
    next v hv => exact .inl ⟨p, v, hp, hv, h⟩

end Sys2Proof.Machine
end

