-- ==== Sys2Proof/Laws/Draw.lean ====
section
/-! SUPPORT. What the bodies of the drawing requests and of the rotation answer on a block that is set up. -/

namespace Sys2Proof.Machine

/-- A no-op's whole effect (00_scope R14): the response. -/
theorem State.accept_ok (s : State) : s.accept.ok = { s with busy := false, trace := s.trace ++ [.resp .ok 0] } := by
  simp [State.accept, State.ok, State.respond, State.emit]

theorem clipOrigin_eq (n : NegOrigin) (pos len : Int) :
    clipOrigin n pos len =
      (if n == .clip && decide (pos < 0) then 0 else pos, if n == .clip && decide (pos < 0) then len + pos else len) := by
  cases n
  · rfl
  · by_cases h : pos < 0 <;> simp [clipOrigin, h]

/-- The rotation's body and its response (41_addressing R184). -/
theorem rotateBody_ok (s : State) (r : BitVec 2) :
    (rotateBody s.accept r).ok = { drawn s (rotateEvents s.cfg r ++ [.resp .ok 0]) with
      rotation := some r
      width := some (geom s.cfg r).1
      height := some (geom s.cfg r).2
      xStart := some (offs s.cfg.xyStartSwap s.colStart s.rowStart r).1
      yStart := some (offs s.cfg.xyStartSwap s.colStart s.rowStart r).2 } := by
  simp only [rotateBody, State.emitAll_eq]
  simp [State.ok, State.respond, State.emit, State.levels, drawn, State.accept]

/-- The rotation's body (41_addressing R184). -/
theorem rotateBody_eq (s : State) (r : BitVec 2) :
    rotateBody s r = { s with
      ws := some .w16, cs := some true, dc := some true, trace := s.trace ++ rotateEvents s.cfg r
      rotation := some r, width := some (geom s.cfg r).1, height := some (geom s.cfg r).2
      xStart := some (offs s.cfg.xyStartSwap s.colStart s.rowStart r).1
      yStart := some (offs s.cfg.xyStartSwap s.colStart s.rowStart r).2 } := by
  simp only [rotateBody, State.emitAll_eq]
  simp [State.levels]

theorem closeStream_eq (s : State) :
    closeStream s = { s with busy := false, cs := some true, trace := s.trace ++ [.cs true, .resp .ok 0] } := by
  simp [closeStream, State.ok, State.respond, State.emit]

theorem dmaChunk_eq (s : State) (c : Word) (n : Nat) :
    dmaChunk s c n = { s with
      trace := s.trace ++ [.dmaStart c (min n s.cfg.maxChunk)]
      dmaVal := some c, dmaRem := min n s.cfg.maxChunk, dmaBusy := true
      pending := .rep c (n - min n s.cfg.maxChunk) } := by
  simp [dmaChunk, State.emit]

theorem dmaAgent_eq (s : State) :
    dmaAgent s = { s with trace := s.trace ++ [.dmaDone], dmaRem := 0, dmaBusy := false } := by
  simp [dmaAgent, State.emit]

theorem pixelBody_ready (op : Byte) {s : State} {xs ys : Word} (x y : Int) (c : Word) (hx : s.xStart = some xs)
    (hy : s.yStart = some ys) :
    pixelBody op s.accept x y c = .next (drawn s (drawTrace s.cfg xs ys x y x y [.w c])) := by
  rw [pixelBody, window_ready (xs := xs) (ys := ys) (by simpa using hx) (by simpa using hy),
    ← closeStream_openWindow _ _ _ _ _ _ _ (neutral_w c)]
  rfl

theorem fillBody_ready (op : Byte) {s : State} {xs ys : Word} (x0 y0 x1 y1 : Int) (c : Word) (n : Nat)
    (hx : s.xStart = some xs) (hy : s.yStart = some ys) :
    fillBody op s.accept x0 y0 x1 y1 c n = .next (streamRep (openWindow s xs ys x0 y0 x1 y1) c n) := by
  rw [fillBody, window_ready (xs := xs) (ys := ys) (by simpa using hx) (by simpa using hy)]
  rfl

/-- A stream that takes the one-word path (42_transfer R211) ends in the same step. -/
theorem fillBody_words (op : Byte) {s : State} {xs ys : Word} (x0 y0 x1 y1 : Int) (c : Word) (n : Nat)
    (hx : s.xStart = some xs) (hy : s.yStart = some ys) (h : usesDma s.cfg n = false) :
    fillBody op s.accept x0 y0 x1 y1 c n =
      .next (drawn s (drawTrace s.cfg xs ys x0 y0 x1 y1 ((chunks s.cfg n).map (Event.wrep c)))) := by
  rw [fillBody_ready op _ _ _ _ c n hx hy, streamRep_words (by rw [openWindow_eq]; exact h),
    ← closeStream_openWindow _ _ _ _ _ _ _ (neutral_wreps c _), openWindow_eq]

theorem imageBody_ready (op : Byte) {s : State} {xs ys : Word} (sp : Space) (x y w h : Int) (p : Nat)
    (hx : s.xStart = some xs) (hy : s.yStart = some ys) :
    imageBody op s.accept sp x y w h p =
      .next (streamBuf (openWindow s xs ys x y (x + w - 1) (y + h - 1)) sp p (w * h).toNat) := by
  rw [imageBody, window_ready (xs := xs) (ys := ys) (by simpa using hx) (by simpa using hy)]
  rfl

/-- An image whose buffer the launch memory holds ends in the same step (42_transfer R213, R218). -/
theorem imageBody_read (op : Byte) {s : State} {xs ys : Word} (sp : Space) (x y w h : Int) (p : Nat)
    {words : List Word} (hx : s.xStart = some xs) (hy : s.yStart = some ys)
    (hr : s.readWords sp p (w * h).toNat = some words) :
    imageBody op s.accept sp x y w h p =
      .next (drawn s (drawTrace s.cfg xs ys x y (x + w - 1) (y + h - 1) [.wbuf sp p words])) := by
  rw [imageBody_ready op sp _ _ _ _ p hx hy, streamBuf_read (ws := words),
    ← closeStream_openWindow _ _ _ _ _ _ _ (neutral_wbuf sp p words)]
  · rfl
  · rw [← hr]; apply State.readWords_congr <;> simp [openWindow_eq]

/-- An image whose buffer the launch memory does not hold stops before its WBUF (20_memory R85). -/
theorem imageBody_stuck (op : Byte) {s : State} {xs ys : Word} (sp : Space) (x y w h : Int) (p : Nat)
    (hx : s.xStart = some xs) (hy : s.yStart = some ys) (hr : s.readWords sp p (w * h).toNat = none) :
    imageBody op s.accept sp x y w h p =
      .next { openWindow s xs ys x y (x + w - 1) (y + h - 1) with pending := .buf sp p (w * h).toNat } := by
  rw [imageBody_ready op sp _ _ _ _ p hx hy, streamBuf_stuck]
  rw [← hr]; apply State.readWords_congr <;> simp [openWindow_eq]

end Sys2Proof.Machine
end

