-- ==== Sys2Proof/Laws/Encoding.lean ====
section
/-! SUPPORT. The laws of the encodings: a request's fields, the count byte, and a record's bytes. -/

namespace Sys2Proof

/-- R100's fields of a request word packed from them. -/
@[simp] theorem Fields.ofRequest_toRequest (f : Fields) : Fields.ofRequest f.toRequest = f := by
  obtain ⟨op, m, a, b, c, d, color, ptr⟩ := f
  simp only [Fields.ofRequest, Fields.toRequest, Fields.mk.injEq]
  refine ⟨?_, ?_, ?_, ?_, ?_, ?_, ?_, ?_⟩ <;>
    simp (disch := decide) only [BitVec.extractLsb'_append_eq_of_le, BitVec.extractLsb'_append_eq_right, Nat.sub_self,
      BitVec.extractLsb'_eq_self, Nat.reduceSub]

/-- A request decodes by the fields it was packed from. -/
@[simp] theorem decodeRequest_toRequest (f : Fields) : decodeRequest f.toRequest = decodeFields f := by
  rw [decodeRequest, Fields.ofRequest_toRequest]

@[simp] theorem boolOf_boolByte (on : Bool) : boolOf (boolByte on) = on := by cases on <;> decide

@[simp] theorem lowByte_setWidth (b : Byte) : lowByte (b.setWidth 16) = b := by
  rw [lowByte, BitVec.setWidth_setWidth_of_le b (by decide), BitVec.setWidth_eq]

@[simp] theorem delayFlag_cntByte (f : Bool) (n : Nat) : delayFlag (cntByte f n) = f := by
  rw [delayFlag, cntByte]
  exact (BitVec.getLsbD_append ..).trans (by cases f <;> rfl)

theorem argCount_cntByte (f : Bool) {n : Nat} (h : n ≤ 127) : (argCount (cntByte f n)).toNat = n := by
  have : argCount (cntByte f n) = BitVec.ofNat 7 n := by
    rw [argCount, cntByte, BitVec.setWidth_eq_extractLsb' (by decide), BitVec.extractLsb'_append_eq_right]
  rw [this, BitVec.toNat_ofNat]; omega

/-- A plain record's bytes decode to it, and leave what follows them. -/
theorem decodeRecord_record (cmd : Byte) (args rest : List Byte) (h : args.length ≤ 127) :
    decodeRecord ((Instr.record cmd args).recordBytes ++ rest) = .ok (.record cmd args, rest) := by
  simp [decodeRecord, Instr.recordBytes, argCount_cntByte _ h]

/-- A delayed record's bytes decode to it, and leave what follows them. -/
theorem decodeRecord_recordDelay (cmd : Byte) (args : List Byte) (dly : Byte) (rest : List Byte)
    (h : args.length ≤ 127) :
    decodeRecord ((Instr.recordDelay cmd args dly).recordBytes ++ rest) = .ok (.recordDelay cmd args dly, rest) := by
  simp [decodeRecord, Instr.recordBytes, argCount_cntByte _ h]

/-- Everything decoding a record can answer: a plain or a delayed record whose bytes head the list. -/
theorem decodeRecord_cases {bytes rest : List Byte} {i : Instr} (h : decodeRecord bytes = .ok (i, rest)) :
    (∃ cmd cnt args, i = .record cmd args ∧ delayFlag cnt = false ∧ args.length = (argCount cnt).toNat ∧
      bytes = cmd :: cnt :: (args ++ rest)) ∨
    (∃ cmd cnt args dly, i = .recordDelay cmd args dly ∧ delayFlag cnt = true ∧
      args.length = (argCount cnt).toNat ∧ bytes = cmd :: cnt :: (args ++ dly :: rest)) := by
  match bytes, h with
  | cmd :: cnt :: more, h =>
    simp only [decodeRecord] at h
    split at h
    · cases h
    next hl =>
      split at h
      next hf =>
        split at h
        next dly tl hd =>
          cases h
          refine .inr ⟨cmd, cnt, _, dly, rfl, hf, by simp; omega, ?_⟩
          rw [← hd, List.take_append_drop]
        next => cases h
      next hf =>
        cases h
        exact .inl ⟨cmd, cnt, _, rfl, by simpa using hf, by simp; omega, by rw [List.take_append_drop]⟩

end Sys2Proof
end

