-- ==== Sys2Proof/Laws/Wire.lean ====
section
/-! SUPPORT. The bytes of words and the wire pairs of byte events. -/

namespace Sys2Proof.Machine

@[simp] theorem loByte_setWidth (b : Byte) : loByte (b.setWidth 16) = b := by
  ext i hi; simp [loByte, hi]; omega

/-- A word is its two bytes (10_state R54). -/
@[simp] theorem hiByte_append_loByte (v : Word) : hiByte v ++ loByte v = v := by
  apply BitVec.eq_of_toNat_eq
  rw [BitVec.toNat_append, ← Nat.shiftLeft_add_eq_or_of_lt (loByte v).isLt, Nat.shiftLeft_eq]
  simp [hiByte, loByte, BitVec.extractLsb'_toNat, Nat.shiftRight_eq_div_pow]
  omega

theorem hiByte_u16 (v : Int) : hiByte (u16 v) = BitVec.ofInt 8 (v / 256) := by
  apply BitVec.eq_of_toNat_eq
  simp [hiByte, u16, BitVec.extractLsb'_toNat, Nat.shiftRight_eq_div_pow]
  omega

theorem loByte_u16 (v : Int) : loByte (u16 v) = BitVec.ofInt 8 v := by
  apply BitVec.eq_of_toNat_eq
  simp [loByte, u16, BitVec.extractLsb'_toNat]
  omega

/-- A byte written at word size 8 is one pair (10_state R53). -/
theorem eventPairs_wByte {l : Levels} (h : l.ws = some .w8) (b : Byte) : eventPairs l (wByte b) = [(l.dc, b)] := by
  simp [eventPairs, wByte, writePairs, h]

theorem wireFrom_wBytes {l : Levels} (h : l.ws = some .w8) (bs : List Byte) :
    wireFrom l (bs.map wByte) = bs.map fun b => (l.dc, b) := by
  induction bs with
  | nil => rfl
  | cons b bs ih => simp [wireFrom, eventPairs_wByte h, ih]

theorem totalDelay_wBytes (bs : List Byte) : totalDelay (bs.map wByte) = 0 := by
  induction bs with
  | nil => rfl
  | cons b bs ih => simp [wByte, totalDelay, ih]

/-- Bytes of the data phase leave the bus as it was. -/
theorem Bus.afterAll_wBytes {b : Bus} (h : b.levels.dc = some true) (bs : List Byte) : b.afterAll (bs.map wByte) = b := by
  induction bs with
  | nil => rfl
  | cons v bs ih => simp only [List.map_cons, Bus.afterAll_cons]; rw [wByte, Bus.after_w h, ih]

/-- Argument bytes in an open bracket at word size 8 are allowed, where no whole window precedes them. -/
theorem busDiscipline_wBytes {c : Config} {b : Bus} (hc : b.levels.cs = some false) (hw : b.levels.ws = some .w8)
    (hd : b.levels.dc = some true) (hn : b.cmds ≠ windowCommands c) (bs : List Byte) :
    busDiscipline c b (bs.map wByte) = true := by
  induction bs with
  | nil => rfl
  | cons v bs ih =>
    simp only [List.map_cons, busDiscipline]
    rw [wByte, Bus.after_w hd, ih]
    simp [eventAllowed, Bus.bytesAllowed, Bus.windowSent, hc, hw, hd, hn]

/-- Fewer than three commands are no whole window. -/
theorem ne_windowCommands {c : Config} {l : List Byte} (h : l.length ≠ 3) : l ≠ windowCommands c := fun e =>
  h (by simp [e, windowCommands])

end Sys2Proof.Machine
end

