-- ==== Sys2Proof/Laws/Exec.lean ====
section
/-! SUPPORT. Everything an instruction can answer: one lemma for each family, over one list of answers. -/

namespace Sys2Proof.Machine

/-- Whether an event is neither a response nor on the reset line. -/
@[simp] def quietEvent : Event → Bool
  | .resp _ _ => false
  | .rst _ => false
  | .sessionBegin _ _ _ _ => true
  | .setWs _ => true
  | .cs _ => true
  | .dc _ => true
  | .w _ => true
  | .wrep _ _ => true
  | .wbuf _ _ _ => true
  | .dmaStart _ _ => true
  | .dmaDone => true
  | .delay _ => true

/-- Events with no response and no reset-line event among them. -/
def Quiet (es : List Event) : Prop := ∀ e ∈ es, quietEvent e = true

theorem Quiet.not_resp {es : List Event} (h : Quiet es) (st : Status) (v : Word) : Event.resp st v ∉ es := fun he => by
  simpa using h _ he

theorem Quiet.not_rst {es : List Event} (h : Quiet es) (v : Bool) : Event.rst v ∉ es := fun he => by simpa using h _ he

theorem quiet_nil : Quiet [] := fun _ h => absurd h List.not_mem_nil

theorem Quiet.append {es fs : List Event} (h : Quiet es) (h' : Quiet fs) : Quiet (es ++ fs) := fun e he =>
  (List.mem_append.1 he).elim (h e) (h' e)

theorem Quiet.cons {e : Event} {es : List Event} (h : quietEvent e = true) (h' : Quiet es) : Quiet (e :: es) :=
  fun f hf => (List.mem_cons.1 hf).elim (fun he => he ▸ h) (h' f)

theorem Quiet.responses {es : List Event} (h : Quiet es) : responses es = 0 := by
  induction es with
  | nil => rfl
  | cons e es ih =>
    have h' := ih fun f hf => h f (List.mem_cons_of_mem _ hf)
    cases e with
    | resp st v => exact absurd List.mem_cons_self (h.not_resp st v)
    | _ => simpa [Machine.responses] using h'

/-- Quiet events leave the reset line as it was. -/
theorem Quiet.rst {es : List Event} (h : Quiet es) (l : Levels) : (l.afterAll es).rst = l.rst := by
  induction es generalizing l with
  | nil => rfl
  | cons e es ih =>
    have h' := fun k => ih (fun f hf => h f (List.mem_cons_of_mem _ hf)) k
    cases e with
    | rst v => exact absurd List.mem_cons_self (h.not_rst v)
    | _ => simpa using h' _

theorem quiet_wBytes (bs : List Byte) : Quiet (bs.map wByte) := by
  intro e he
  obtain ⟨b, -, rfl⟩ := List.mem_map.1 he
  simp [wByte]

theorem quiet_command (b : Byte) : Quiet (command b) := by
  intro e he
  simp [command, wByte] at he
  rcases he with rfl | rfl | rfl <;> simp

theorem quiet_coord (f : CoordFormat) (v : Word) : Quiet (coord f v) := by
  intro e he
  cases f <;> simp [coord, wByte] at he <;> rcases he with rfl | rfl <;> simp

theorem quiet_rangeEvents (c : Config) (b : Byte) (o : Word) (v0 v1 : Int) : Quiet (rangeEvents c b o v0 v1) :=
  ((quiet_command b).append (quiet_coord _ _)).append (quiet_coord _ _)

theorem quiet_windowEvents (c : Config) (xs ys : Word) (x0 y0 x1 y1 : Int) :
    Quiet (windowEvents c xs ys x0 y0 x1 y1) :=
  (((Quiet.cons (by simp) quiet_nil).append (quiet_rangeEvents _ _ _ _ _)).append (quiet_rangeEvents _ _ _ _ _)).append
    (quiet_command _)

theorem quiet_partialWindow {c : Config} {es : List Event} (h : PartialWindow c es) : Quiet es := by
  rcases h with rfl | ⟨xs, x0, x1, rfl⟩
  · exact (Quiet.cons (by simp) quiet_nil).append (quiet_command _)
  · exact ((Quiet.cons (by simp) quiet_nil).append (quiet_rangeEvents _ _ _ _ _)).append (quiet_command _)

theorem quiet_recordEvents (b : Byte) (args : List Byte) (o : Option Nat) : Quiet (recordEvents b args o) := by
  unfold recordEvents
  refine ((((Quiet.cons (by simp) quiet_nil).append (quiet_command b)).append (quiet_wBytes args)).append
    (Quiet.cons (by simp) quiet_nil)).append ?_
  cases o
  · exact quiet_nil
  · exact Quiet.cons (by simp) quiet_nil

theorem quiet_rotateEvents (c : Config) (r : BitVec 2) : Quiet (rotateEvents c r) := by
  unfold rotateEvents
  refine ((Quiet.cons (by simp) (Quiet.cons (by simp) quiet_nil)).append (quiet_command _)).append ?_
  exact Quiet.cons (by simp [wByte]) (Quiet.cons (by simp) (Quiet.cons (by simp) quiet_nil))

theorem quiet_toggleEvents (b : Byte) (o : Option Nat) : Quiet (toggleEvents b o) := by
  unfold toggleEvents
  refine Quiet.append (fun e he => ?_) ?_
  · simp [wByte] at he
    rcases he with rfl | rfl | rfl | rfl | rfl | rfl <;> simp
  · cases o
    · exact quiet_nil
    · exact Quiet.cons (by simp) quiet_nil

/-! The bus discipline of the pieces. -/

/-- A command is one more of its bracket's commands, and opens the data phase. -/
@[simp] theorem Bus.afterAll_command (b : Bus) (v : Byte) :
    b.afterAll (command v) = { levels := { b.levels with dc := some true }, cmds := b.cmds ++ [v] } := by
  simp [command, wByte, Bus.after, Bus.cmdsAfter, loByte_setWidth]

theorem Bus.afterAll_coord {b : Bus} (h : b.levels.dc = some true) (f : CoordFormat) (v : Word) :
    b.afterAll (coord f v) = b := by
  cases f <;> simp [coord, wByte, Bus.after_w h]

@[simp] theorem Bus.afterAll_rangeEvents (b : Bus) (c : Config) (v : Byte) (o : Word) (v0 v1 : Int) :
    b.afterAll (rangeEvents c v o v0 v1) = { levels := { b.levels with dc := some true }, cmds := b.cmds ++ [v] } := by
  have h := Bus.afterAll_coord (b := { levels := { b.levels with dc := some true }, cmds := b.cmds ++ [v] }) rfl
  rw [rangeEvents, Bus.afterAll_append, Bus.afterAll_append, Bus.afterAll_command, h, h]

/-- A window that opens its bracket has sent a whole window's commands. -/
theorem Bus.afterAll_windowEvents {b : Bus} (h : b.cmds = []) (c : Config) (xs ys : Word) (x0 y0 x1 y1 : Int) :
    b.afterAll (windowEvents c xs ys x0 y0 x1 y1) =
      { levels := { b.levels with ws := some .w8, dc := some true }, cmds := windowCommands c } := by
  simp [windowEvents, Bus.afterAll_append, h, windowCommands]

theorem busDiscipline_coord {c : Config} {b : Bus} (hc : b.levels.cs = some false) (hw : b.levels.ws = some .w8)
    (hd : b.levels.dc = some true) (hn : b.cmds ≠ windowCommands c) (f : CoordFormat) (v : Word) :
    busDiscipline c b (coord f v) = true := by
  cases f
  · exact busDiscipline_wBytes hc hw hd hn [hiByte v, loByte v]
  · exact busDiscipline_wBytes hc hw hd hn [0, loByte v]

theorem busDiscipline_command {c : Config} {b : Bus} (hc : b.levels.cs = some false) (hw : b.levels.ws = some .w8)
    (v : Byte) : busDiscipline c b (command v) = true := by
  simp [command, busDiscipline, wByte, eventAllowed, Bus.bytesAllowed, hc, hw]

theorem busDiscipline_rangeEvents {d : Config} {b : Bus} (hc : b.levels.cs = some false) (hw : b.levels.ws = some .w8)
    (hn : b.cmds.length ≠ 2) (c : Config) (v : Byte) (o : Word) (v0 v1 : Int) :
    busDiscipline d b (rangeEvents c v o v0 v1) = true := by
  have hn' : b.cmds ++ [v] ≠ windowCommands d := ne_windowCommands (by simpa using hn)
  rw [rangeEvents, busDiscipline_append, busDiscipline_append, Bus.afterAll_append, Bus.afterAll_command,
    busDiscipline_command hc hw, Bus.afterAll_coord rfl, busDiscipline_coord (by exact hc) (by exact hw) rfl hn',
    busDiscipline_coord (by exact hc) (by exact hw) rfl hn']
  rfl

theorem busDiscipline_windowEvents {b : Bus} (hc : b.levels.cs = some false) (hn : b.cmds = []) (c : Config)
    (xs ys : Word) (x0 y0 x1 y1 : Int) : busDiscipline c b (windowEvents c xs ys x0 y0 x1 y1) = true := by
  simp only [windowEvents, busDiscipline_append, Bus.afterAll_append, Bus.afterAll_rangeEvents, Bus.afterAll_cons,
    Bus.afterAll_nil, Bus.after_setWs]
  rw [busDiscipline_rangeEvents (by exact hc) rfl (by simp [hn]),
    busDiscipline_rangeEvents (by exact hc) rfl (by simp [hn]), busDiscipline_command (by exact hc) rfl]
  simp [busDiscipline, eventAllowed]

theorem busDiscipline_partialWindow {b : Bus} (hc : b.levels.cs = some false) (hn : b.cmds = []) {c : Config}
    {es : List Event} (h : PartialWindow c es) : busDiscipline c b es = true := by
  rcases h with rfl | ⟨xs, x0, x1, rfl⟩
  · simp only [busDiscipline_append, Bus.afterAll_cons, Bus.afterAll_nil, Bus.after_setWs]
    rw [busDiscipline_command (by exact hc) rfl]
    simp [busDiscipline, eventAllowed]
  · simp only [busDiscipline_append, Bus.afterAll_append, Bus.afterAll_rangeEvents, Bus.afterAll_cons, Bus.afterAll_nil,
      Bus.after_setWs]
    rw [busDiscipline_rangeEvents (by exact hc) rfl (by simp [hn]), busDiscipline_command (by exact hc) rfl]
    simp [busDiscipline, eventAllowed]

theorem busDiscipline_toggleEvents (c : Config) (b : Bus) (v : Byte) (o : Option Nat) :
    busDiscipline c b (toggleEvents v o) = true := by
  cases o <;> simp [toggleEvents, settleEvents, busDiscipline, wByte, eventAllowed, Bus.bytesAllowed]

theorem busDiscipline_rotateEvents (d : Config) (b : Bus) (c : Config) (r : BitVec 2) :
    busDiscipline d b (rotateEvents c r) = true := by
  have h := busDiscipline_wBytes (c := d)
    (b := { levels := { b.levels with cs := some false, ws := some .w8, dc := some true }, cmds := [c.cmdMadctl] }) rfl rfl
    rfl (ne_windowCommands (by simp)) [madctl c r]
  simp only [rotateEvents, busDiscipline_append, Bus.afterAll_append, Bus.afterAll_command, Bus.afterAll_cons,
    Bus.afterAll_nil, Bus.after_cs, Bus.after_setWs]
  rw [busDiscipline_command rfl rfl]
  simpa [busDiscipline, eventAllowed, Bus.windowSent] using h

theorem busDiscipline_recordEvents {c : Config} {b : Bus} (hw : b.levels.ws = some .w8) (v : Byte) (args : List Byte)
    (o : Option Nat) : busDiscipline c b (recordEvents v args o) = true := by
  simp only [recordEvents, busDiscipline_append, Bus.afterAll_append, Bus.afterAll_command, Bus.afterAll_cons,
    Bus.afterAll_nil, Bus.after_cs]
  rw [busDiscipline_command rfl (by exact hw), Bus.afterAll_wBytes rfl,
    busDiscipline_wBytes rfl (by exact hw) rfl (ne_windowCommands (by simp))]
  cases o <;> simp [busDiscipline, eventAllowed]

/-! Pixels. -/

/-- Events that stand between a window and the end of its bracket: they drive no line, they are no response, and they
are allowed as pixels after a whole window. -/
structure Pixels (c : Config) (es : List Event) : Prop where
  neutral : Neutral es
  quiet   : Quiet es
  allowed : ∀ b : Bus, b.pixelsAllowed c = true → busDiscipline c b es = true

theorem pixels_nil (c : Config) : Pixels c [] := ⟨neutral_nil, quiet_nil, fun _ _ => rfl⟩

theorem pixels_w (c : Config) (v : Word) : Pixels c [.w v] :=
  ⟨neutral_w v, Quiet.cons (by simp) quiet_nil, fun b h => by simp [busDiscipline, eventAllowed, h]⟩

theorem pixels_wbuf (c : Config) (sp : Space) (p : Nat) (ws : List Word) : Pixels c [.wbuf sp p ws] :=
  ⟨neutral_wbuf sp p ws, Quiet.cons (by simp) quiet_nil, fun b h => by simp [busDiscipline, eventAllowed, h]⟩

theorem pixels_wreps (c : Config) (v : Word) {ks : List Nat} (hk : ∀ k ∈ ks, 1 ≤ k) :
    Pixels c (ks.map (Event.wrep v)) := by
  refine ⟨neutral_wreps v ks, fun e he => ?_, fun b h => ?_⟩
  · obtain ⟨k, -, rfl⟩ := List.mem_map.1 he; simp
  · induction ks with
    | nil => rfl
    | cons k ks ih =>
      have h1 := hk k (by simp)
      simp only [List.map_cons, busDiscipline, Bus.after_wrep, ih fun j hj => hk j (by simp [hj])]
      simp [eventAllowed, h, h1]

theorem chunksFuel_pos {limit : Nat} (hl : 0 < limit) (fuel n : Nat) : ∀ k ∈ chunksFuel limit fuel n, 1 ≤ k := by
  induction fuel generalizing n with
  | zero => simp [chunksFuel]
  | succ fuel ih =>
    unfold chunksFuel
    split
    · simp
    · intro k hk
      rcases List.mem_cons.1 hk with rfl | hk
      · omega
      · exact ih _ k hk

/-- Every chunk has at least one word (10_state R50). -/
theorem chunks_pos (c : Config) (n : Nat) : ∀ k ∈ chunks c n, 1 ≤ k := chunksFuel_pos c.maxChunk.pos n n

/-! The answers. -/

/-- The events of a whole request before its response: none, or whole brackets that leave the bus deselected at the
steady-state width. -/
structure Whole (c : Config) (es : List Event) : Prop where
  quiet   : Quiet es
  bracket : es = [] ∨
    ∀ b : Bus, busDiscipline c b es = true ∧ (b.levels.afterAll es).cs = some true ∧
      (b.levels.afterAll es).ws = some .w16

theorem whole_nil (c : Config) : Whole c [] := ⟨quiet_nil, .inl rfl⟩

theorem whole_toggle (c : Config) (v : Byte) (o : Option Nat) : Whole c (toggleEvents v o) :=
  ⟨quiet_toggleEvents v o, .inr fun b => ⟨busDiscipline_toggleEvents c b v o, by simp, by simp⟩⟩

theorem whole_rotate (c : Config) (r : BitVec 2) : Whole c (rotateEvents c r) :=
  ⟨quiet_rotateEvents c r, .inr fun b => ⟨busDiscipline_rotateEvents c b c r, by simp, by simp⟩⟩

/-- The events of a drawn request up to its response. -/
def drawEvents (c : Config) (xs ys : Word) (x0 y0 x1 y1 : Int) (px : List Event) : List Event :=
  [.cs false] ++ windowEvents c xs ys x0 y0 x1 y1 ++ [.setWs .w16] ++ px ++ [.cs true]

theorem whole_draw (c : Config) (xs ys : Word) (x0 y0 x1 y1 : Int) {px : List Event} (h : Pixels c px) :
    Whole c (drawEvents c xs ys x0 y0 x1 y1 px) := by
  refine ⟨?_, .inr fun b => ⟨?_, ?_, ?_⟩⟩
  · exact ((((Quiet.cons (by simp) quiet_nil).append (quiet_windowEvents _ _ _ _ _ _ _)).append
      (Quiet.cons (by simp) quiet_nil)).append h.quiet).append (Quiet.cons (by simp) quiet_nil)
  · simp only [drawEvents, busDiscipline_append, Bus.afterAll_append, Bus.afterAll_cons, Bus.afterAll_nil]
    rw [busDiscipline_windowEvents (by simp) (by simp), Bus.afterAll_windowEvents (by simp),
      h.allowed _ (by simp [Bus.pixelsAllowed, Bus.windowSent])]
    simp [busDiscipline, eventAllowed]
  · simp [drawEvents, Levels.afterAll_append, h.neutral _]
  · simp [drawEvents, Levels.afterAll_append, h.neutral _]

theorem drawn_eq (s : State) (xs ys : Word) (x0 y0 x1 y1 : Int) {px : List Event} (h : Neutral px) :
    drawn s (drawTrace s.cfg xs ys x0 y0 x1 y1 px) =
      (s.accept.emitAll (drawEvents s.cfg xs ys x0 y0 x1 y1 px)).respond .ok 0 := by
  rw [State.emitAll_eq]
  simp [drawEvents, Levels.afterAll_append, h _, drawn, drawTrace, State.respond, State.emit, State.accept,
    State.levels]

/-- Everything a request other than `INIT` and `RUN_SCRIPT` can answer. The three flags say which of the last three
answers its kind admits. -/
inductive Answer (rotates streams images : Bool) (s : State) : State → Prop where
  /-- A fault before the first event. -/
  | fault (r : FaultReason) (op : Byte) (i : FaultInfo) : Answer rotates streams images s (s.accept.raise r op i)
  /-- A fault inside the window: a ⊥ offset. -/
  | windowFault {es : List Event} (op : Byte) (f : Field) (h : PartialWindow s.cfg es) :
      Answer rotates streams images s (((s.accept.emit (.cs false)).emitAll es).unset op f)
  /-- The request ends. -/
  | done {es : List Event} (st : Status) (v : Word) (h : Whole s.cfg es) :
      Answer rotates streams images s ((s.accept.emitAll es).respond st v)
  /-- The rotation changes and the request ends. -/
  | rotated (r : BitVec 2) (h : rotates = true) : Answer rotates streams images s (rotateBody s.accept r).ok
  /-- The first chunk of a stream is on its way. -/
  | chunk (xs ys : Word) (x0 y0 x1 y1 : Int) (c : Word) (n : Nat) (h : streams = true) (hn : 1 ≤ n)
      (hd : s.cfg.dmaPresent = true) :
      Answer rotates streams images s (dmaChunk (openWindow s xs ys x0 y0 x1 y1) c n)
  /-- The buffer is not in the launch memory. -/
  | stuck (xs ys : Word) (x0 y0 x1 y1 : Int) (sp : Space) (p n : Nat) (h : images = true) :
      Answer rotates streams images s { openWindow s xs ys x0 y0 x1 y1 with pending := .buf sp p n }

theorem accept_ok_answer (a b c : Bool) (s : State) : Answer a b c s s.accept.ok :=
  .done (es := []) .ok 0 (whole_nil _)

theorem gate_answer {a b c : Bool} {op : Byte} {s t : State} {k : State → Outcome}
    (hk : k s.accept = .next t → Answer a b c s t) (h : requireInit op s.accept k = .next t) : Answer a b c s t := by
  rcases requireInit_cases h with ⟨_, h⟩ | ⟨_, rfl⟩
  · exact hk h
  · exact .fault _ _ _

theorem panel_answer {a b c : Bool} {op : Byte} {s t : State} {k : Int → Int → Outcome}
    (hk : ∀ W H, k W H = .next t → Answer a b c s t) (h : withPanel op s.accept k = .next t) : Answer a b c s t := by
  rcases withPanel_cases h with ⟨W, H, _, _, h⟩ | ⟨f, rfl⟩
  · exact hk _ _ h
  · exact .fault _ _ _

theorem pixelBody_answer {a b c : Bool} {op : Byte} {s t : State} {x y : Int} {v : Word}
    (h : pixelBody op s.accept x y v = .next t) : Answer a b c s t := by
  rcases window_cases h with ⟨xs, ys, hx, hy, _⟩ | ⟨es, f, he, rfl⟩
  · rw [pixelBody_ready (s := s) op x y v hx hy, drawn_eq _ _ _ _ _ _ _ (neutral_w v)] at h
    cases h
    exact .done .ok 0 (whole_draw _ _ _ _ _ _ _ (pixels_w _ v))
  · exact .windowFault op f he

theorem fillBody_answer {a c : Bool} {op : Byte} {s t : State} {x0 y0 x1 y1 : Int} {v : Word} {n : Nat} (hn : 1 ≤ n)
    (h : fillBody op s.accept x0 y0 x1 y1 v n = .next t) : Answer a true c s t := by
  rcases window_cases h with ⟨xs, ys, hx, hy, h⟩ | ⟨es, f, he, rfl⟩
  · cases h
    change Answer a true c s (streamRep (openWindow s xs ys x0 y0 x1 y1) v n)
    have hcfg : (openWindow s xs ys x0 y0 x1 y1).cfg = s.cfg := by rw [openWindow_eq]
    by_cases hd : usesDma s.cfg n = true
    · rw [streamRep_dma (by rw [hcfg]; exact hd)]
      refine .chunk xs ys x0 y0 x1 y1 v n rfl hn ?_
      simp only [usesDma, Bool.and_eq_true] at hd
      exact hd.1
    · rw [streamRep_words (by rw [hcfg]; simpa using hd), closeStream_openWindow _ _ _ _ _ _ _ (neutral_wreps v _),
        drawn_eq _ _ _ _ _ _ _ (neutral_wreps v _)]
      exact .done .ok 0 (whole_draw _ _ _ _ _ _ _ (pixels_wreps _ v (chunks_pos _ n)))
  · exact .windowFault op f he

theorem drawImage_answer {a b : Bool} {op : Byte} {sp : Space} {s t : State} {x y w h : Int} {ptr : BitVec 32}
    (he : drawImage op sp x y w h ptr s = .next t) : Answer a b true s t := by
  refine gate_answer (fun he => panel_answer (fun W H he => ?_) he) he
  split at he
  · cases he; exact accept_ok_answer ..
  · split at he
    · cases he; exact .fault _ _ _
    · rcases window_cases he with ⟨xs, ys, hx, hy, he⟩ | ⟨es, f, hw, rfl⟩
      · cases he
        change Answer a b true s (streamBuf (openWindow s xs ys x y (x + w - 1) (y + h - 1)) sp _ _)
        unfold streamBuf
        split
        next ws _ =>
          have e := closeStream_openWindow s xs ys x y (x + w - 1) (y + h - 1)
            (neutral_wbuf sp (address s.accept.cfg ptr) ws)
          rw [drawn_eq _ _ _ _ _ _ _ (neutral_wbuf sp _ ws)] at e
          exact e ▸ .done .ok 0 (whole_draw _ _ _ _ _ _ _ (pixels_wbuf _ sp _ ws))
        next => exact .stuck _ _ _ _ _ _ _ _ _ rfl
      · exact .windowFault op f hw

theorem toggle_answer {a b c : Bool} {op cmd : Byte} {settle : Option Nat} {s t : State}
    (h : toggle op cmd settle s = .next t) : Answer a b c s t := by
  rcases toggle_cases h with rfl | rfl
  · exact .done .ok 0 (whole_toggle _ cmd settle)
  · exact .fault _ _ _

/-- What no request changes in the step it is accepted, but for `INIT` and `RUN_SCRIPT`. -/
structure AnswerFrame (s t : State) : Prop where
  cfg         : t.cfg = s.cfg
  ram         : t.ram = s.ram
  rostore     : t.rostore = s.rostore
  requests    : t.requests = s.requests
  resetIn     : t.resetIn = s.resetIn
  refused     : t.refused = s.refused
  initialized : t.initialized = s.initialized
  colStart    : t.colStart = s.colStart
  rowStart    : t.rowStart = s.rowStart
  session     : t.session = s.session
  rst         : t.rst = s.rst
  seq         : t.seq = s.seq
  script      : t.script = s.script
  sp          : t.sp = s.sp
  ncmd        : t.ncmd = s.ncmd
  nargs       : t.nargs = s.nargs
  dflag       : t.dflag = s.dflag
  cmd         : t.cmd = s.cmd

theorem emitAll_rst {s : State} {es : List Event} (h : Quiet es) : (s.emitAll es).rst = s.rst := by
  rw [State.emitAll_eq]; exact h.rst s.levels

theorem Answer.frame {a b c : Bool} {s t : State} (h : Answer a b c s t) : AnswerFrame s t := by
  cases h with
  | fault r op i => constructor <;> rfl
  | windowFault op f h =>
    constructor <;> simp [State.unset_eq]
    rw [emitAll_rst (quiet_partialWindow h)]
    rfl
  | done st v h =>
    constructor <;> simp
    rw [emitAll_rst h.quiet]; rfl
  | rotated r h => rw [rotateBody_ok]; constructor <;> rfl
  | chunk xs ys x0 y0 x1 y1 c n h hn hd => rw [openWindow_eq, dmaChunk_eq]; constructor <;> rfl
  | stuck xs ys x0 y0 x1 y1 sp p n h => rw [openWindow_eq]; constructor <;> rfl

/-- Whether an instruction can change the rotation outside the FSM. -/
def rotates : Instr → Bool
  | .setRotation _ => true
  | _ => false

/-- Whether an instruction streams a repeated word. -/
def streams : Instr → Bool
  | .drawHLine _ _ _ _ => true
  | .drawVLine _ _ _ _ => true
  | .fillRect _ _ _ _ _ => true
  | _ => false

/-- Whether an instruction streams a buffer. -/
def images : Instr → Bool
  | .drawImage _ _ _ _ _ => true
  | .drawImageRom _ _ _ _ _ => true
  | _ => false

/-- Whether an instruction is one of the requests that the FSM completes. -/
def scripts : Instr → Bool
  | .init => true
  | .runScript _ => true
  | _ => false

/-- What `INIT` answers. -/
theorem exec_init (s : State) : exec .init s = .next { s with busy := true, initialized := false, seq := .session } :=
  rfl

/-- What `RUN_SCRIPT` can answer. -/
theorem exec_runScript_cases {ptr : BitVec 32} {s t : State} (h : exec (.runScript ptr) s = .next t) :
    t = s.accept.raise .notInitialized 0x02 .none ∨
      (s.initialized = true ∧
        t = { s with
          busy := true, ws := some .w8, trace := s.trace ++ [.setWs .w8]
          script := some .x, sp := some (address s.cfg ptr), seq := .hdr }) := by
  simp only [exec, execRunScript] at h
  rcases requireInit_cases h with ⟨hi, h⟩ | ⟨_, rfl⟩
  · cases h; exact .inr ⟨hi, rfl⟩
  · exact .inl rfl

/-- What a record can answer: the read of a ⊥ script pointer, or its events and then SQ_REC_DONE's row. -/
theorem runRecord_cases {cmd : Byte} {args : List Byte} {dly : Option Byte} {s t : State}
    (h : runRecord cmd args dly s = .next t) :
    t = s.unset s.scriptOp .sp ∨
    ∃ p, s.sp = some p ∧
      t = rowRecDone { s with
        cs := some true, dc := some true, trace := s.trace ++ recordEvents cmd args (dly.map delayMs)
        cmd := some cmd, nargs := some 0, dflag := some dly.isSome
        sp := some (p + 2 + args.length + dly.toList.length), seq := .recDone } := by
  unfold runRecord at h
  split at h
  next => cases h; exact .inl rfl
  next p hp =>
    cases h
    refine .inr ⟨p, hp, ?_⟩
    rw [State.emitAll_eq]
    simp [State.levels]

/-- What every other request can answer. -/
theorem exec_answer {i : Instr} {s t : State} (hs : scripts i = false) (hr : i.isRecord = false)
    (h' : exec i s = .next t) : Answer (rotates i) (streams i) (images i) s t := by
  have h := h'
  cases i with
  | init => cases hs
  | runScript ptr => cases hs
  | setAddrWindow x0 y0 x1 y1 =>
    simp only [exec, execSetAddrWindow] at h
    refine gate_answer (fun h => ?_) h
    rcases window_cases h with ⟨xs, ys, hx, hy, h⟩ | ⟨es, f, he, rfl⟩
    · cases h
      have e := closeStream_openWindow s xs ys (zext16 x0) (zext16 y0) (zext16 x1) (zext16 y1) neutral_nil
      rw [drawn_eq _ _ _ _ _ _ _ neutral_nil] at e
      have e' := Answer.done (rotates := false) (streams := false) (images := false) (s := s) .ok 0
        (whole_draw s.cfg xs ys (zext16 x0) (zext16 y0) (zext16 x1) (zext16 y1) (pixels_nil _))
      rw [← e] at e'
      exact e'
    · exact .windowFault _ f he
  | setRotation m =>
    simp only [exec, execSetRotation] at h
    exact gate_answer (fun h => by cases h; exact .rotated _ rfl) h
  | drawPixel x y c =>
    simp only [exec, execDrawPixel] at h
    refine gate_answer (fun h => panel_answer (fun W H h => ?_) h) h
    split at h
    · cases h; exact accept_ok_answer ..
    · exact pixelBody_answer h
  | drawHLine x y w c =>
    simp only [exec, execDrawHLine] at h
    refine gate_answer (fun h => panel_answer (fun W H h => ?_) h) h
    split at h
    · cases h; exact accept_ok_answer ..
    · split at h
      · exact pixelBody_answer h
      · exact fillBody_answer (by omega) h
  | drawVLine x y w c =>
    simp only [exec, execDrawVLine] at h
    refine gate_answer (fun h => panel_answer (fun W H h => ?_) h) h
    split at h
    · cases h; exact accept_ok_answer ..
    · split at h
      · exact pixelBody_answer h
      · exact fillBody_answer (by omega) h
  | fillRect x y w hh' c =>
    have he := h
    simp only [exec, execFillRect] at he
    clear h
    refine gate_answer (fun he => panel_answer (fun W H he => ?_) he) he
    split at he
    · cases he; exact accept_ok_answer ..
    · next hno =>
      refine fillBody_answer ?_ he
      simp only [outside, Bool.or_eq_true, decide_eq_true_eq, not_or, not_lt, not_le, ge_iff_le] at hno
      obtain ⟨⟨hx0, hxw, hy0, hyh⟩, hw, hh⟩ := hno
      have clamp_pos : ∀ L p n : Int, p < L → 0 < n → 0 < clampRun L p n := by
        intro L p n h1 h2; unfold clampRun; split <;> omega
      have := Int.mul_pos (clamp_pos _ _ _ hxw hw) (clamp_pos _ _ _ hyh hh)
      omega
  | drawImage x y w h ptr =>
    simp only [exec, execDrawImage] at h'
    exact drawImage_answer h'
  | drawImageRom x y w h ptr =>
    simp only [exec, execDrawImageRom] at h'
    exact drawImage_answer h'
  | invert on =>
    simp only [exec, execInvert] at h
    exact toggle_answer h
  | partialMode on =>
    simp only [exec, execPartialMode] at h
    exact toggle_answer h
  | sleep on =>
    simp only [exec, execSleep] at h
    exact toggle_answer h
  | idle on =>
    simp only [exec, execIdle] at h
    exact toggle_answer h
  | enable on =>
    simp only [exec, execEnable] at h
    exact toggle_answer h
  | powerSave m =>
    simp only [exec, execPowerSave] at h
    refine gate_answer (fun h => ?_) h
    split at h
    · cases h; exact .fault _ _ _
    · exact toggle_answer h
  | setBrightness l => cases h; exact .done (es := []) .unsupported 0 (whole_nil _)
  | color565 r g b => cases h; exact .done (es := []) .ok _ (whole_nil _)
  | record cmd args => cases hr
  | recordDelay cmd args dly => cases hr

end Sys2Proof.Machine
end

