-- ==== Sys2Proof/Laws/Rows.lean ====
section
/-! SUPPORT. Everything a row of the initialization FSM can answer (40_init_sequencer R140). -/

namespace Sys2Proof.Machine

/-- The session step's events leave the bus deselected at word size 8 (R141). -/
theorem emitAll_sessionEvents (s : State) :
    s.emitAll (sessionEvents s) = { s with
      cs := some true, ws := some .w8, trace := s.trace ++ sessionEvents s } := by
  rw [State.emitAll_eq]
  cases h : s.session <;> simp [sessionEvents, h, State.levels]

theorem rowRst1_eq (s : State) :
    rowRst1 s = { s with rst := some true, seq := .rst2, trace := s.trace ++ [.rst true, .delay 50] } := by
  simp [rowRst1, State.emitAll, State.emit]

theorem rowRst2_eq (s : State) :
    rowRst2 s = { s with rst := some false, seq := .rst3, trace := s.trace ++ [.rst false, .delay 50] } := by
  simp [rowRst2, State.emitAll, State.emit]

theorem rowRst3_eq (s : State) :
    rowRst3 s = { s with
      rst := some true, seq := .hdr, script := some .one, trace := s.trace ++ [.rst true, .delay 50] } := by
  simp [rowRst3, State.emitAll, State.emit, toScript1]

/-- What the rows of R140 answer, one constructor for each kind of row. -/
inductive RowAnswer (s : State) : State → Prop where
  /-- A row that reads past P_SCRIPT_ROM or reads a ⊥ field, before any event. -/
  | fault (sp : Option Nat) (r : FaultReason) (op : Byte) (i : FaultInfo) :
      RowAnswer s ({ s with sp := sp }.raise r op i)
  /-- SQ_END with a ⊥ flag. -/
  | endFault (op : Byte) (f : Field) (h : s.seq = .endRec) : RowAnswer s ((s.emit (.cs true)).unset op f)
  | idle (h : s.seq = .idle) : RowAnswer s s
  | session (q : Seq) (id : Option ScriptId) (h : s.seq = .session)
      (hq : q = .rst1 ∧ id = s.script ∧ s.cfg.rstPresent = true ∨ q = .hdr ∧ id = some .one) :
      RowAnswer s { s with
        seq := q, script := id, session := true, cs := some true, ws := some .w8
        trace := s.trace ++ sessionEvents s }
  | rst (q : Seq) (id : Option ScriptId) (v : Bool) (h : s.seq = .rst1 ∨ s.seq = .rst2 ∨ s.seq = .rst3)
      (hq : q = .rst2 ∧ id = s.script ∨ q = .rst3 ∧ id = s.script ∨ q = .hdr ∧ id = some .one) :
      RowAnswer s { s with seq := q, script := id, rst := some v, trace := s.trace ++ [.rst v, .delay 50] }
  | hdr (sp : Option Nat) (n : Byte) (h : s.seq = .hdr) :
      RowAnswer s { s with sp := sp, ncmd := some n, seq := if n = 0 then .next else .cmd }
  | cmd (sp : Option Nat) (v : Byte) (h : s.seq = .cmd) :
      RowAnswer s { s with
        sp := sp, cmd := some v, seq := .cnt, cs := some false, dc := some false
        trace := s.trace ++ [.cs false, .dc false, wByte v] }
  | cnt (sp : Option Nat) (c : Byte) (h : s.seq = .cnt) :
      RowAnswer s { s with
        sp := sp, dflag := some (delayFlag c), nargs := some (argCount c), seq := .arg, dc := some true
        trace := s.trace ++ [.dc true] }
  | argNone (h : s.seq = .arg) : RowAnswer s { s with seq := .endRec }
  | arg (sp : Option Nat) (v : Byte) (n : BitVec 7) (q : Seq) (h : s.seq = .arg) (hq : q = .endRec ∨ q = .arg) :
      RowAnswer s { s with sp := sp, nargs := some n, seq := q, trace := s.trace ++ [wByte v] }
  | endRec (q : Seq) (h : s.seq = .endRec) (hq : q = .dly ∨ q = .recDone) :
      RowAnswer s { s with seq := q, cs := some true, trace := s.trace ++ [.cs true] }
  | dly (sp : Option Nat) (d : Nat) (h : s.seq = .dly) :
      RowAnswer s { s with sp := sp, seq := .recDone, trace := s.trace ++ [.delay d] }
  | recDone (n : Byte) (q : Seq) (h : s.seq = .recDone) (hq : q = .next ∨ q = .cmd) :
      RowAnswer s { s with ncmd := some n, seq := q }
  | nextScript (id : ScriptId) (h : s.seq = .next) (hid : id ≠ .x) :
      RowAnswer s { s with seq := .hdr, script := some id }
  | nextRot (h : s.seq = .next) : RowAnswer s { s with seq := .rot }
  | nextDone (h : s.seq = .next) (hx : s.script = some .x) :
      RowAnswer s { s with ws := some .w16, seq := .done, trace := s.trace ++ [.setWs .w16] }
  | rot (h : s.seq = .rot) : RowAnswer s { rotateBody s s.cfg.initRotation with seq := .done }
  | done (b : Bool) (id : ScriptId) (h : s.seq = .done) (hs : s.script = some id)
      (hb : b = if id = .x then s.initialized else true) :
      RowAnswer s { s with initialized := b, busy := false, seq := .idle, trace := s.trace ++ [.resp .ok 0] }

/-- What no row changes: the configuration, the launch memory, the host's requests, the reset input, the refusal, the
fixed offsets, the DMA registers and the unfinished stream. -/
structure RowFrame (s t : State) : Prop where
  cfg      : t.cfg = s.cfg
  ram      : t.ram = s.ram
  rostore  : t.rostore = s.rostore
  requests : t.requests = s.requests
  resetIn  : t.resetIn = s.resetIn
  refused  : t.refused = s.refused
  colStart : t.colStart = s.colStart
  rowStart : t.rowStart = s.rowStart
  dmaBusy  : t.dmaBusy = s.dmaBusy
  dmaVal   : t.dmaVal = s.dmaVal
  dmaRem   : t.dmaRem = s.dmaRem
  pending  : t.pending = s.pending

theorem RowAnswer.frame {s t : State} (h : RowAnswer s t) : RowFrame s t := by
  cases h with
  | endFault op f h => constructor <;> simp [State.unset_eq]
  | rot h => rw [rotateBody_eq]; constructor <;> rfl
  | _ => constructor <;> rfl

theorem rowRecDone_answer (s : State) (h : s.seq = .recDone) : RowAnswer s (rowRecDone s) := by
  unfold rowRecDone
  split
  · exact .fault s.sp _ _ _
  · exact .recDone _ _ h (by split <;> simp)

/-- Everything a row can answer. -/
theorem fsmRow_answer {s t : State} (h : fsmRow s = .next t) : RowAnswer s t := by
  have flt : ∀ r op i, RowAnswer s (s.raise r op i) := fun r op i => .fault s.sp r op i
  unfold fsmRow at h
  split at h
  next hq => cases h; exact .idle hq
  next hq =>
    cases h
    simp only [rowSession, emitAll_sessionEvents]
    split
    next hr => exact .session .rst1 s.script hq (.inl ⟨rfl, rfl, hr⟩)
    · exact .session .hdr (some .one) hq (.inr ⟨rfl, rfl⟩)
  next hq =>
    cases h
    rw [rowRst1_eq]
    exact .rst .rst2 s.script true (.inl hq) (.inl ⟨rfl, rfl⟩)
  next hq =>
    cases h
    rw [rowRst2_eq]
    exact .rst .rst3 s.script false (.inr (.inl hq)) (.inr (.inl ⟨rfl, rfl⟩))
  next hq =>
    cases h
    rw [rowRst3_eq]
    exact .rst .hdr _ true (.inr (.inr hq)) (.inr (.inr ⟨rfl, rfl⟩))
  next hq =>
    unfold rowHdr at h
    split at h
    · cases h; exact flt _ _ _
    · rcases rd_cases h with ⟨p, v, _, _, h⟩ | ⟨r, i, rfl⟩
      · cases h; exact .hdr _ v hq
      · exact .fault _ _ _ _
  next hq =>
    rcases rd_cases h with ⟨p, v, _, _, h⟩ | ⟨r, i, rfl⟩
    · cases h
      have := RowAnswer.cmd (s := s) (some (p + 1)) v hq
      simpa [State.emitAll, State.emit, wByte] using this
    · exact flt _ _ _
  next hq =>
    rcases rd_cases h with ⟨p, v, _, _, h⟩ | ⟨r, i, rfl⟩
    · cases h; exact .cnt _ v hq
    · exact flt _ _ _
  next hq =>
    unfold rowArg at h
    split at h
    · cases h; exact flt _ _ _
    · split at h
      · cases h; exact .argNone hq
      · rcases rd_cases h with ⟨p, v, _, _, h⟩ | ⟨r, i, rfl⟩
        · cases h; exact .arg _ v _ _ hq (by split <;> simp)
        · exact flt _ _ _
  next hq =>
    cases h
    unfold rowEnd
    simp only
    split
    · exact .endFault _ _ hq
    · exact .endRec _ hq (by split <;> simp)
  next hq =>
    rcases rd_cases h with ⟨p, v, _, _, h⟩ | ⟨r, i, rfl⟩
    · cases h; exact .dly _ _ hq
    · exact flt _ _ _
  next hq =>
    cases h
    exact rowRecDone_answer s hq
  next hq =>
    cases h
    unfold rowNext
    split
    · exact flt _ _ _
    · exact .nextScript _ hq (by simp)
    · exact .nextScript _ hq (by simp)
    · exact .nextRot hq
    next hx => exact .nextDone hq hx
  next hq => cases h; exact .rot hq
  next hq =>
    cases h
    unfold rowDone
    split
    · exact flt _ _ _
    next hs => exact .done s.initialized .x hq hs rfl
    next hs => exact .done true .one hq hs rfl
    next hs => exact .done true .two hq hs rfl
    next hs => exact .done true .three hq hs rfl

end Sys2Proof.Machine
end

