-- ==== Sys2Proof/Laws/Step.lean ====
section
/-! SUPPORT. Which agent a step moves, everything a step can do, and runs of several steps. -/

namespace Sys2Proof.Machine

/-! One step. -/

theorem step_reset {s : State} (h : s.resetIn = true) : step s = .next s.applyReset := by simp [step, cycle, h]

theorem step_agent {s : State} (hr : s.resetIn = false) (hf : s.fault = none) (hx : s.refused = false)
    (hd : s.dmaBusy = true) : step s = .next (dmaAgent s) := by simp [step, cycle, hr, hf, hx, hd]

theorem step_moves {s : State} (h : SequencerMoves s) : step s = sequencerMove s := by
  obtain ⟨hr, hf, hx, hd⟩ := h
  simp [step, cycle, hr, hf, hx, hd]

/-- Outside SQ_IDLE and SQ_CMD a step is the FSM's row. -/
theorem step_row {s : State} (h : SequencerMoves s) (hp : s.pending = .none) (hi : s.seq ≠ .idle) (hc : s.seq ≠ .cmd) :
    step s = fsmRow s := by
  rw [step_moves h]
  simp only [sequencerMove, hp, if_neg hi]
  unfold fsmMove
  split <;> first | rfl | exact absurd (by assumption) hc

/-- At SQ_CMD a step runs the record at the script pointer. -/
theorem step_record {s : State} {p : Nat} {i : Instr} {rest : List Byte} (h : SequencerMoves s)
    (hp : s.pending = .none) (hc : s.seq = .cmd) (hs : s.sp = some p)
    (hd : decodeRecord (s.cfg.scriptRom.drop p) = .ok (i, rest)) : step s = exec i s := by
  rw [step_moves h]
  simp [sequencerMove, hp, hc, fsmMove, takeRecord, recordAt, hs, hd]

/-- Everything a step that goes on can do: reset, the DMA agent, or the sequencer. -/
theorem step_cases {s t : State} (h : step s = .next t) :
    (s.resetIn = true ∧ t = s.applyReset) ∨
    (s.resetIn = false ∧ s.fault = none ∧ s.refused = false ∧ s.dmaBusy = true ∧ t = dmaAgent s) ∨
    (SequencerMoves s ∧ sequencerMove s = .next t) := by
  unfold step cycle at h
  split at h
  next hr => exact .inl ⟨hr, (Host.Outcome.next.inj h).symm⟩
  next hr =>
    split at h
    · cases h
    next hf =>
      split at h
      · cases h
      next hx =>
        simp only [Bool.not_eq_true, Option.isSome_eq_false_iff, Option.isNone_iff_eq_none] at hr hf hx
        split at h
        next hd => exact .inr (.inl ⟨hr, hf, hx, hd, (Host.Outcome.next.inj h).symm⟩)
        next hd => exact .inr (.inr ⟨⟨hr, hf, hx, by simpa using hd⟩, h⟩)

/-- What a buffer read that was waited on gives once the launch memory holds the buffer. -/
theorem resumeBuf_cases {s t : State} {sp : Space} {p n : Nat} (h : resumeBuf s sp p n = .next t) :
    ∃ ws, t = closeStream ({ s with pending := .none }.emit (.wbuf sp p ws)) := by
  unfold resumeBuf at h
  split at h
  next ws _ => exact ⟨ws, (Host.Outcome.next.inj h).symm⟩
  next => cases h

theorem takeRequest_cases {s t : State} (h : takeRequest s = .next t) :
    t = s ∨ ∃ q rest, s.requests = q :: rest ∧
      (t = { s with requests := rest, refused := true } ∨
        ∃ i, decodeRequest q = .ok i ∧ exec i { s with requests := rest } = .next t) := by
  unfold takeRequest at h
  split at h
  next => exact .inl (Host.Outcome.next.inj h).symm
  next q rest hq =>
    refine .inr ⟨q, rest, hq, ?_⟩
    split at h
    next i hi => exact .inr ⟨i, hi, h⟩
    next => exact .inl (Host.Outcome.next.inj h).symm

theorem fsmMove_cases {s t : State} (h : fsmMove s = .next t) :
    (s.seq = .cmd ∧ ((∃ i, recordAt s = some i ∧ exec i s = .next t) ∨ rowCmd s = .next t)) ∨
    (s.seq ≠ .cmd ∧ fsmRow s = .next t) := by
  by_cases hc : s.seq = .cmd
  · simp only [fsmMove, hc, takeRecord] at h
    refine .inl ⟨hc, ?_⟩
    split at h
    next i hi => exact .inl ⟨i, hi, h⟩
    next => exact .inr h
  · refine .inr ⟨hc, ?_⟩
    unfold fsmMove at h
    split at h <;> first | exact h | exact absurd (by assumption) hc

/-- Everything the sequencer's move can do. -/
theorem sequencerMove_cases {s t : State} (h : sequencerMove s = .next t) :
    (∃ c left, s.pending = .rep c left ∧ t = resumeRep s c left) ∨
    (∃ sp p n, s.pending = .buf sp p n ∧ resumeBuf s sp p n = .next t) ∨
    (s.pending = .none ∧ s.seq = .idle ∧ s.busy = false ∧ takeRequest s = .next t) ∨
    (s.pending = .none ∧ s.seq ≠ .idle ∧ fsmMove s = .next t) := by
  unfold sequencerMove at h
  split at h
  next c left hp => exact .inl ⟨c, left, hp, (Host.Outcome.next.inj h).symm⟩
  next sp p n hp => exact .inr (.inl ⟨sp, p, n, hp, h⟩)
  next hp =>
    split at h
    next hi =>
      split at h
      · cases h
      next hb => exact .inr (.inr (.inl ⟨hp, hi, by simpa using hb, h⟩))
    next hi => exact .inr (.inr (.inr ⟨hp, hi, h⟩))

theorem decodeRequest_notRecord {q : Request} {i : Instr} (h : decodeRequest q = .ok i) : i.isRecord = false := by
  unfold decodeRequest decodeFields at h
  split at h <;> cases h <;> rfl

/-- A record of the script is a record. -/
theorem recordAt_isRecord {s : State} {i : Instr} (h : recordAt s = some i) :
    (∃ cmd args, i = .record cmd args) ∨ ∃ cmd args dly, i = .recordDelay cmd args dly := by
  unfold recordAt at h
  split at h
  · cases h
  next p _ =>
    split at h
    next j rest hj =>
      cases h
      unfold decodeRecord at hj
      split at hj
      next =>
        simp only at hj
        split at hj
        · cases hj
        · split at hj
          · split at hj
            · cases hj; exact .inr ⟨_, _, _, rfl⟩
            · cases hj
          · cases hj; exact .inl ⟨_, _, rfl⟩
      next => cases hj
    next => cases h

/-! Runs. -/

theorem reaches_zero (s : State) : Reaches 0 s s := rfl

theorem run_succ_iff (M : Host.Core) (k : Nat) (s u : M.State) :
    M.run (k + 1) s = .next u ↔ ∃ t, M.step s = .next t ∧ M.run k t = .next u := by
  rw [Host.Core.run.eq_2]
  cases M.step s <;> simp

theorem reaches_succ_iff {k : Nat} {s u : State} : Reaches (k + 1) s u ↔ ∃ t, step s = .next t ∧ Reaches k t u :=
  run_succ_iff core k s u

theorem reaches_one {s t : State} (h : step s = .next t) : Reaches 1 s t := reaches_succ_iff.2 ⟨t, h, rfl⟩

theorem reaches_succ {k : Nat} {s t u : State} (h : step s = .next t) (h' : Reaches k t u) : Reaches (k + 1) s u :=
  reaches_succ_iff.2 ⟨t, h, h'⟩

theorem reaches_trans {j k : Nat} {s t u : State} (h : Reaches j s t) (h' : Reaches k t u) : Reaches (j + k) s u := by
  induction j generalizing s with
  | zero => cases h; simpa using h'
  | succ j ih =>
    obtain ⟨r, hr, h⟩ := reaches_succ_iff.1 h
    rw [Nat.succ_add]
    exact reaches_succ hr (ih h)

end Sys2Proof.Machine
end

