-- ==== Sys2Proof/Laws/Invariant.lean ====
section
/-! SUPPORT. Everything a step that goes on can do, in one list: an invariant is proved by its cases. -/

namespace Sys2Proof.Machine

/-- What a step answers, one constructor for each kind of step. -/
inductive StepAnswer (s : State) : State → Prop where
  | reset (h : s.resetIn = true) : StepAnswer s s.applyReset
  | agent (hr : s.resetIn = false) (hf : s.fault = none) (hx : s.refused = false) (hd : s.dmaBusy = true) :
      StepAnswer s (dmaAgent s)
  | nextChunk (hm : SequencerMoves s) (c : Word) (left : Nat) (hp : s.pending = .rep c left) (hl : left ≠ 0) :
      StepAnswer s (dmaChunk s c left)
  | endStream (hm : SequencerMoves s) (c : Word) (hp : s.pending = .rep c 0) :
      StepAnswer s (closeStream { s with pending := .none })
  | buffer (hm : SequencerMoves s) (sp : Space) (p n : Nat) (ws : List Word) (hp : s.pending = .buf sp p n) :
      StepAnswer s (closeStream ({ s with pending := .none }.emit (.wbuf sp p ws)))
  | wait (ha : Accepts s) (hq : s.requests = []) : StepAnswer s s
  | refuse (ha : Accepts s) (q : Request) (rest : List Request) (hq : s.requests = q :: rest) :
      StepAnswer s { s with requests := rest, refused := true }
  | init (ha : Accepts s) (q : Request) (rest : List Request) (hq : s.requests = q :: rest)
      (hd : decodeRequest q = .ok .init) :
      StepAnswer s { s with requests := rest, busy := true, initialized := false, seq := .session }
  | runScript (ha : Accepts s) (q : Request) (rest : List Request) (hq : s.requests = q :: rest) (ptr : BitVec 32)
      (hi : s.initialized = true) :
      StepAnswer s { s with
        requests := rest, busy := true, ws := some .w8, trace := s.trace ++ [.setWs .w8]
        script := some .x, sp := some (address s.cfg ptr), seq := .hdr }
  | request (ha : Accepts s) (q : Request) (rest : List Request) (hq : s.requests = q :: rest) (i : Instr)
      (hd : decodeRequest q = .ok i) {t : State}
      (h : Answer (rotates i) (streams i) (images i) { s with requests := rest } t) : StepAnswer s t
  | record (hm : SequencerMoves s) (hp : s.pending = .none) (hc : s.seq = .cmd) (cmd : Byte) (args : List Byte)
      (dly : Option Nat) (p : Nat) (flag : Bool) {t : State}
      (h : RowAnswer { s with
        cs := some true, dc := some true, trace := s.trace ++ recordEvents cmd args dly
        cmd := some cmd, nargs := some 0, dflag := some flag, sp := some p, seq := .recDone } t) : StepAnswer s t
  | row (hm : SequencerMoves s) (hp : s.pending = .none) (hi : s.seq ≠ .idle) {t : State} (h : RowAnswer s t) :
      StepAnswer s t

theorem takeRequest_answer {s t : State} (ha : Accepts s) (h : takeRequest s = .next t) : StepAnswer s t := by
  unfold takeRequest at h
  split at h
  next hq => cases h; exact .wait ha hq
  next q rest hq =>
    split at h
    next i hi =>
      by_cases hs : scripts i = true
      · cases i <;> cases hs
        · cases h; exact .init ha q rest hq hi
        · rcases exec_runScript_cases h with rfl | ⟨hi', rfl⟩
          · exact .request ha q rest hq _ hi (.fault _ _ _)
          · exact .runScript ha q rest hq _ hi'
      · exact .request ha q rest hq i hi (exec_answer (by simpa using hs) (decodeRequest_notRecord hi) h)
    next => cases h; exact .refuse ha q rest hq

theorem runRecord_answer {s t : State} {cmd : Byte} {args : List Byte} {dly : Option Byte} (hm : SequencerMoves s)
    (hp : s.pending = .none) (hc : s.seq = .cmd) (h : runRecord cmd args dly s = .next t) : StepAnswer s t := by
  rcases runRecord_cases h with rfl | ⟨p, _, rfl⟩
  · exact .row hm hp (by simp [hc]) (.fault s.sp _ _ _)
  · exact .record hm hp hc cmd args (dly.map delayMs) (p + 2 + args.length + dly.toList.length) dly.isSome
      (rowRecDone_answer _ rfl)

/-- Everything a step that goes on can do. -/
theorem step_answer {s t : State} (h : step s = .next t) : StepAnswer s t := by
  rcases step_cases h with ⟨hr, rfl⟩ | ⟨hr, hf, hx, hd, rfl⟩ | ⟨hm, h⟩
  · exact .reset hr
  · exact .agent hr hf hx hd
  · rcases sequencerMove_cases h with ⟨c, left, hp, rfl⟩ | ⟨sp, p, n, hp, h⟩ | ⟨hp, hi, hb, h⟩ | ⟨hp, hi, h⟩
    · unfold resumeRep
      split
      next hl => subst hl; exact .endStream hm c hp
      next hl => exact .nextChunk hm c left hp hl
    · obtain ⟨ws, rfl⟩ := resumeBuf_cases h
      exact .buffer hm sp p n ws hp
    · exact takeRequest_answer ⟨hm, hp, hi, hb⟩ h
    · rcases fsmMove_cases h with ⟨hc, ⟨i, hr, h⟩ | h⟩ | ⟨hc, h⟩
      · rcases recordAt_isRecord hr with ⟨cmd, args, rfl⟩ | ⟨cmd, args, dly, rfl⟩
        · exact runRecord_answer hm hp hc (dly := none) h
        · exact runRecord_answer hm hp hc (dly := some dly) h
      · exact .row hm hp hi (fsmRow_answer (by simp only [fsmRow, hc]; exact h))
      · exact .row hm hp hi (fsmRow_answer h)

end Sys2Proof.Machine
end

