-- ==== Sys2Proof/Laws/Memory.lean ====
section
/-! SUPPORT. The laws of the launch memory: read after write, and the canonical form. -/

namespace Sys2Proof.Machine

theorem Memory.read_write_same (m : List Host.Cell) (a : Nat) (v : Byte) :
    Memory.read (Memory.write m a v) a = some v := by
  induction m with
  | nil => simp [Memory.write, Memory.read]
  | cons p rest ih =>
    obtain ⟨k, u⟩ := p
    unfold Memory.write
    split
    · simp [Memory.read]
    · split
      · simp [Memory.read]
      · next h => simp [Memory.read, h, ih]

theorem Memory.read_write_other (m : List Host.Cell) {a b : Nat} (v : Byte) (h : b ≠ a) :
    Memory.read (Memory.write m a v) b = Memory.read m b := by
  induction m with
  | nil => simp [Memory.write, Memory.read, h]
  | cons p rest ih =>
    obtain ⟨k, u⟩ := p
    unfold Memory.write
    split
    · simp [Memory.read, h]
    · split
      · next hk => subst hk; simp [Memory.read, h]
      · simp [Memory.read, ih]

/-- The canonical form of a memory with a first cell: the rest is canonical and lies above that cell. -/
theorem Memory.wf_cons (p : Host.Cell) (m : List Host.Cell) :
    Memory.wf (p :: m) = true ↔ Memory.wf m = true ∧ ∀ q ∈ m.head?, p.1 < q.1 := by
  cases m with
  | nil => simp [Memory.wf]
  | cons q rest => simp [Memory.wf, and_comm]

/-- The first cell of a written memory is the written one or the old first one. -/
theorem Memory.head_write (m : List Host.Cell) (a : Nat) (v : Byte) :
    ∀ q ∈ (Memory.write m a v).head?, q.1 = a ∨ ∃ p ∈ m.head?, q.1 = p.1 := by
  cases m with
  | nil => simp [Memory.write]
  | cons p rest =>
    obtain ⟨k, u⟩ := p
    unfold Memory.write
    split
    · simp
    · split <;> simp

/-- A write keeps the canonical form. -/
theorem Memory.wf_write (m : List Host.Cell) (a : Nat) (v : Byte) (h : Memory.wf m = true) :
    Memory.wf (Memory.write m a v) = true := by
  induction m with
  | nil => simp [Memory.write, Memory.wf]
  | cons p rest ih =>
    obtain ⟨k, u⟩ := p
    rw [Memory.wf_cons] at h
    unfold Memory.write
    split
    · next hk => exact (Memory.wf_cons _ _).2 ⟨(Memory.wf_cons _ _).2 h, by simpa using hk⟩
    · next hk =>
      split
      · next ha => subst ha; exact (Memory.wf_cons _ _).2 h
      · next ha =>
        refine (Memory.wf_cons _ _).2 ⟨ih h.1, fun q hq => ?_⟩
        rcases Memory.head_write rest a v q hq with h' | ⟨p', hp', h'⟩
        · rw [h']; show k < a; omega
        · rw [h']; exact h.2 _ hp'

/-- Filling a buffer keeps the canonical form. -/
theorem Memory.wf_fill (m : List Host.Cell) (a : Nat) (vs : List Byte) (h : Memory.wf m = true) :
    Memory.wf (Memory.fill m a vs) = true := by
  induction vs generalizing m a with
  | nil => exact h
  | cons v vs ih => exact ih _ _ (Memory.wf_write _ _ _ h)

/-- A fill leaves every address below it alone. -/
theorem Memory.read_fill_below (m : List Host.Cell) (a b : Nat) (vs : List Byte) (h : b < a) :
    Memory.read (Memory.fill m a vs) b = Memory.read m b := by
  induction vs generalizing m a with
  | nil => rfl
  | cons v vs ih => simp only [Memory.fill]; rw [ih _ _ (by omega), Memory.read_write_other _ _ (by omega)]

/-- A filled buffer reads back byte by byte. -/
theorem Memory.read_fill (m : List Host.Cell) (a k : Nat) (vs : List Byte) (h : k < vs.length) :
    Memory.read (Memory.fill m a vs) (a + k) = vs[k]? := by
  induction vs generalizing m a k with
  | nil => simp at h
  | cons v vs ih =>
    cases k with
    | zero => simp only [Memory.fill]; rw [Memory.read_fill_below _ _ _ _ (by omega)]; simp [Memory.read_write_same]
    | succ k =>
      have := ih (Memory.write m a v) (a + 1) k (by simpa using h)
      simpa [Memory.fill, Nat.add_assoc, Nat.add_comm 1 k] using this

end Sys2Proof.Machine
end

