-- ==== Sys2Proof/Laws/Observer.lean ====
section
/-! SUPPORT. What the observer's parts leave alone, what it does with a window and the pixel words after it, and when it
says nothing (20_memory R86, R87). -/

namespace Sys2Proof.Machine

/-! What a byte and a bus-select edge leave alone. -/

theorem Observer.argument_keeps (c : Config) (o : Observer) (b : Byte) :
    (o.argument c b).cells = o.cells ∧ (o.argument c b).levels = o.levels := by
  unfold Observer.argument
  dsimp only
  repeat' split
  all_goals exact ⟨rfl, rfl⟩

theorem Observer.command_keeps (c : Config) (o : Observer) (b : Byte) :
    (o.command c b).cells = o.cells ∧ (o.command c b).levels = o.levels := by
  unfold Observer.command
  dsimp only
  split <;> exact ⟨rfl, rfl⟩

@[simp] theorem Observer.select_cells (o : Observer) (v : Bool) : (o.select v).cells = o.cells := rfl

/-- A byte, command or argument, places no cell. -/
theorem Observer.write_byte_cells (c : Config) (p : Option Panel) {o : Observer} (h : o.levels.ws = some .w8) (v : Word) :
    (o.write c p v).cells = o.cells := by
  unfold Observer.write
  split <;> simp_all [Observer.argument_keeps, Observer.command_keeps]

/-! Stretches of events. -/

@[simp] theorem Observer.seeAll_nil (c : Config) (p : Option Panel) (o : Observer) : o.seeAll c p [] = o := rfl

theorem Observer.seeAll_append (c : Config) (p : Option Panel) (o : Observer) (es fs : List Event) :
    o.seeAll c p (es ++ fs) = (o.seeAll c p es).seeAll c p fs := List.foldl_append

theorem Observer.seeAll_cons (c : Config) (p : Option Panel) (o : Observer) (e : Event) (es : List Event) :
    o.seeAll c p (e :: es) = (o.see c p e).seeAll c p es := rfl

@[simp] theorem Observer.see_levels (c : Config) (p : Option Panel) (o : Observer) (e : Event) :
    (o.see c p e).levels = o.levels.after e := rfl

/-- The observer's levels are those of the trace. -/
@[simp] theorem Observer.seeAll_levels (c : Config) (p : Option Panel) (o : Observer) (es : List Event) :
    (o.seeAll c p es).levels = o.levels.afterAll es := by
  induction es generalizing o with
  | nil => rfl
  | cons e es ih => rw [Observer.seeAll_cons, ih]; rfl

/-- Bytes at word size 8 place no cell. -/
theorem Observer.seeAll_wBytes_cells (c : Config) (p : Option Panel) {o : Observer} (h : o.levels.ws = some .w8)
    (bs : List Byte) : (o.seeAll c p (bs.map wByte)).cells = o.cells := by
  induction bs generalizing o with
  | nil => rfl
  | cons b bs ih => rw [List.map_cons, Observer.seeAll_cons, ih (by simpa using h)]; exact o.write_byte_cells c p h _

theorem Observer.seeAll_command_cells (c : Config) (p : Option Panel) {o : Observer} (h : o.levels.ws = some .w8)
    (b : Byte) : (o.seeAll c p (Machine.command b)).cells = o.cells :=
  Observer.write_byte_cells c p (o := o.see c p (.dc false)) (by simpa using h) _

theorem Observer.seeAll_coord_cells (c : Config) (p : Option Panel) {o : Observer} (h : o.levels.ws = some .w8)
    (v : Word) : (o.seeAll c p (coord c.coordFormat v)).cells = o.cells := by
  cases c.coordFormat
  · exact Observer.seeAll_wBytes_cells c p h [_, _]
  · exact Observer.seeAll_wBytes_cells c p h [_, _]

theorem Observer.seeAll_rangeEvents_cells (c : Config) (p : Option Panel) {o : Observer} (h : o.levels.ws = some .w8)
    (b : Byte) (start : Word) (v0 v1 : Int) : (o.seeAll c p (rangeEvents c b start v0 v1)).cells = o.cells := by
  rw [rangeEvents, Observer.seeAll_append, Observer.seeAll_append, Observer.seeAll_coord_cells c p (by simp [h]),
    Observer.seeAll_coord_cells c p (by simp [h]), Observer.seeAll_command_cells c p h]

/-- A window alone places no cell. -/
theorem Observer.seeAll_windowEvents_cells (c : Config) (p : Option Panel) (o : Observer) (xs ys : Word)
    (x0 y0 x1 y1 : Int) : (o.seeAll c p (windowEvents c xs ys x0 y0 x1 y1)).cells = o.cells := by
  rw [windowEvents, Observer.seeAll_append, Observer.seeAll_append, Observer.seeAll_append,
    Observer.seeAll_command_cells c p (by simp), Observer.seeAll_rangeEvents_cells c p (by simp),
    Observer.seeAll_rangeEvents_cells c p (by simp)]
  rfl

/-! The range and the window a window's bytes open. -/

/-- The value a coordinate's two bytes carry. -/
def carried (f : CoordFormat) (v : Word) : Nat :=
  match f with
  | .bytesHiLo => v.toNat
  | .zeroHiLow8 => v.toNat % 256

/-- A coordinate is two argument bytes that carry its value. -/
theorem coord_carries (f : CoordFormat) (v : Word) :
    ∃ hi lo : Byte, coord f v = [wByte hi, wByte lo] ∧ (hi ++ lo).toNat = carried f v := by
  cases f with
  | bytesHiLo => exact ⟨hiByte v, loByte v, rfl, by rw [hiByte_append_loByte]; rfl⟩
  | zeroHiLow8 =>
    refine ⟨0, loByte v, rfl, ?_⟩
    rw [BitVec.toNat_append, ← Nat.shiftLeft_add_eq_or_of_lt (loByte v).isLt]
    simp [carried, loByte]

/-- The range the arguments of a range command carry. -/
def carriedRange (c : Config) (start : Word) (v0 v1 : Int) : Nat × Nat :=
  (carried c.coordFormat (u16 (v0 + start.toNat)), carried c.coordFormat (u16 (v1 + start.toNat)))

/-- After a command that is no write-to-RAM command and its two coordinates, the observer holds their range if it is a
range command; nothing else of it moves. -/
theorem Observer.seeAll_rangeEvents {c : Config} (p : Option Panel) {o : Observer} (h : o.levels.ws = some .w8) {b : Byte}
    (hb : b ≠ c.cmdRamwr) (start : Word) (v0 v1 : Int) :
    ∃ args, o.seeAll c p (rangeEvents c b start v0 v1) =
      { o with
        levels := { o.levels with dc := some true }
        cmd := some b
        args := args
        cols := if b = c.cmdCaset then some (carriedRange c start v0 v1) else o.cols
        rows := if b ≠ c.cmdCaset ∧ b = c.cmdRaset then some (carriedRange c start v0 v1) else o.rows } := by
  obtain ⟨a0, a1, ha, ea⟩ := coord_carries c.coordFormat (u16 (v0 + start.toNat))
  obtain ⟨b0, b1, hb', eb⟩ := coord_carries c.coordFormat (u16 (v1 + start.toNat))
  refine ⟨[a0, a1, b0, b1], ?_⟩
  have e : rangeEvents c b start v0 v1 =
      [.dc false, wByte b, .dc true, wByte a0, wByte a1, wByte b0, wByte b1] := by
    rw [rangeEvents, ha, hb']; rfl
  rw [e]
  simp only [Observer.seeAll, List.foldl_cons, List.foldl_nil, Observer.see, Observer.write, wByte, Levels.after, h,
    loByte_setWidth, Observer.command, Observer.argument, if_neg hb, List.nil_append, List.cons_append, rangeOf,
    Option.some.injEq, carriedRange, ea, eb]
  by_cases h1 : b = c.cmdCaset
  · simp [h1]
  · by_cases h2 : b = c.cmdRaset
    · simp [h2, h2 ▸ h1]
    · simp [h1, h2]

/-- After a window on a controller whose range and write commands are told apart, the observer waits for the first pixel
of the window its bytes carry, if that is in order. -/
theorem Observer.seeAll_windowEvents {c : Config} (p : Option Panel) (o : Observer) (h1 : c.cmdCaset ≠ c.cmdRaset)
    (h2 : c.cmdCaset ≠ c.cmdRamwr) (h3 : c.cmdRaset ≠ c.cmdRamwr) (xs ys : Word) (x0 y0 x1 y1 : Int) :
    let w : Window :=
      { x0 := (carriedRange c xs x0 x1).1, x1 := (carriedRange c xs x0 x1).2
        y0 := (carriedRange c ys y0 y1).1, y1 := (carriedRange c ys y0 y1).2 }
    let t := o.seeAll c p (windowEvents c xs ys x0 y0 x1 y1)
    t.window = (if w.ordered then some w else none) ∧ t.count = 0 ∧ t.cells = o.cells := by
  intro w t
  obtain ⟨a, ha⟩ := Observer.seeAll_rangeEvents (o := o.see c p (.setWs .w8)) p rfl h2 xs x0 x1
  obtain ⟨b, hb⟩ := Observer.seeAll_rangeEvents (o := (o.see c p (.setWs .w8)).seeAll c p (rangeEvents c c.cmdCaset xs x0 x1))
    p (by simp) h3 ys y0 y1
  have ht : t = ((((o.see c p (.setWs .w8)).seeAll c p (rangeEvents c c.cmdCaset xs x0 x1)).seeAll c p
      (rangeEvents c c.cmdRaset ys y0 y1)).seeAll c p (Machine.command c.cmdRamwr)) := by
    simp only [t, windowEvents, Observer.seeAll_append]; rfl
  rw [ht, hb, ha]
  simp [Machine.command, Observer.seeAll, Observer.see, Observer.write, wByte, Levels.after, Observer.command,
    Observer.opened, h1.symm, w]

/-! Pixel words. -/

/-- What the observer adds for the `k`-th pixel word of its window. -/
def Observer.placed (p : Option Panel) (o : Observer) (v : Word) (k : Nat) : Option ((Nat × Nat) × Word) :=
  o.window.bind fun w => (w.placed p k).map fun cell => (cell, v)

theorem Observer.foldl_pixel (p : Option Panel) (o : Observer) (vs : List Word) :
    vs.foldl (Observer.pixel p) o =
      { o with
        count := o.count + vs.length
        cells := o.cells ++ (vs.zipIdx o.count).filterMap fun x => o.placed p x.1 x.2 } := by
  induction vs generalizing o with
  | nil => simp
  | cons v vs ih =>
    rw [List.foldl_cons, ih, List.zipIdx_cons, List.filterMap_cons]
    cases hv : o.placed p v o.count <;>
      simp_all [Observer.pixel, Observer.placed, Nat.add_assoc, Nat.add_comm 1]

theorem Observer.see_pixels {c : Config} {p : Option Panel} {o : Observer} {e : Event} {vs : List Word}
    (hl : o.levels.dc = some true ∧ o.levels.ws = some .w16) (h : pixelWords e = some vs) :
    o.see c p e = vs.foldl (Observer.pixel p) o := by
  cases e <;> simp only [pixelWords, Option.some.injEq, reduceCtorEq] at h <;> subst h <;>
    simp [Observer.see, Observer.write, Levels.after, hl, Observer.foldl_pixel, Observer.pixel]

/-- The pixel words of a stream, as data at word size 16, are placed one after another. -/
theorem Observer.seeAll_pixels {c : Config} {p : Option Panel} {o : Observer} {es : List Event}
    (hl : o.levels.dc = some true ∧ o.levels.ws = some .w16) (h : ∀ e ∈ es, (pixelWords e).isSome) :
    o.seeAll c p es = (es.flatMap fun e => (pixelWords e).getD []).foldl (Observer.pixel p) o := by
  induction es generalizing o with
  | nil => rfl
  | cons e es ih =>
    obtain ⟨vs, hv⟩ := Option.isSome_iff_exists.1 (h e (by simp))
    rw [Observer.seeAll_cons, Observer.see_pixels hl hv, List.flatMap_cons, List.foldl_append, hv]
    exact ih (by simpa [Observer.foldl_pixel] using hl) fun e he => h e (by simp [he])

end Sys2Proof.Machine
end

