-- ==== Sys2Proof/Laws/PerInstr.lean ====
section
/-! SUPPORT. One statement for every constructor: an instruction's encoding has the fixed bits of its row of
spec/opcode_table.json. -/

namespace Sys2Proof.Laws

/-- An encoding as the table numbers its bits: a request word whole, a record by its first two bytes, byte 0 lowest. -/
def RowBits.number : Encoded → Nat
  | .request q => q.toNat
  | .record (b0 :: b1 :: _) => b0.toNat + 256 * b1.toNat
  | .record _ => 0

/-- The table's mask and match of each row. -/
def RowBits.row : Instr → Nat × Nat
  | .init => (0xFF, 0x01)
  | .runScript _ => (0xFF, 0x02)
  | .setAddrWindow _ _ _ _ => (0xFF, 0x03)
  | .setRotation _ => (0xFF, 0x04)
  | .drawPixel _ _ _ => (0xFF, 0x05)
  | .drawHLine _ _ _ _ => (0xFF, 0x06)
  | .drawVLine _ _ _ _ => (0xFF, 0x07)
  | .fillRect _ _ _ _ _ => (0xFF, 0x08)
  | .drawImage _ _ _ _ _ => (0xFF, 0x09)
  | .drawImageRom _ _ _ _ _ => (0xFF, 0x0A)
  | .invert _ => (0xFF, 0x10)
  | .partialMode _ => (0xFF, 0x11)
  | .sleep _ => (0xFF, 0x12)
  | .idle _ => (0xFF, 0x13)
  | .enable _ => (0xFF, 0x14)
  | .powerSave _ => (0xFF, 0x15)
  | .setBrightness _ => (0xFF, 0x16)
  | .color565 _ _ _ => (0xFF, 0x20)
  | .record _ _ => (0x8000, 0x0000)
  | .recordDelay _ _ _ => (0x8000, 0x8000)

/-- The encoding's bits under the row's mask are the row's match. -/
def RowBits.Statement (i : Instr) : Prop :=
  i.wellFormed = true → RowBits.number (encode i) &&& (RowBits.row i).1 = (RowBits.row i).2

/-- The low byte of a packed request is its OP. -/
theorem RowBits.toRequest_low (f : Fields) : f.toRequest.toNat &&& 0xFF = f.op.toNat := by
  have h : (Fields.ofRequest f.toRequest).op = f.op := by rw [Fields.ofRequest_toRequest]
  have h' := congrArg BitVec.toNat h
  simp only [Fields.ofRequest, BitVec.extractLsb'_toNat, Nat.shiftRight_zero] at h'
  rw [← h']; exact Nat.and_two_pow_sub_one_eq_mod _ 8

/-- Bit 15 of a record's two-byte prefix is the top bit of its count byte. -/
theorem RowBits.topBit (b0 b1 : Byte) :
    (b0.toNat + 256 * b1.toNat) &&& 0x8000 = if delayFlag b1 then 0x8000 else 0 := by
  have h0 := b0.isLt
  have h1 := b1.isLt
  have e : (0x8000 : Nat) = 2 ^ 15 := rfl
  rw [e, Nat.and_two_pow]
  have : (b0.toNat + 256 * b1.toNat).testBit 15 = delayFlag b1 := by
    rw [delayFlag, BitVec.getLsbD, Nat.testBit_eq_decide_div_mod_eq, Nat.testBit_eq_decide_div_mod_eq]
    congr 2
    omega
  rw [this]; cases delayFlag b1 <;> rfl

theorem RowBits.init : RowBits.Statement (.init) := fun _ => RowBits.toRequest_low _

theorem RowBits.runScript (ptr : BitVec 32) : RowBits.Statement (.runScript ptr) := fun _ => RowBits.toRequest_low _

theorem RowBits.setAddrWindow (x0 y0 x1 y1 : Word) : RowBits.Statement (.setAddrWindow x0 y0 x1 y1) := fun _ => RowBits.toRequest_low _

theorem RowBits.setRotation (mode : Byte) : RowBits.Statement (.setRotation mode) := fun _ => RowBits.toRequest_low _

theorem RowBits.drawPixel (x y c : Word) : RowBits.Statement (.drawPixel x y c) := fun _ => RowBits.toRequest_low _

theorem RowBits.drawHLine (x y w c : Word) : RowBits.Statement (.drawHLine x y w c) := fun _ => RowBits.toRequest_low _

theorem RowBits.drawVLine (x y h c : Word) : RowBits.Statement (.drawVLine x y h c) := fun _ => RowBits.toRequest_low _

theorem RowBits.fillRect (x y w h c : Word) : RowBits.Statement (.fillRect x y w h c) := fun _ => RowBits.toRequest_low _

theorem RowBits.drawImage (x y w h : Word) (ptr : BitVec 32) : RowBits.Statement (.drawImage x y w h ptr) := fun _ => RowBits.toRequest_low _

theorem RowBits.drawImageRom (x y w h : Word) (ptr : BitVec 32) : RowBits.Statement (.drawImageRom x y w h ptr) := fun _ => RowBits.toRequest_low _

theorem RowBits.invert (on : Bool) : RowBits.Statement (.invert on) := fun _ => RowBits.toRequest_low _

theorem RowBits.partialMode (on : Bool) : RowBits.Statement (.partialMode on) := fun _ => RowBits.toRequest_low _

theorem RowBits.sleep (on : Bool) : RowBits.Statement (.sleep on) := fun _ => RowBits.toRequest_low _

theorem RowBits.idle (on : Bool) : RowBits.Statement (.idle on) := fun _ => RowBits.toRequest_low _

theorem RowBits.enable (on : Bool) : RowBits.Statement (.enable on) := fun _ => RowBits.toRequest_low _

theorem RowBits.powerSave (mode : Byte) : RowBits.Statement (.powerSave mode) := fun _ => RowBits.toRequest_low _

theorem RowBits.setBrightness (level : Byte) : RowBits.Statement (.setBrightness level) := fun _ => RowBits.toRequest_low _

theorem RowBits.color565 (r g b : Byte) : RowBits.Statement (.color565 r g b) := fun _ => RowBits.toRequest_low _

theorem RowBits.record (cmd : Byte) (args : List Byte) : RowBits.Statement (.record cmd args) := fun _ => by
  show (cmd.toNat + 256 * (cntByte false args.length).toNat) &&& 0x8000 = 0
  rw [RowBits.topBit, delayFlag_cntByte]; rfl

theorem RowBits.recordDelay (cmd : Byte) (args : List Byte) (dly : Byte) :
    RowBits.Statement (.recordDelay cmd args dly) := fun _ => by
  show (cmd.toNat + 256 * (cntByte true args.length).toNat) &&& 0x8000 = 0x8000
  rw [RowBits.topBit, delayFlag_cntByte]; rfl

end Sys2Proof.Laws
end

