-- ==== Sys2Proof/Laws/Script.lean ====
section
/-! SUPPORT. Runs of the initialization FSM: a record, the records of a script, a script, and the steps before script
1. -/

namespace Sys2Proof.Machine

/-- The FSM can move: the sequencer moves and no stream is unfinished. -/
def FsmMoves (s : State) : Prop := SequencerMoves s ∧ s.pending = .none

theorem FsmMoves.congr {s t : State} (h : FsmMoves s) (h1 : t.resetIn = s.resetIn) (h2 : t.fault = s.fault)
    (h3 : t.refused = s.refused) (h4 : t.dmaBusy = s.dmaBusy) (h5 : t.pending = s.pending) : FsmMoves t := by
  obtain ⟨⟨a, b, c, d⟩, e⟩ := h
  exact ⟨⟨h1.trans a, h2.trans b, h3.trans c, h4.trans d⟩, h5.trans e⟩

theorem FsmMoves.row {s t : State} (h : FsmMoves s) (hi : s.seq ≠ .idle) (hc : s.seq ≠ .cmd)
    (hr : fsmRow s = .next t) : step s = .next t := by
  rw [step_row h.1 h.2 hi hc, hr]

/-! Records. -/

theorem runRecord_eq {s : State} {p : Nat} {n : Byte} (cmd : Byte) (args : List Byte) (dly : Option Byte)
    (hp : s.sp = some p) (hn : s.ncmd = some n) :
    runRecord cmd args dly s = .next { s with
      trace := s.trace ++ recordEvents cmd args (dly.map delayMs)
      cs := some true, dc := some true, cmd := some cmd, nargs := some 0, dflag := some dly.isSome
      sp := some (p + 2 + args.length + dly.toList.length)
      ncmd := some (n - 1), seq := if n - 1 = 0 then .next else .cmd } := by
  simp only [runRecord, hp, rowRecDone, State.emitAll_ncmd, hn]
  rw [State.emitAll_eq]
  simp [State.levels]

theorem cntByte_argCount {cnt : Byte} {f : Bool} {n : Nat} (hf : delayFlag cnt = f) (hn : n = (argCount cnt).toNat) :
    cntByte f n = cnt := by
  subst hf hn
  revert cnt
  decide

/-- What a record that decodes does, and the bytes it takes. -/
theorem exec_record {bytes rest : List Byte} {i : Instr} (h : decodeRecord bytes = .ok (i, rest)) {s : State} {p : Nat}
    {n : Byte} (hp : s.sp = some p) (hn : s.ncmd = some n) :
    ∃ cmd dflag, exec i s = .next { s with
      trace := s.trace ++ recordTrace i
      cs := some true, dc := some true, cmd := some cmd, nargs := some 0, dflag := some dflag
      sp := some (p + i.recordBytes.length)
      ncmd := some (n - 1), seq := if n - 1 = 0 then .next else .cmd } ∧ bytes = i.recordBytes ++ rest := by
  rcases decodeRecord_cases h with ⟨cmd, cnt, args, rfl, hf, hl, rfl⟩ | ⟨cmd, cnt, args, dly, rfl, hf, hl, rfl⟩
  · refine ⟨cmd, false, ?_, by simp [Instr.recordBytes, cntByte_argCount hf hl]⟩
    rw [exec, execRecord, runRecord_eq _ _ _ hp hn]
    simp [recordTrace, Instr.recordBytes]
    omega
  · refine ⟨cmd, true, ?_, by simp [Instr.recordBytes, cntByte_argCount hf hl]⟩
    rw [exec, execRecordDelay, runRecord_eq _ _ _ hp hn]
    simp [recordTrace, Instr.recordBytes]
    omega

/-- The `n ≥ 1` records left of a script, from SQ_CMD to SQ_NEXT. -/
theorem reaches_records (n : Nat) {s : State} {p : Nat} {records : List Instr} {rest : List Byte} (h0 : 0 < n)
    (hn : n < 256) (h : FsmMoves s) (hq : s.seq = .cmd) (hp : s.sp = some p) (hc : s.ncmd = some (BitVec.ofNat 8 n))
    (hd : decodeRecords n (s.cfg.scriptRom.drop p) = .ok (records, rest)) :
    ∃ k cmd dflag, Reaches k s { s with
      trace := s.trace ++ records.flatMap recordTrace
      cs := some true, dc := some true, cmd := some cmd, nargs := some 0, dflag := some dflag
      sp := some (p + (records.flatMap Instr.recordBytes).length), ncmd := some 0, seq := .next } := by
  induction n generalizing s p records with
  | zero => exact absurd h0 (by omega)
  | succ n ih =>
    rw [decodeRecords] at hd
    split at hd
    · cases hd
    next i mid hi =>
      split at hd
      · cases hd
      next js last hj =>
        cases hd
        obtain ⟨cmd, df, he, hb⟩ := exec_record hi hp hc
        have h1 := step_record h.1 h.2 hq hp hi
        have e0 : (BitVec.ofNat 8 (n + 1) - 1 : Byte) = BitVec.ofNat 8 n := by
          apply BitVec.eq_of_toNat_eq; simp; omega
        rw [he, e0] at h1
        by_cases hz : n = 0
        · subst hz
          simp only [decodeRecords, Except.ok.injEq, Prod.mk.injEq] at hj
          obtain ⟨rfl, rfl⟩ := hj
          refine ⟨1, cmd, df, reaches_one ?_⟩
          rw [h1]; simp
        · have hne : ¬ (BitVec.ofNat 8 n = (0 : Byte)) := by
            intro e; have := congrArg BitVec.toNat e; simp at this; omega
          rw [if_neg hne] at h1
          have hmid : s.cfg.scriptRom.drop (p + i.recordBytes.length) = mid := by
            rw [← List.drop_drop, hb, List.drop_left]
          obtain ⟨k, cmd', df', hk⟩ := ih (s := { s with
              trace := s.trace ++ recordTrace i
              cs := some true, dc := some true, cmd := some cmd, nargs := some 0, dflag := some df
              sp := some (p + i.recordBytes.length), ncmd := some (BitVec.ofNat 8 n), seq := .cmd })
            (by omega) (by omega) h rfl rfl rfl (by simpa only [hmid] using hj)
          refine ⟨k + 1, cmd', df', reaches_succ h1 ?_⟩
          convert hk using 1
          simp [Nat.add_assoc]

/-- A whole script, from SQ_HDR to SQ_NEXT. -/
theorem reaches_script {s : State} {id : ScriptId} {a : Nat} {records : List Instr} (h : FsmMoves s)
    (hq : s.seq = .hdr) (hid : s.script = some id) (ha : scriptStart s id = some a)
    (hs : scriptAt s.cfg a = some records) :
    ∃ k cmd dflag nargs dc cs, (s.cs = some true → cs = some true) ∧ Reaches k s { s with
      trace := s.trace ++ records.flatMap recordTrace
      cs := cs, dc := dc, cmd := cmd, nargs := nargs, dflag := dflag
      sp := some (a + 1 + (records.flatMap Instr.recordBytes).length), ncmd := some 0, seq := .next } := by
  unfold scriptAt at hs
  split at hs
  next rs rest hd =>
    cases hs
    unfold decodeScript at hd
    split at hd
    next ncmd more hm =>
      have hget : s.cfg.scriptRom[a]? = some ncmd := by simpa [List.head?_drop] using congrArg List.head? hm
      have hmore : s.cfg.scriptRom.drop (a + 1) = more := by simpa using congrArg List.tail hm
      have h1 : step s = .next { s with
          sp := some (a + 1), ncmd := some ncmd, seq := if ncmd = 0 then .next else .cmd } := by
        refine h.row (by simp [hq]) (by simp [hq]) ?_
        simp only [fsmRow, hq, rowHdr, hid, ha]
        simp [rd, hget]
      by_cases hz : ncmd = 0
      · subst hz
        simp [decodeRecords] at hd
        obtain ⟨rfl, rfl⟩ := hd
        refine ⟨1, s.cmd, s.dflag, s.nargs, s.dc, s.cs, fun e => e, reaches_one ?_⟩
        rw [h1]; simp
      · have hpos : 0 < ncmd.toNat :=
          Nat.pos_of_ne_zero fun e => hz (BitVec.eq_of_toNat_eq (by simpa using e))
        obtain ⟨k, cmd, df, hk⟩ := reaches_records ncmd.toNat
          (s := { s with sp := some (a + 1), ncmd := some ncmd, seq := .cmd }) (p := a + 1) (records := records)
          (rest := rest) hpos ncmd.isLt h rfl rfl (by simp) (by simp [hmore, hd])
        rw [if_neg hz] at h1
        exact ⟨k + 1, some cmd, some df, some 0, some true, some true, fun _ => rfl, reaches_succ h1 hk⟩
    next => cases hd
  next => cases hs

/-- A script that starts with the bus deselected, and its SQ_NEXT row. -/
theorem reaches_next {s : State} {id : ScriptId} {a : Nat} {records : List Instr} (h : FsmMoves s) (hq : s.seq = .hdr)
    (hid : s.script = some id) (ha : scriptStart s id = some a) (hs : scriptAt s.cfg a = some records)
    (hc : s.cs = some true) :
    ∃ k dc cmd nargs dflag sp ncmd, Reaches k s (rowNext { s with
      trace := s.trace ++ records.flatMap recordTrace
      dc := dc, cmd := cmd, nargs := nargs, dflag := dflag, sp := sp, ncmd := ncmd, seq := .next }) := by
  obtain ⟨k, cmd, df, na, dc, cs, hcs, r⟩ := reaches_script h hq hid ha hs
  obtain rfl := hcs hc
  generalize hu : ({ s with
      trace := s.trace ++ records.flatMap recordTrace
      cs := some true, dc := dc, cmd := cmd, nargs := na, dflag := df
      sp := some (a + 1 + (records.flatMap Instr.recordBytes).length), ncmd := some 0, seq := .next } : State) = u at r
  have hF : FsmMoves u := by subst hu; exact h.congr rfl rfl rfl rfl rfl
  have hu1 : step u = .next (rowNext u) := by
    have hn : u.seq = .next := by subst hu; rfl
    exact hF.row (by simp [hn]) (by simp [hn]) (by simp [fsmRow, hn])
  refine ⟨k + 1, dc, cmd, na, df, some (a + 1 + (records.flatMap Instr.recordBytes).length), some 0, ?_⟩
  have e := reaches_trans r (reaches_one hu1)
  subst hu
  simpa [hc] using e

/-! The steps before script 1. -/

theorem rowSession_eq (s : State) :
    rowSession s =
      if s.cfg.rstPresent then { s with
        seq := .rst1, session := true, cs := some true, ws := some .w8, trace := s.trace ++ sessionEvents s }
      else { s with
        seq := .hdr, script := some .one, session := true, cs := some true, ws := some .w8
        trace := s.trace ++ sessionEvents s } := by
  simp only [rowSession, emitAll_sessionEvents, toScript1]

/-- The session step and the reset pulse, from SQ_SESSION to SQ_HDR. -/
theorem reaches_start {s : State} (h : FsmMoves s) (hq : s.seq = .session) :
    ∃ k, Reaches k s { s with
      seq := .hdr, script := some .one, session := true, cs := some true, ws := some .w8
      rst := (if s.cfg.rstPresent then some true else s.rst)
      trace := s.trace ++ (sessionEvents s ++ resetPulse s.cfg) } := by
  have t0 := h.row (t := rowSession s) (by simp [hq]) (by simp [hq]) (by simp [fsmRow, hq])
  rw [rowSession_eq] at t0
  by_cases hr : s.cfg.rstPresent = true
  · rw [if_pos hr] at t0
    generalize hv : ({ s with
      seq := .rst1, session := true, cs := some true, ws := some .w8
      trace := s.trace ++ sessionEvents s } : State) = v at t0
    have hF : FsmMoves v := by subst hv; exact h
    have hq1 : v.seq = .rst1 := by subst hv; rfl
    have t1 := hF.row (t := rowRst1 v) (by simp [hq1]) (by simp [hq1]) (by simp [fsmRow, hq1])
    rw [rowRst1_eq] at t1
    have t2 := FsmMoves.row (s := { v with
      rst := some true, seq := .rst2, trace := v.trace ++ [.rst true, .delay 50] }) hF (by simp) (by simp) rfl
    rw [rowRst2_eq] at t2
    have t3 := FsmMoves.row (s := { v with
      rst := some false, seq := .rst3, trace := v.trace ++ [.rst true, .delay 50] ++ [.rst false, .delay 50] })
      hF (by simp) (by simp) rfl
    rw [rowRst3_eq] at t3
    refine ⟨4, ?_⟩
    convert reaches_succ t0 (reaches_succ t1 (reaches_succ t2 (reaches_one t3))) using 1
    subst hv
    simp [hr, resetPulse]
  · rw [if_neg hr] at t0
    refine ⟨1, ?_⟩
    convert reaches_one t0 using 1
    simp [hr, resetPulse]

/-! Configuration premises. -/

/-- SLEEPOUT_FIRST holds of records that have a delayed sleep-out record with no gamma or power record before it. -/
theorem sleepoutFirst_of_front {gammaOrPower sleepOut : Byte → Bool} {front back records : List Instr} {c : Byte}
    {args : List Byte} {dly : Byte} (hr : records = front ++ .recordDelay c args dly :: back)
    (hf : (Instr.recordDelay c args dly :: front).all (fun i => match i with
      | .record b _ => !gammaOrPower b
      | .recordDelay b _ _ => !gammaOrPower b
      | _ => true) = true) (hs : sleepOut c = true) : SleepoutFirst gammaOrPower sleepOut records := by
  rintro before i after e hg
  refine ⟨c, args, dly, ?_, hs⟩
  rw [List.all_eq_true] at hf
  have bad : i ∉ Instr.recordDelay c args dly :: front := fun hi => by
    rcases hg with ⟨b, as, ⟨rfl, hb⟩ | ⟨d, rfl, hb⟩⟩ <;> simpa [hb] using hf _ hi
  subst hr
  rcases List.append_eq_append_iff.1 e with ⟨mid, rfl, h⟩ | ⟨mid, rfl, h⟩
  · cases mid with
    | nil => simp only [List.nil_append, List.cons.injEq] at h; exact absurd (by simp [← h.1]) bad
    | cons j mid => simp only [List.cons_append, List.cons.injEq] at h; simp [h.1]
  · cases mid with
    | nil => simp only [List.nil_append, List.cons.injEq] at h; exact absurd (by simp [h.1]) bad
    | cons j mid => simp only [List.cons_append, List.cons.injEq] at h; exact absurd (by simp [h.1]) bad

end Sys2Proof.Machine
end

