-- ==== Sys2Proof/Laws/Stream.lean ====
section
/-! SUPPORT. The chunks of a stream, and the run of a stream on the DMA path. -/

namespace Sys2Proof.Machine

theorem chunksFuel_congr {limit : Nat} (hl : 0 < limit) (f g n : Nat) (hf : n ≤ f) (hg : n ≤ g) :
    chunksFuel limit f n = chunksFuel limit g n := by
  induction f generalizing g n with
  | zero =>
    obtain rfl : n = 0 := by omega
    cases g <;> simp [chunksFuel]
  | succ f ih =>
    cases g with
    | zero =>
      obtain rfl : n = 0 := by omega
      simp [chunksFuel]
    | succ g =>
      simp only [chunksFuel]
      split
      · rfl
      · rw [ih g _ (by omega) (by omega)]

theorem chunks_zero (c : Config) : chunks c 0 = [] := rfl

/-- The first chunk of a stream, and the rest (42_transfer R210). -/
theorem chunks_cons (c : Config) {n : Nat} (h : n ≠ 0) :
    chunks c n = min n c.maxChunk :: chunks c (n - min n c.maxChunk) := by
  have hp := c.maxChunk.pos
  unfold chunks
  cases n with
  | zero => exact absurd rfl h
  | succ m =>
    conv_lhs => unfold chunksFuel
    simp only [h, if_false]
    rw [chunksFuel_congr hp m (m + 1 - min (m + 1) c.maxChunk) _ (by omega) (by omega)]

theorem usesDma_false {c : Config} {n : Nat} (h : c.dmaPresent = false ∨ n ≤ c.dmaThreshold) :
    usesDma c n = false := by
  simp only [usesDma]
  rcases h with h | h <;> simp [h]

/-- The events of a stream on the DMA path (R210, R212). -/
def dmaEvents (c : Config) (v : Word) (n : Nat) : List Event :=
  (chunks c n).flatMap fun k => [.dmaStart v k, .dmaDone]

theorem dmaEvents_cons (c : Config) (v : Word) {n : Nat} (h : n ≠ 0) :
    dmaEvents c v n =
      [.dmaStart v (min n c.maxChunk), .dmaDone] ++ dmaEvents c v (n - min n c.maxChunk) := by
  simp [dmaEvents, chunks_cons c h]

/-- From the sequencer's wait, with no transfer in flight, to the end of the request. -/
theorem reaches_endOfStream (v : Word) (fuel left : Nat) {s : State} (hl : left ≤ fuel) (hm : SequencerMoves s)
    (hp : s.pending = .rep v left) (hv : s.dmaVal = some v) (hr : s.dmaRem = 0) :
    ∃ k, Reaches k s (closeStream { s with
      pending := .none, trace := s.trace ++ dmaEvents s.cfg v left }) := by
  induction fuel generalizing left s with
  | zero =>
    obtain rfl : left = 0 := by omega
    refine ⟨1, reaches_one ?_⟩
    rw [step_moves hm]
    simp [sequencerMove, hp, resumeRep, dmaEvents, chunks_zero]
  | succ fuel ih =>
    by_cases h0 : left = 0
    · subst h0
      refine ⟨1, reaches_one ?_⟩
      rw [step_moves hm]
      simp [sequencerMove, hp, resumeRep, dmaEvents, chunks_zero]
    · have s1 : step s = .next (dmaChunk s v left) := by
        rw [step_moves hm]; simp [sequencerMove, hp, resumeRep, h0]
      obtain ⟨m1, m2, m3, m4⟩ := hm
      have s2 : step (dmaChunk s v left) = .next (dmaAgent (dmaChunk s v left)) := by
        apply step_agent <;> simp [dmaChunk_eq, m1, m2, m3]
      have pos := s.cfg.maxChunk.pos
      obtain ⟨k, hk⟩ := ih (left - min left s.cfg.maxChunk) (s := dmaAgent (dmaChunk s v left)) (by omega)
        (by simp [SequencerMoves, dmaChunk_eq, dmaAgent_eq, m1, m2, m3]) (by simp [dmaAgent_eq, dmaChunk_eq])
        (by simp [dmaAgent_eq, dmaChunk_eq]) (by simp [dmaAgent_eq])
      refine ⟨k + 1 + 1, reaches_succ s1 (reaches_succ s2 ?_)⟩
      convert hk using 1
      simp [dmaAgent_eq, dmaChunk_eq, dmaEvents_cons s.cfg v h0, hv, hr, m4]

/-- A stream on the DMA path, from its first chunk to the end of its request. -/
theorem reaches_stream {s : State} {xs ys : Word} {x0 y0 x1 y1 : Int} {v : Word} {n : Nat} (hn : n ≠ 0)
    (ha : Accepts s) :
    ∃ k, Reaches k (dmaChunk (openWindow s xs ys x0 y0 x1 y1) v n) { drawn s
        (drawTrace s.cfg xs ys x0 y0 x1 y1 (dmaEvents s.cfg v n)) with
      dmaVal := some v, dmaRem := 0 } := by
  obtain ⟨⟨m1, m2, m3, m4⟩, h5, h6, h7⟩ := ha
  generalize hu : dmaChunk (openWindow s xs ys x0 y0 x1 y1) v n = u
  rw [openWindow_eq, dmaChunk_eq] at hu
  have s2 : step u = .next (dmaAgent u) := by apply step_agent <;> simp [← hu, m1, m2, m3]
  obtain ⟨k, hk⟩ := reaches_endOfStream v (n - min n s.cfg.maxChunk) _ (s := dmaAgent u) le_rfl
    (by simp [SequencerMoves, ← hu, dmaAgent_eq, m1, m2, m3]) (by simp [dmaAgent_eq, ← hu])
    (by simp [dmaAgent_eq, ← hu]) (by simp [dmaAgent_eq])
  refine ⟨k + 1, reaches_succ s2 ?_⟩
  convert hk using 1
  simp [dmaAgent_eq, ← hu, dmaEvents_cons s.cfg v hn, closeStream_eq, drawn, drawTrace, m4, h5]

end Sys2Proof.Machine
end

