-- ==== Sys2Proof/Tests/Slice0.lean ====
section
/-! SUPPORT. Tests of the model, with expected values from spec/95_test_vectors.md and the rules' own examples, and a
witness for the hypotheses of every statement. -/

namespace Sys2Proof.Tests

open Sys2Proof.Machine

/-! The reference configuration CFG_REF (95_test_vectors 0.1) and the states the tests start from. -/

def rom1 : List Byte := [
  0x0F, 0x01, 0x80, 0x96, 0x11, 0x80, 0xFF, 0xB1, 0x03, 0x01, 0x2C, 0x2D, 0xB2, 0x03, 0x01, 0x2C, 0x2D, 0xB3, 0x06,
  0x01, 0x2C, 0x2D, 0x01, 0x2C, 0x2D, 0xB4, 0x01, 0x07, 0xC0, 0x03, 0xA2, 0x02, 0x84, 0xC1, 0x01, 0xC5, 0xC2, 0x02,
  0x0A, 0x00, 0xC3, 0x02, 0x8A, 0x2A, 0xC4, 0x02, 0x8A, 0xEE, 0xC5, 0x01, 0x0E, 0x20, 0x00, 0x36, 0x01, 0xC8, 0x3A,
  0x01, 0x05]

def rom2 : List Byte := [0x02, 0x2A, 0x04, 0x00, 0x00, 0x00, 0x7F, 0x2B, 0x04, 0x00, 0x00, 0x00, 0x9F]

def rom3 : List Byte := [
  0x04, 0xE0, 0x10, 0x02, 0x1C, 0x07, 0x12, 0x37, 0x32, 0x29, 0x2D, 0x29, 0x25, 0x2B, 0x39, 0x00, 0x01, 0x03, 0x10,
  0xE1, 0x10, 0x03, 0x1D, 0x07, 0x06, 0x2E, 0x2C, 0x29, 0x2D, 0x2E, 0x2E, 0x37, 0x3F, 0x00, 0x00, 0x02, 0x10, 0x13,
  0x80, 0x0A, 0x29, 0x80, 0x64]

def noSettle : SettlePair := { off := none, on := none }

def cfgRef : Config where
  panelW := 128
  panelH := 160
  colStart := 0
  rowStart := 0
  rstPresent := true
  scriptRom := rom1 ++ rom2 ++ rom3
  scriptAddr1 := 0
  scriptAddr2 := 59
  scriptAddr3 := 72
  initRotation := 0
  madctl0 := 0xC0
  madctl1 := 0xA0
  madctl2 := 0x00
  madctl3 := 0x60
  xyStartSwap := true
  cmdCaset := 0x2A
  cmdRaset := 0x2B
  cmdRamwr := 0x2C
  cmdMadctl := 0x36
  cmdInvOn := 0x21
  cmdInvOff := 0x20
  cmdPtlOn := 0x12
  cmdNorOn := 0x13
  cmdSlpIn := 0x10
  cmdSlpOut := 0x11
  cmdIdmOn := 0x39
  cmdIdmOff := 0x38
  cmdDispOn := 0x29
  cmdDispOff := 0x28
  settle :=
    { invert := noSettle, partialMode := noSettle, sleep := { off := none, on := some 5 }, idle := noSettle,
      enable := noSettle }
  pwrSave := [(0, { cmd := 0x38, settle := none }), (1, { cmd := 0x39, settle := none })]
  maxChunk := 8192
  dmaPresent := false
  dmaThreshold := 64
  spiClock := 0
  spiMode := 0
  coordFormat := .bytesHiLo
  negOrigin := .noop
  hostEndian := .little
  addrW := 32

/-- V-INIT-1: no reset line and three empty scripts. -/
def cfgEmpty : Config :=
  { cfgRef with rstPresent := false, scriptRom := [0, 0, 0], scriptAddr1 := 0, scriptAddr2 := 1, scriptAddr3 := 2 }

/-- The DMA facility, with chunks of at most 40 words. -/
def cfgDma : Config := { cfgRef with dmaPresent := true, maxChunk := 40 }

/-- The fields an `INIT` leaves (V-INIT-3), with the shortest trace that has its levels. -/
def ready (c : Config) : State :=
  { State.resetWith c with
    initialized := true, rotation := some 0, width := some 128, height := some 160
    xStart := some c.colStart, yStart := some c.rowStart, ws := some .w16, session := true
    cs := some true, dc := some true, rst := some true
    trace := [.rst true, .setWs .w16, .dc true, .cs true] }

/-- The state of a script record `bytes` at address 0 of the ROM, with `n` records left. -/
def atRecord (bytes : List Byte) (n : Byte) : State :=
  { ready { cfgRef with scriptRom := bytes } with
    busy := true, seq := .cmd, script := some .x, sp := some 0, ncmd := some n, ws := some .w8
    trace := [.rst true, .setWs .w8, .dc true, .cs true] }

/-- The state an outcome answers, if it is a next state. -/
def nextOf : Outcome → Option State
  | .next t => some t
  | .fault _ => none
  | .refused _ => none

/-- The events an instruction adds to the trace of a state. -/
def eventsOf (i : Instr) (s : State) : Option (List Event) :=
  (nextOf (exec i s)).map fun t => t.trace.drop s.trace.length

/-- The model fault an instruction records. -/
def faultOf (i : Instr) (s : State) : Option (Option FaultRecord × Bool × List Event) :=
  (nextOf (exec i s)).map fun t => (t.fault, t.busy, t.trace.drop s.trace.length)

/-- `WIN` of 95_test_vectors 0.2: the 18 events, from the four coordinates' bytes, high before low. -/
def win (x0h x0l x1h x1l y0h y0l y1h y1l : Word) : List Event :=
  [.setWs .w8, .dc false, .w 0x2A, .dc true, .w x0h, .w x0l, .w x1h, .w x1l,
   .dc false, .w 0x2B, .dc true, .w y0h, .w y0l, .w y1h, .w y1l, .dc false, .w 0x2C, .dc true]

/-- A bracket's opening, its window and the events after it. -/
def bracket (window rest : List Event) : List Event := .cs false :: (window ++ rest)

/-! WellFormed. -/

theorem test_record_of_128_arguments_refused : Instr.wellFormed (.record 0 (List.replicate 128 0)) = false := by
  simp [Instr.wellFormed, argsFit]
theorem test_delayed_record_of_128_arguments_refused :
    Instr.wellFormed (.recordDelay 0 (List.replicate 128 0) 0) = false := by
  simp [Instr.wellFormed, argsFit]
theorem test_record_of_127_arguments_accepted :
    Instr.wellFormed (.record 0 (List.replicate 127 0)) = true ∧
      Instr.wellFormed (.recordDelay 0 (List.replicate 127 0) 0) = true := by
  simp [Instr.wellFormed, argsFit]

/-! Decoding, from the words of 95_test_vectors 2.1 and 2.2. -/

theorem test_decode_init : decodeRequest 0x00000000000000000000000000000001 = .ok .init := by decide
/-- R101: a field the request does not use changes nothing. -/
theorem test_decode_init_unused : decodeRequest 0xDEADBEEF000000000000000000000001 = .ok .init := by decide
theorem test_decode_runScript :
    decodeRequest 0x00000048000000000000000000000002 = .ok (.runScript 72) := by decide
theorem test_decode_setAddrWindow :
    decodeRequest 0x00000000000000040003000200010003 = .ok (.setAddrWindow 1 2 3 4) := by decide
theorem test_decode_setRotation :
    decodeRequest 0x00000000000000000000000000000504 = .ok (.setRotation 5) := by decide
theorem test_decode_drawPixel :
    decodeRequest 0x00000000F80000000000000500030005 = .ok (.drawPixel 3 5 0xF800) := by decide
theorem test_decode_drawHLine :
    decodeRequest 0x0000000012340000000A0000FFFD0006 = .ok (.drawHLine 0xFFFD 0 10 0x1234) := by decide
theorem test_decode_drawVLine :
    decodeRequest 0x00000000FFFF00000004007F00050007 = .ok (.drawVLine 5 127 4 0xFFFF) := by decide
theorem test_decode_fillRect :
    decodeRequest 0x0000000033330008000AFFFBFFFB0008 = .ok (.fillRect 0xFFFB 0xFFFB 10 8 0x3333) := by decide
theorem test_decode_drawImage :
    decodeRequest 0x200000000000000100020000007F0009 = .ok (.drawImage 127 0 2 1 0x20000000) := by decide
theorem test_decode_drawImageRom :
    decodeRequest 0x0000004000000002000200000000000A = .ok (.drawImageRom 0 0 2 2 0x40) := by decide
theorem test_decode_invert : decodeRequest 0x00000000000000000000000000000110 = .ok (.invert true) := by decide
/-- R103: any nonzero M is on. -/
theorem test_decode_invert_nonzero :
    decodeRequest 0x00000000000000000000000000008010 = .ok (.invert true) := by decide
theorem test_decode_partialMode :
    decodeRequest 0x00000000000000000000000000000011 = .ok (.partialMode false) := by decide
theorem test_decode_sleep : decodeRequest 0x00000000000000000000000000000112 = .ok (.sleep true) := by decide
theorem test_decode_idle : decodeRequest 0x00000000000000000000000000000113 = .ok (.idle true) := by decide
theorem test_decode_enable : decodeRequest 0x00000000000000000000000000000014 = .ok (.enable false) := by decide
theorem test_decode_powerSave : decodeRequest 0x00000000000000000000000000000715 = .ok (.powerSave 7) := by decide
theorem test_decode_setBrightness :
    decodeRequest 0x0000000000000000000000000000C816 = .ok (.setBrightness 200) := by decide
theorem test_decode_color565 :
    decodeRequest 0x00000000000000000056003401F80020 = .ok (.color565 0xF8 0x34 0x56) := by decide
theorem test_decode_reserved :
    [0x00, 0x0B, 0x0F, 0x17, 0x1F, 0x21, 0x30, 0xFF].all (fun op : Nat =>
      decide (decodeRequest (BitVec.ofNat 128 op) = .error (.reservedOpcode (BitVec.ofNat 8 op)))) = true := by decide
theorem test_decode_record :
    decodeRecord [0x3A, 0x01, 0x05, 0x77] = .ok (.record 0x3A [0x05], [0x77]) := by decide
theorem test_decode_recordDelay :
    decodeRecord [0xC0, 0x83, 0xA2, 0x02, 0x84, 0x0A] = .ok (.recordDelay 0xC0 [0xA2, 0x02, 0x84] 0x0A, []) := by decide
theorem test_decode_truncated :
    decodeRecord [0xC0, 0x83, 0xA2, 0x02, 0x84] = .error .truncatedRecord ∧
      decodeRecord [0xC0] = .error .truncatedRecord := by decide

/-! The assembler (R121 to R123). -/

theorem test_assemble_line :
    assembleRequest "DRAW_HLINE -3, 0, 10, #0x1234".toList = some 0x0000000012340000000A0000FFFD0006 := by decide
theorem test_assemble_fillScreen :
    assembleRequest "FILL_SCREEN #0x0000".toList = some 0x0000000000007FFF7FFF000000000008 := by decide
theorem test_assemble_script :
    assembleScriptText [".script".toList, "CMD 0x13 ; DELAY 10".toList, "CMD 0x29 ; DELAY 500".toList, ".end".toList] =
      some [0x02, 0x13, 0x80, 0x0A, 0x29, 0x80, 0xFF] := by decide
theorem test_assemble_delay_255 : assembleScriptLine "CMD 0x29 ; DELAY 255".toList = none := by decide

/-! One step of each instruction. -/

theorem test_init_enters_fsm :
    (nextOf (exec .init (ready cfgRef))).map (fun t => (t.busy, t.initialized, t.seq)) =
      some (true, false, .session) := by decide
/-- R141: the session step of a repeated `INIT` sends SET_WS(8), the first one SESSION_BEGIN. -/
theorem test_init_session :
    (nextOf (step { State.resetWith cfgEmpty with busy := true, seq := .session })).map State.trace =
      some [.sessionBegin 0 .msbFirst 0 .w8, .cs true] ∧
    (nextOf (step { ready cfgEmpty with busy := true, seq := .session, trace := [] })).map State.trace =
      some [.setWs .w8, .cs true] := by decide
theorem test_runScript_enters_fsm :
    (nextOf (exec (.runScript 72) (ready cfgRef))).map (fun t => (t.busy, t.seq, t.script, t.sp)) =
      some (true, .hdr, some .x, some 72) ∧
    eventsOf (.runScript 72) (ready cfgRef) = some [.setWs .w8] := by decide
/-- V-RUN-5. -/
theorem test_runScript_before_init :
    faultOf (.runScript 72) (State.resetWith cfgRef) =
      some (some { reason := .notInitialized, op := 0x02, info := .none }, true, []) := by decide
/-- R180's two vectors, one for each coordinate format. -/
theorem test_setAddrWindow :
    eventsOf (.setAddrWindow 300 0 301 1) (ready cfgRef) =
      some (bracket (win 1 0x2C 1 0x2D 0 0 0 1)
        [.setWs .w16, .cs true, .resp .ok 0]) ∧
    eventsOf (.setAddrWindow 300 0 301 1) (ready { cfgRef with coordFormat := .zeroHiLow8 }) =
      some (bracket (win 0 0x2C 0 0x2D 0 0 0 1)
        [.setWs .w16, .cs true, .resp .ok 0]) := by decide
theorem test_setAddrWindow_wraps :
    eventsOf (.setAddrWindow 65535 0 65535 0) (ready { cfgRef with colStart := 2 }) =
      some (bracket (win 0 1 0 1 0 0 0 0)
        [.setWs .w16, .cs true, .resp .ok 0]) := by decide
theorem test_setRotation :
    eventsOf (.setRotation 255) (ready cfgRef) =
      some [.cs false, .setWs .w8, .dc false, .w 0x36, .dc true, .w 0x60, .setWs .w16, .cs true, .resp .ok 0] := by
  decide
/-- 2.5: rotation 1 with offsets 2 and 1, swapped. -/
theorem test_setRotation_geometry :
    (nextOf (exec (.setRotation 5) (ready { cfgRef with colStart := 2, rowStart := 1 }))).map
      (fun t => (t.rotation, t.width, t.height, t.xStart, t.yStart)) =
      some (some 1, some 160, some 128, some 1, some 2) := by decide
theorem test_drawPixel :
    eventsOf (.drawPixel 3 5 0xF800) (ready cfgRef) =
      some (bracket (win 0 3 0 3 0 5 0 5)
        [.setWs .w16, .w 0xF800, .cs true, .resp .ok 0]) := by decide
theorem test_drawPixel_outside :
    [eventsOf (.drawPixel 0xFFFF 0 1) (ready cfgRef), eventsOf (.drawPixel 128 0 1) (ready cfgRef),
      eventsOf (.drawPixel 0 0xFFFF 1) (ready cfgRef), eventsOf (.drawPixel 0 160 1) (ready cfgRef)] =
      List.replicate 4 (some [.resp .ok 0]) := by decide
/-- E6. -/
theorem test_drawHLine_clamps :
    eventsOf (.drawHLine 120 0 20 0x001F) (ready cfgRef) =
      some (bracket (win 0 120 0 127 0 0 0 0)
        [.setWs .w16, .wrep 0x001F 8, .cs true, .resp .ok 0]) := by decide
theorem test_drawHLine_degrades :
    eventsOf (.drawHLine 127 3 5 0x001F) (ready cfgRef) =
      some (bracket (win 0 0x7F 0 0x7F 0 3 0 3)
        [.setWs .w16, .w 0x001F, .cs true, .resp .ok 0]) := by decide
/-- R216's example: rotation 1, where H is 128. -/
theorem test_drawVLine_clamps :
    eventsOf (.drawVLine 0 100 50 0xFFFF) { ready cfgRef with width := some 160, height := some 128 } =
      some (bracket (win 0 0 0 0 0 100 0 127)
        [.setWs .w16, .wrep 0xFFFF 28, .cs true, .resp .ok 0]) := by decide
/-- The DMA path: the first chunk, with the rest of the stream waiting. -/
theorem test_drawVLine_dma :
    (nextOf (exec (.drawVLine 0 0 65 0x1111) (ready cfgDma))).map
      (fun t => (t.trace.drop 23, t.dmaBusy, t.dmaRem, t.pending, t.busy)) =
      some ([.setWs .w16, .dmaStart 0x1111 40], true, 40, .rep 0x1111 25, true) := by decide
/-- E9. -/
theorem test_fillRect_clips :
    eventsOf (.fillRect 126 0 4 1 0xF800) (ready cfgRef) =
      some (bracket (win 0 126 0 127 0 0 0 0)
        [.setWs .w16, .wrep 0xF800 2, .cs true, .resp .ok 0]) := by decide
/-- E3: a full screen in chunks of 8192. -/
theorem test_fillRect_chunks :
    eventsOf (fillScreen 0) (ready cfgRef) =
      some (bracket (win 0 0 0 127 0 0 0 159)
        [.setWs .w16, .wrep 0 8192, .wrep 0 8192, .wrep 0 4096, .cs true, .resp .ok 0]) := by decide
/-- E9: the image is not clipped. -/
theorem test_drawImage :
    eventsOf (.drawImage 126 0 4 1 0x100)
      { ready cfgRef with ram := Memory.fill [] 0x100 [0x00, 0xF8, 0xE0, 0x07, 0x1F, 0x00, 0xFF, 0xFF] } =
      some (bracket (win 0 126 0 129 0 0 0 0)
        [.setWs .w16, .wbuf .ram 0x100 [0xF800, 0x07E0, 0x001F, 0xFFFF], .cs true, .resp .ok 0]) := by decide
theorem test_drawImage_misaligned :
    faultOf (.drawImage 0 0 1 1 0x101) (ready cfgRef) =
      some (some { reason := .misaligned, op := 0x09, info := .address 0x101 }, true, []) := by decide
/-- R219's example, in a big-endian host's memory. -/
theorem test_drawImageRom :
    eventsOf (.drawImageRom 0 0 2 1 0x40)
      { ready { cfgRef with hostEndian := .big } with rostore := Memory.fill [] 0x40 [0x12, 0x34, 0x56, 0x78] } =
      some (bracket (win 0 0 0 1 0 0 0 0)
        [.setWs .w16, .wbuf .rostore 0x40 [0x1234, 0x5678], .cs true, .resp .ok 0]) := by decide
theorem test_drawImageRom_noop_before_alignment :
    faultOf (.drawImageRom 0 0 0 5 0x101) { ready cfgRef with busy := false } =
      some (none, false, [.resp .ok 0]) := by decide
theorem test_invert :
    eventsOf (.invert true) (ready cfgRef) =
      some [.cs false, .setWs .w8, .dc false, .w 0x21, .setWs .w16, .cs true, .resp .ok 0] := by decide
theorem test_partialMode :
    eventsOf (.partialMode false) (ready cfgRef) =
      some [.cs false, .setWs .w8, .dc false, .w 0x13, .setWs .w16, .cs true, .resp .ok 0] := by decide
/-- R262's example. -/
theorem test_sleep :
    eventsOf (.sleep true) (ready cfgRef) =
      some [.cs false, .setWs .w8, .dc false, .w 0x10, .setWs .w16, .cs true, .delay 5, .resp .ok 0] := by decide
theorem test_idle :
    eventsOf (.idle true) (ready cfgRef) =
      some [.cs false, .setWs .w8, .dc false, .w 0x39, .setWs .w16, .cs true, .resp .ok 0] := by decide
theorem test_enable :
    eventsOf (.enable false) (ready cfgRef) =
      some [.cs false, .setWs .w8, .dc false, .w 0x28, .setWs .w16, .cs true, .resp .ok 0] := by decide
theorem test_powerSave :
    eventsOf (.powerSave 1) (ready cfgRef) =
      some [.cs false, .setWs .w8, .dc false, .w 0x39, .setWs .w16, .cs true, .resp .ok 0] := by decide
theorem test_powerSave_badMode :
    faultOf (.powerSave 7) (ready cfgRef) =
      some (some { reason := .badMode, op := 0x15, info := .mode 7 }, true, []) := by decide
theorem test_setBrightness :
    eventsOf (.setBrightness 200) (State.resetWith cfgRef) = some [.resp .unsupported 0] := by decide
theorem test_color565 :
    eventsOf (.color565 0x12 0x34 0x56) (State.resetWith cfgRef) = some [.resp .ok 0x11AA] := by decide
theorem test_color565_red :
    eventsOf (.color565 0xF8 0 0) (State.resetWith cfgRef) = some [.resp .ok 0xF800] := by decide
/-- 2.2: `3A 01 05`. -/
theorem test_record :
    (nextOf (step (atRecord [0x3A, 0x01, 0x05] 2))).map (fun t => (t.trace.drop 4, t.sp, t.ncmd, t.seq)) =
      some ([.cs false, .dc false, .w 0x3A, .dc true, .w 0x05, .cs true], some 3, some 1, .cmd) := by decide
/-- R151's example: `11 80 FF`. -/
theorem test_recordDelay :
    (nextOf (step (atRecord [0x11, 0x80, 0xFF] 1))).map (fun t => (t.trace.drop 4, t.sp, t.ncmd, t.seq)) =
      some ([.cs false, .dc false, .w 0x11, .dc true, .cs true, .delay 500], some 3, some 0, .next) := by decide
/-- V-RUN-3: the command byte goes out before the read that faults. -/
theorem test_record_truncated :
    (nextOf (step (atRecord [0x64] 128))).map (fun t => (t.trace.drop 4, t.cs, t.seq)) =
      some ([.cs false, .dc false, .w 0x64], some false, .cnt) ∧
    (nextOf (core.run 2 (atRecord [0x64] 128))).map (fun t => (t.fault, t.cs, t.ws, t.busy)) =
      some (some { reason := .scriptOverrun, op := 0x02, info := .pointer 1 }, some false, some .w8, true) := by
  decide

/-! The host's questions. -/

theorem test_table_word_decodes :
    decodeTableWord 8 0x16 = some (.setBrightness 0) ∧ decodeTableWord 16 0x8011 = some (.recordDelay 0x11 [] 0) ∧
      decodeTableWord 16 0x0220 = some (.record 0x20 [0, 0]) ∧ decodeTableWord 8 0 = none := by decide +kernel
theorem test_fetched_word_runs :
    (nextOf (step ((State.resetWith cfgRef).withFetchWord 8 0x16))).map State.trace = some [.resp .unsupported 0] ∧
      (nextOf (step ((State.resetWith cfgRef).withFetchWord 16 0x8011))).map State.trace =
        some [.cs false, .dc false, .w 0x11, .dc true, .cs true, .delay 0] := by decide +kernel

/-! The bus discipline and the observer. -/

/-- R350: neither a coordinate byte at word size 16 nor a pixel at word size 8 is allowed. -/
theorem test_wrong_word_size_refused :
    let data (n : WordSize) (cmds : List Byte) : Bus :=
      { levels := { ws := some n, cs := some false, dc := some true, rst := none }, cmds := cmds }
    eventAllowed cfgRef (data .w16 [0x2A]) (.w 5) = false ∧ eventAllowed cfgRef (data .w8 [0x2A]) (.w 5) = true ∧
      eventAllowed cfgRef (data .w8 [0x2A, 0x2B, 0x2C]) (.w 0xF800) = false ∧
      eventAllowed cfgRef (data .w16 [0x2A, 0x2B, 0x2C]) (.w 0xF800) = true := by decide
/-- R86, in a window of 2 by 2, also with no panel and after an orientation byte of no rotation; R87: the part of an
image over the right edge, a reversed window, a window off the panel, and a pixel after a `CS(1)`. -/
theorem test_observer :
    let panel : Option Panel := some { left := 0, top := 0, width := 128, height := 160 }
    let seen (p : Option Panel) (es : List Event) : List ((Nat × Nat) × Word) :=
      (Observer.start.seeAll cfgRef p (.cs false :: es)).cells
    let square : List Event := win 0 126 0 127 0 0 0 1 ++ [.setWs .w16, .wrep 7 5]
    let filled : List ((Nat × Nat) × Word) := [((126, 0), 7), ((127, 0), 7), ((126, 1), 7), ((127, 1), 7)]
    seen panel square = filled ∧ seen none square = filled ∧
      seen panel ([.setWs .w8, .dc false, .w 0x36, .dc true, .w 0x55] ++ square) = filled ∧
      seen panel (win 0 126 0 129 0 0 0 0 ++ [.setWs .w16, .wbuf .ram 0x100 [1, 2, 3, 4]]) =
        [((126, 0), 1), ((127, 0), 2)] ∧
      seen panel (win 0 2 0 1 0 0 0 0 ++ [.setWs .w16, .w 7]) = [] ∧
      seen panel (win 0 128 0 129 0 0 0 0 ++ [.setWs .w16, .wrep 7 2]) = [] ∧
      seen panel (win 0 126 0 127 0 0 0 1 ++ [.setWs .w16, .cs true, .cs false, .w 7]) = [] := by decide
/-- R86 beside a run: where every rotation has the same orientation byte, the panel is still the block's, 160 by 128 after
`SET_ROTATION 1`. -/
theorem test_observer_run :
    let c : Config := { cfgRef with madctl0 := 0, madctl1 := 0, madctl2 := 0, madctl3 := 0 }
    (observe 2 { ready c with requests := [0x0104, 0x0000000007E000000000007F009F0005] } Observer.start).cells =
      [((159, 127), 0x07E0)] := by decide

/-! Memory. -/

theorem test_reset_memory_wf : Memory.wf State.reset.ram = true ∧ Memory.wf State.reset.rostore = true := by decide
theorem test_unsorted_memory_refused :
    Memory.wf [(2, 0), (1, 0)] = false ∧ Memory.wf [(1, 0), (1, 0)] = false := by decide

/-! Witnesses: for every statement with hypotheses, a state and operands that meet them, at the boundaries. -/

/-- The records of CFG_REF's scripts (40_init_sequencer section 5). -/
def script1 : List Instr := [
  .recordDelay 0x01 [] 0x96, .recordDelay 0x11 [] 0xFF, .record 0xB1 [0x01, 0x2C, 0x2D],
  .record 0xB2 [0x01, 0x2C, 0x2D], .record 0xB3 [0x01, 0x2C, 0x2D, 0x01, 0x2C, 0x2D], .record 0xB4 [0x07],
  .record 0xC0 [0xA2, 0x02, 0x84], .record 0xC1 [0xC5], .record 0xC2 [0x0A, 0x00], .record 0xC3 [0x8A, 0x2A],
  .record 0xC4 [0x8A, 0xEE], .record 0xC5 [0x0E], .record 0x20 [], .record 0x36 [0xC8], .record 0x3A [0x05]]

def script2 : List Instr := [.record 0x2A [0x00, 0x00, 0x00, 0x7F], .record 0x2B [0x00, 0x00, 0x00, 0x9F]]

def script3 : List Instr := [
  .record 0xE0
    [0x02, 0x1C, 0x07, 0x12, 0x37, 0x32, 0x29, 0x2D, 0x29, 0x25, 0x2B, 0x39, 0x00, 0x01, 0x03, 0x10],
  .record 0xE1
    [0x03, 0x1D, 0x07, 0x06, 0x2E, 0x2C, 0x29, 0x2D, 0x2E, 0x2E, 0x37, 0x3F, 0x00, 0x00, 0x02, 0x10],
  .recordDelay 0x13 [] 0x0A, .recordDelay 0x29 [] 0x64]

theorem witness_ResetInputRestoresBlock : { ready cfgRef with resetIn := true }.resetIn = true := by decide

theorem witness_HasScripts : HasScripts cfgRef script1 script2 script3 := by
  refine ⟨?_, ?_, ?_⟩ <;> decide +kernel
/-- Each of the three scripts ends on the ROM's last byte or before it. -/
theorem witness_HasScripts_empty : HasScripts cfgEmpty [] [] [] := by decide
/-- One byte past the end: no header byte. -/
theorem witness_malformed_scripts : ¬ ∃ s1 s2 s3, HasScripts { cfgEmpty with scriptAddr3 := 3 } s1 s2 s3 := by
  rintro ⟨_, _, _, _, _, h⟩
  have e : scriptAt { cfgEmpty with scriptAddr3 := 3 } 3 = none := by decide
  exact absurd (e.symm.trans h) (by simp)

theorem witness_StepRunsDecodedInstruction_request :
    Accepts { ready cfgRef with requests := [0x16] } ∧ decodeRequest 0x16 = .ok (.setBrightness 0) := by decide
theorem witness_StepRunsDecodedInstruction_record :
    SequencerMoves (atRecord [0x3A, 0x01, 0x05] 1) ∧ (atRecord [0x3A, 0x01, 0x05] 1).pending = .none ∧
      (atRecord [0x3A, 0x01, 0x05] 1).seq = .cmd ∧
      decodeRecord ((atRecord [0x3A, 0x01, 0x05] 1).cfg.scriptRom.drop 0) = .ok (.record 0x3A [0x05], []) := by decide

theorem witness_ReservedOpcodeRefused :
    Accepts { ready cfgRef with requests := [0x30] } ∧
      [0x00, 0x0B, 0x0F, 0x17, 0x1F, 0x21, 0xFF].all (fun q : Request =>
        decide (q.toNat % 256 = 0 ∨ (0x0B ≤ q.toNat % 256 ∧ q.toNat % 256 ≤ 0x0F) ∨
          (0x17 ≤ q.toNat % 256 ∧ q.toNat % 256 ≤ 0x1F) ∨ 0x21 ≤ q.toNat % 256)) = true := by decide
theorem witness_ReservedOpcodeRefused_latched :
    let s : State := { ready cfgRef with refused := true }
    s.resetIn = false ∧ s.fault = none ∧ s.refused = true := by decide

/-- A faulted state, as P4 of 95_test_vectors leaves it. -/
def faulted : State :=
  { State.resetWith cfgRef with
    busy := true, fault := some { reason := .notInitialized, op := 0x05, info := .none } }

theorem witness_OnlyResetLeavesFault :
    (faulted.fault.isSome = true ∧ faulted.resetIn = false) ∧
      (let s : State := { ready cfgRef with refused := true }
       s.refused = true ∧ s.fault = none ∧ s.resetIn = false) ∧
      { faulted with resetIn := true }.resetIn = true := by decide

theorem witness_DecodeOfEncode :
    Instr.wellFormed (.record 0x36 [0xC8]) = true ∧ Instr.isRecord (.record 0x36 [0xC8]) = true ∧
      Instr.wellFormed (.recordDelay 0x36 [] 0) = true ∧ Instr.isRecord (.recordDelay 0x36 [] 0) = true := by decide
theorem witness_EncodeOfDecodedRecord :
    decodeRequest 0x16 = .ok (.setBrightness 0) ∧
      decodeRecord [0x11, 0x80, 0xFF, 0x02] = .ok (.recordDelay 0x11 [] 0xFF, [0x02]) := by decide
/-- A word for each opcode, `OP` in its low byte. -/
theorem witness_RequestOperandFields :
    [0x01, 0x02, 0x03, 0x04, 0x05, 0x06, 0x07, 0x08, 0x09, 0x0A, 0x10, 0x11, 0x12, 0x13, 0x14, 0x15, 0x16, 0x20].all
      (fun op : Nat => decide ((BitVec.ofNat 128 (op + 256 * 0x80)).toNat % 256 = op)) = true ∧
    [0x00, 0x0B, 0x0F, 0x17, 0x1F, 0x21, 0xFF].all (fun q : Request =>
      decide (q.toNat % 256 = 0 ∨ (0x0B ≤ q.toNat % 256 ∧ q.toNat % 256 ≤ 0x0F) ∨
        (0x17 ≤ q.toNat % 256 ∧ q.toNat % 256 ≤ 0x1F) ∨ 0x21 ≤ q.toNat % 256)) = true := by decide
theorem witness_RecordLength :
    decodeRecord [0x20, 0x00] = .ok (.record 0x20 [], []) ∧
      decodeRecord [0x13, 0x80, 0x0A] = .ok (.recordDelay 0x13 [] 0x0A, []) ∧
      (decodeRecord (0x20 :: 0x7F :: List.replicate 127 0)).isOk = true ∧
      (decodeRecord (0x20 :: 0xFF :: List.replicate 128 0)).isOk = true := by decide +kernel
theorem witness_DelayByteMilliseconds : (0xFE : Byte) ≠ 255 ∧ (0 : Byte) ≠ 255 := by decide
theorem witness_AssembledScriptDecodes :
    (∀ i ∈ [Instr.recordDelay 0x13 [] 0x0A, .record 0x20 []], i.wellFormed = true ∧ i.isRecord = true) ∧
      assembleScript [.recordDelay 0x13 [] 0x0A, .record 0x20 []] = some [0x02, 0x13, 0x80, 0x0A, 0x20, 0x00] ∧
      assembleScript [] = some [0x00] ∧
      assembleDelay 254 = some 254 ∧ assembleDelay 500 = some 255 ∧ assembleDelay 255 = none := by decide

/-- From reset, and as a repeated `INIT`. -/
theorem witness_InitCompletes :
    Accepts (State.resetWith cfgRef) ∧ HasScripts (State.resetWith cfgRef).cfg script1 script2 script3 ∧
      Accepts (ready cfgEmpty) ∧ HasScripts (ready cfgEmpty).cfg [] [] [] :=
  ⟨by decide, witness_HasScripts, by decide, witness_HasScripts_empty⟩
theorem witness_RunScriptCompletes :
    Accepts (ready cfgRef) ∧ (ready cfgRef).initialized = true ∧
      scriptAt (ready cfgRef).cfg ((59 : BitVec 32).toNat % 2 ^ (ready cfgRef).cfg.addrW.val) = some script2 := by
  decide +kernel
theorem witness_RecordCompletes : (atRecord [] 1).sp = some 0 ∧ (atRecord [] 1).ncmd = some 1 := by decide
theorem witness_RecordRefinesRows :
    (atRecord [0x20, 0x00] 1).seq = .cmd ∧ recordAt (atRecord [0x20, 0x00] 1) = some (.record 0x20 []) ∧
      recordAt (atRecord [0x3A, 0x81, 0x05, 0x64] 1) = some (.recordDelay 0x3A [0x05] 0x64) := by decide
theorem witness_RecordWireStream : (ready cfgRef).levels.ws = some .w16 ∧ (atRecord [] 1).levels.ws = some .w8 := by
  decide

/-- A state whose script pointer is at the end of the ROM. -/
def atEnd (q : Seq) (id : ScriptId) : State :=
  { ready cfgEmpty with busy := true, seq := q, script := some id, sp := some 3, ncmd := some 1, nargs := some 1 }

theorem witness_ScriptOverrunFaults :
    (∀ q ∈ [Seq.cmd, .cnt, .dly, .arg, .hdr], SequencerMoves (atEnd q .x) ∧ (atEnd q .x).pending = .none ∧
      (atEnd q .x).script = some .x ∧ (atEnd q .x).cfg.scriptRom.length ≤ 3 ∧ (atEnd q .x).sp = some 3 ∧
      (atEnd q .x).seq = q) ∧ (∃ n, (atEnd .arg .x).nargs = some n ∧ n ≠ 0) :=
  ⟨by decide, 1, by decide⟩
theorem witness_ScriptOverrunFaults_header :
    let c : Config := { cfgEmpty with scriptAddr1 := 3, scriptAddr2 := 4, scriptAddr3 := 5 }
    (∀ id ∈ [ScriptId.one, .two, .three],
      SequencerMoves { atEnd .hdr id with cfg := c } ∧ (atEnd .hdr id).script = some id) ∧
    c.scriptRom.length ≤ 3 ∧ c.scriptAddr1 = 3 ∧ c.scriptAddr2 = 4 ∧ c.scriptAddr3 = 5 := by decide
/-- The three places where a record can be cut off, each one byte short; the last with no argument and with one. -/
theorem witness_ScriptOverrunFaults_truncated :
    (∀ bytes ∈ [[0x64], [0x3A, 0x02, 0x05], [0x11, 0x80], [0x3A, 0x81, 0x05]],
      SequencerMoves (atRecord bytes 1) ∧ (atRecord bytes 1).pending = .none ∧
      (atRecord bytes 1).script = some .x ∧ (atRecord bytes 1).seq = .cmd ∧ (atRecord bytes 1).sp = some 0 ∧
      (atRecord bytes 1).cfg.scriptRom.drop 0 = bytes) ∧
    [(0x05 : Byte)].length < (0x02 : Byte).toNat % 128 ∧
    ([] : List Byte).length = (0x80 : Byte).toNat % 128 ∧ 128 ≤ (0x80 : Byte).toNat ∧
    [(0x05 : Byte)].length = (0x81 : Byte).toNat % 128 ∧ 128 ≤ (0x81 : Byte).toNat := by decide
theorem witness_DocumentedInitDelay : DocScripts cfgRef 0x01 script1 script3 ∧ cfgRef.rstPresent = true :=
  ⟨⟨⟨_, _, (List.sublist_append_left (script1.take 2) (script1.drop 2)), ⟨[], 0x96, rfl, rfl⟩, ⟨[], 0xFF, rfl, rfl⟩⟩,
    script3.take 2, _, _, rfl, ⟨[], 0x0A, rfl, rfl⟩, ⟨[], 0x64, rfl, rfl⟩⟩, rfl⟩

/-- The gamma and power commands of CFG_REF's scripts. -/
def isGammaOrPower (b : Byte) : Bool := [0xC0, 0xC1, 0xC2, 0xC3, 0xC4, 0xC5, 0xE0, 0xE1].contains b

theorem witness_SleepoutHazardMet :
    Accepts (State.resetWith cfgRef) ∧ HasScripts (State.resetWith cfgRef).cfg script1 script2 script3 ∧
      SleepoutFirst isGammaOrPower (· == 0x11) (script1 ++ script2 ++ script3) ∧ isGammaOrPower 0xC0 = true :=
  ⟨by decide, witness_HasScripts,
    sleepoutFirst_of_front (front := [.recordDelay 0x01 [] 0x96]) (c := 0x11) (args := []) (dly := 0xFF)
      (back := script1.drop 2 ++ script2 ++ script3) rfl (by decide) rfl, rfl⟩

/-- The sums 0 and 255. -/
theorem witness_CoordFormatsAgreeInPanel :
    (0 ≤ (-2 : Int) + (2 : Word).toNat ∧ (-2 : Int) + (2 : Word).toNat ≤ 255) ∧
      (0 ≤ (253 : Int) + (2 : Word).toNat ∧ (253 : Int) + (2 : Word).toNat ≤ 255) := by decide
/-- What the window, rotation, pixel, toggle and power-save statements ask of the state; and a state for their init
gate. -/
theorem witness_Ready : Ready (ready cfgRef) 128 160 0 0 ∧ (State.resetWith cfgRef).initialized = false := by decide
theorem witness_RotationAliasAndRepeat :
    (251 : Byte).toNat ≤ 251 ∧ (ready cfgRef).initialized = true ∧
      ∃ t, exec (.setRotation 3) (ready cfgRef) = .next t :=
  ⟨by decide, by decide, _, rfl⟩

/-- The bounds of R214: (0, 0) and (127, 159) are inside, (-1, 0) and (128, 0) outside. -/
theorem witness_DrawPixelCompletes_bounds :
    ¬ ((127 : Word).toInt < 0 ∨ (127 : Word).toInt ≥ (128 : Word).toNat ∨ (159 : Word).toInt ≥ (160 : Word).toNat) ∧
      (0xFFFF : Word).toInt < 0 ∧ (128 : Word).toInt ≥ (128 : Word).toNat := by decide
/-- The lines' four cases: no-op, a run cut to 1, no DMA facility, a run of exactly the threshold with the facility. -/
theorem witness_DrawHLineCompletes :
    (0 : Word).toInt ≤ 0 ∧ ((128 : Word).toNat : Int) - (127 : Word).toInt < 2 ∧ (ready cfgRef).cfg.dmaPresent = false ∧
      (ready cfgDma).cfg.dmaPresent = true ∧ (64 : Word).toInt ≤ (ready cfgDma).cfg.dmaThreshold ∧
      Ready (ready cfgDma) 128 160 0 0 := by decide
theorem witness_DrawVLineCompletes :
    (0xFFFF : Word).toInt ≤ 0 ∧ ((160 : Word).toNat : Int) - (159 : Word).toInt < 2 ∧
      (64 : Word).toInt ≤ (ready cfgDma).cfg.dmaThreshold ∧ Ready (ready cfgDma) 128 160 0 0 := by decide
/-- 8 by 8 words are exactly the threshold; a negative origin under CLIP. -/
theorem witness_FillRectCompletes :
    Ready (ready { cfgDma with negOrigin := .clip }) 128 160 0 0 ∧
      (8 : Word).toInt * (8 : Word).toInt ≤ (ready cfgDma).cfg.dmaThreshold ∧ (0xFFFB : Word).toInt < 0 ∧
      (10 : Word).toInt + (0xFFFB : Word).toInt = 5 := by decide
theorem witness_FillInsidePanel :
    Ready (ready cfgRef) 128 160 0 0 ∧ (ready cfgRef).cfg.dmaPresent = false ∧
      (0 : Int) ≤ (0 : Word).toInt ∧ (1 : Int) ≤ (128 : Word).toInt ∧
      (0 : Word).toInt + (128 : Word).toInt ≤ (128 : Word).toNat ∧
      (127 : Word).toInt + (1 : Word).toInt ≤ (128 : Word).toNat ∧
      (159 : Word).toInt + (1 : Word).toInt ≤ (160 : Word).toNat := by decide
theorem witness_FillScreenCoversPanel :
    Ready (ready cfgRef) 128 160 0 0 ∧ (ready cfgRef).cfg.dmaPresent = false ∧
      1 ≤ (128 : Word).toNat ∧ (160 : Word).toNat ≤ 32767 := by decide
theorem witness_ChunkSizes : 1 ≤ 1 ∧ (20480 : Nat) % cfgRef.maxChunk = 4096 ∧ (16384 : Nat) % cfgRef.maxChunk = 0 := by
  decide
theorem witness_LineDegradesToPixel :
    Ready (ready cfgRef) 128 160 0 0 ∧
      (0 ≤ (127 : Word).toInt ∧ (127 : Word).toInt < (128 : Word).toNat ∧ 1 ≤ (2 : Word).toInt ∧
        (127 : Word).toInt + (2 : Word).toInt - 1 ≥ (128 : Word).toNat ∧
        ((128 : Word).toNat : Int) - (127 : Word).toInt < 2) ∧
      (0 ≤ (159 : Word).toInt ∧ (159 : Word).toInt < (160 : Word).toNat ∧
        (159 : Word).toInt + (2 : Word).toInt - 1 ≥ (160 : Word).toNat ∧
        ((160 : Word).toNat : Int) - (159 : Word).toInt < 2) := by decide
/-- 5 by 13 words are one more than the threshold. -/
theorem witness_DmaFillCompletes :
    Accepts (ready cfgDma) ∧ Ready (ready cfgDma) 128 160 0 0 ∧ (ready cfgDma).cfg.dmaPresent = true ∧
      (ready cfgDma).cfg.negOrigin = .noop ∧
      ¬ ((0 : Word).toInt < 0 ∨ (0 : Word).toInt ≥ (128 : Word).toNat ∨ (5 : Word).toInt ≤ 0 ∨ (13 : Word).toInt ≤ 0) ∧
      ¬ ((0 : Word).toInt + (13 : Word).toInt - 1 ≥ (128 : Word).toNat) ∧
      ((ready cfgDma).cfg.dmaThreshold : Int) < (5 : Word).toInt * (13 : Word).toInt := by decide
/-- A run of 65, and one cut at the edge to 65. -/
theorem witness_DmaLinesComplete :
    Accepts (ready cfgDma) ∧ Ready (ready cfgDma) 128 160 0 0 ∧ (ready cfgDma).cfg.dmaPresent = true ∧
      ¬ ((0 : Word).toInt + (65 : Word).toInt - 1 ≥ (128 : Word).toNat) ∧
      ((ready cfgDma).cfg.dmaThreshold : Int) < (65 : Word).toInt ∧
      (63 : Word).toInt + (66 : Word).toInt - 1 ≥ (128 : Word).toNat ∧
      ((ready cfgDma).cfg.dmaThreshold : Int) < (128 : Word).toNat - (63 : Word).toInt := by decide
theorem witness_DmaAndWordPathsSameWire : [40, 25].sum = [65].sum := by decide

/-- A transfer of 40 words in flight, 25 left: what `test_drawVLine_dma` leaves. -/
def inFlight : State :=
  { ready cfgDma with
    busy := true, cs := some false, dmaBusy := true, dmaVal := some 0x1111, dmaRem := 40, pending := .rep 0x1111 25
    trace := [.rst true, .cs false] ++ win 0 0 0 0 0 0 0 64 ++ [.setWs .w16, .dmaStart 0x1111 40] }

theorem witness_DmaAgentStep :
    inFlight.resetIn = false ∧ inFlight.fault = none ∧ inFlight.refused = false ∧ inFlight.dmaBusy = true := by
  decide

/-- A panel with one image element in each space. -/
def withBuffers : State :=
  { ready cfgRef with ram := Memory.fill [] 0x100 [0x00, 0xF8], rostore := Memory.fill [] 0x40 [0xE0, 0x07] }

/-- Just outside (`x + w = 0`), and just inside (`x = W - 1`, `w = 1`); an odd address, an even one in each space. -/
theorem witness_DrawImageCompletes :
    Ready withBuffers 128 160 0 0 ∧ (0xFFFE : Word).toInt + (2 : Word).toInt ≤ 0 ∧
      ¬ ((1 : Word).toInt ≤ 0 ∨ (127 : Word).toInt ≥ (128 : Word).toNat ∨ (127 : Word).toInt + (1 : Word).toInt ≤ 0) ∧
      (0x101 : BitVec 32).toNat % 2 ^ withBuffers.cfg.addrW.val % 2 = 1 ∧
      (0x100 : BitVec 32).toNat % 2 ^ withBuffers.cfg.addrW.val % 2 = 0 ∧
      withBuffers.readWords .ram 0x100 ((1 : Word).toNat * (1 : Word).toNat) = some [0xF800] ∧
      withBuffers.readWords .rostore 0x40 ((1 : Word).toNat * (1 : Word).toNat) = some [0x07E0] := by decide
theorem witness_BufferWords :
    withBuffers.readWords .ram 0x100 1 = some [0xF800] ∧ withBuffers.readWords .ram 0x100 2 = none ∧
      withBuffers.memRead .ram 0x100 = some 0x00 ∧ withBuffers.memRead .ram (0x100 + 1) = some 0xF8 := by decide
theorem witness_UnreadableImageIsStuck :
    Accepts withBuffers ∧ Ready withBuffers 128 160 0 0 ∧
      withBuffers.readWords .ram 0x40 ((1 : Word).toNat * (1 : Word).toNat) = none ∧
      withBuffers.readWords .rostore 0x100 ((1 : Word).toNat * (1 : Word).toNat) = none := by decide
/-- The panel's last pixel and one past it, and the image of R218's example, two of whose four columns are visible. -/
theorem witness_PixelFillsItsCell :
    let s : State :=
      { ready cfgRef with ram := Memory.fill [] 0x100 [0x00, 0xF8, 0xE0, 0x07, 0x1F, 0x00, 0xFF, 0xFF] }
    (cfgRef.cmdCaset ≠ cfgRef.cmdRaset ∧ cfgRef.cmdCaset ≠ cfgRef.cmdRamwr ∧ cfgRef.cmdRaset ≠ cfgRef.cmdRamwr) ∧
      (∀ e ∈ [Event.w 1, .wrep 2 3, .dmaStart 4 5, .dmaDone, .wbuf .ram 0x100 [6]], (pixelWords e).isSome) ∧
      Ready s 128 160 0 0 ∧ s.cfg.coordFormat = .bytesHiLo ∧ s.resetIn = false ∧
      s.readWords .ram 0x100 4 = some [0xF800, 0x07E0, 0x001F, 0xFFFF] ∧
      ((nextOf (exec (.drawPixel 127 159 5) s)).map fun t => (Observer.start.watch s t).cells) =
        some [((127, 159), 5)] ∧
      ((nextOf (exec (.drawPixel 128 159 5) s)).map fun t => (Observer.start.watch s t).cells) = some [] ∧
      ((nextOf (exec (.drawImage 126 0 4 1 0x100) s)).map fun t => (Observer.start.watch s t).cells) =
        some [((126, 0), 0xF800), ((127, 0), 0x07E0)] := by decide
theorem witness_PowerSaveCompletes :
    (ready cfgRef).cfg.pwrSave.lookup 1 = some { cmd := 0x39, settle := none } ∧
      (ready cfgRef).cfg.pwrSave.lookup 2 = none := by decide
theorem witness_NotInitializedFaults :
    (State.resetWith cfgRef).initialized = false ∧
      ∀ i ∈ [Instr.runScript 0, .setAddrWindow 0 0 0 0, .setRotation 0, .drawPixel 0 0 0, .drawHLine 0 0 0 0,
          .drawVLine 0 0 0 0, .fillRect 0 0 0 0 0, .drawImage 0 0 0 0 0, .drawImageRom 0 0 0 0 0, .invert true,
          .partialMode true, .sleep true, .idle true, .enable true, .powerSave 0],
        i.isRecord = false ∧ i ≠ .init ∧ (∀ l, i ≠ .setBrightness l) ∧ (∀ r g b, i ≠ .color565 r g b) := by
  refine ⟨rfl, fun i hi => ?_⟩
  simp only [List.mem_cons, List.not_mem_nil, or_false] at hi
  rcases hi with rfl | rfl | rfl | rfl | rfl | rfl | rfl | rfl | rfl | rfl | rfl | rfl | rfl | rfl | rfl <;>
    simp [Instr.isRecord]
theorem witness_InstructionFrame : ∃ t, exec (.drawPixel 3 5 1) (ready cfgRef) = .next t := ⟨_, rfl⟩
theorem witness_StepFrame :
    ∃ t, step { ready cfgRef with requests := [0x16] } = .next t ∧
      { ready cfgRef with requests := [0x16] }.session = true := ⟨_, rfl, rfl⟩
/-- The orientation step of `INIT`, and `SET_ROTATION 1`. -/
theorem witness_GeometryWriters :
    ((nextOf (step { ready { cfgRef with initRotation := 1 } with busy := true, seq := .rot })).map State.width,
      (nextOf (step { ready cfgRef with requests := [0x0104] })).map State.width) =
      (some (some 160), some (some 160)) ∧ (ready cfgRef).width = some 128 := by decide
/-- SQ_DONE of an `INIT` and the acceptance of one, in states that set and clear `S.initialized`. -/
theorem witness_InitializedWriters :
    (let s : State := { State.resetWith cfgRef with busy := true, seq := .done, script := some .three }
     SequencerMoves s ∧ s.pending = .none ∧ s.initialized = false ∧
       (nextOf (step s)).map State.initialized = some true) ∧
    (let s : State := { ready cfgRef with requests := [0x01] }
     Accepts s ∧ s.initialized = true ∧ decodeRequest 0x01 = .ok .init ∧
       (nextOf (step s)).map State.initialized = some false) := by decide
/-- Without the line, a reset state; with it, SQ_RST2. -/
theorem witness_ResetLineOnlyPulsed :
    (ResetLineOk (State.resetWith cfgEmpty) ∧ cfgEmpty.rstPresent = false ∧
      ∃ t, step (State.resetWith cfgEmpty) = .next t) ∧
    (let s : State := { State.resetWith cfgRef with busy := true, cs := some true, seq := .rst2 }
     s.resetIn = false ∧
       (nextOf (step s)).map (fun t => (t.rst, t.trace)) = some (some false, s.trace ++ [.rst false, .delay 50])) :=
  ⟨⟨fun _ => ⟨rfl, fun _ => List.not_mem_nil, by decide, by decide, by decide⟩, rfl, _, rfl⟩, by decide⟩
/-- SQ_DONE: a busy block that its step leaves idle; and an accepting block that its step leaves idle. -/
theorem witness_OneResponsePerRequest :
    (nextOf (step { ready cfgRef with busy := true, seq := .done, script := some .three })).map
      (fun t => (t.busy, t.trace.drop 4)) = some (false, [.resp .ok 0]) ∧
    Accepts { ready cfgRef with requests := [0x16] } ∧ decodeRequest 0x16 = .ok (.setBrightness 0) ∧
    (nextOf (step { ready cfgRef with requests := [0x16] })).map
      (fun t => (t.fault, t.busy)) = some (none, false) := by decide
/-- The run of one `INIT` under V-INIT-1's configuration, to its end. -/
theorem witness_RunResponses :
    (∃ t, Run cfgEmpty [] [] [0x01] 10 t ∧ t.refused = false ∧ t.requests = [] ∧ EndedWell t) ∧
      HasScripts cfgEmpty [] [] [] ∧ (0x01 : Request).toNat % 256 = 0x01 :=
  ⟨⟨_, ⟨_, rfl, rfl⟩, by decide +kernel⟩, by decide, by decide⟩

theorem witness_GeometryFollowsRotation :
    GeometryOk (ready cfgRef) ∧ ∃ t, step { ready cfgRef with requests := [0x0104] } = .next t :=
  ⟨⟨rfl, rfl, ⟨rfl, rfl, rfl, rfl⟩, fun _ => nofun, fun _ => nofun, fun _ => nofun⟩, _, rfl⟩
theorem witness_BusDisciplineKept : BusOk (ready cfgRef) ∧ ∃ t, step (ready cfgRef) = .next t :=
  ⟨⟨by decide, by decide, fun _ => ⟨trivial, fun h => absurd rfl h, ⟨by decide, by decide⟩, by decide, by decide,
    fun _ _ => ⟨rfl, rfl⟩⟩⟩, _, rfl⟩
/-- The bus invariant with a transfer in flight, in an open bracket. -/
theorem witness_BusDisciplineKept_inFlight : BusOk inFlight ∧ ∃ t, step inFlight = .next t :=
  ⟨⟨by decide, by decide, fun _ => ⟨trivial, fun _ => ⟨rfl, rfl, rfl, rfl, rfl⟩, ⟨by decide, fun _ => by decide⟩,
    fun _ => rfl, fun _ => by decide, fun _ h => absurd h (by decide)⟩⟩, _, rfl⟩
theorem witness_DmaRegistersKept :
    DmaOk inFlight ∧ inFlight.resetIn = false ∧ inFlight.dmaBusy = true ∧ ∃ t, step inFlight = .next t :=
  ⟨⟨by decide, fun _ => ⟨0x1111, 25, rfl, rfl⟩, fun _ => rfl⟩, rfl, rfl, _, rfl⟩

end Sys2Proof.Tests
end

section
/-! Frames: what a request's answer, a row of the FSM and a whole step leave unchanged (10_state R46, R59). -/

namespace Sys2Proof.Machine

/-! Groups of fields that are written together. -/

/-- `t` has the rotation and the geometry of `s` (10_state R35 to R37). -/
structure GeometryFrame (s t : State) : Prop where
  rotation : t.rotation = s.rotation
  width    : t.width = s.width
  height   : t.height = s.height
  xStart   : t.xStart = s.xStart
  yStart   : t.yStart = s.yStart

/-- `t` has the DMA registers of `s` (10_state R44). -/
structure DmaFrame (s t : State) : Prop where
  dmaBusy : t.dmaBusy = s.dmaBusy
  dmaVal  : t.dmaVal = s.dmaVal
  dmaRem  : t.dmaRem = s.dmaRem

/-- `t` has the geometry of the rotation `r`, under its own configuration and fixed offsets (10_state R39). -/
structure HasGeometry (t : State) (r : BitVec 2) : Prop where
  rotation : t.rotation = some r
  width    : t.width = some (geom t.cfg r).1
  height   : t.height = some (geom t.cfg r).2
  xStart   : t.xStart = some (offs t.cfg.xyStartSwap t.colStart t.rowStart r).1
  yStart   : t.yStart = some (offs t.cfg.xyStartSwap t.colStart t.rowStart r).2

/-- The rotation's body writes all five fields together (41_addressing R184, R190). -/
theorem rotateBody_hasGeometry (s : State) (r : BitVec 2) : HasGeometry (rotateBody s r) r := by
  rw [rotateBody_eq]; exact ⟨rfl, rfl, rfl, rfl, rfl⟩

/-! Answers of requests. -/

/-- A request either leaves the geometry or sets it to that of a rotation, and only `SET_ROTATION` does the latter. -/
theorem Answer.geometry {a b c : Bool} {s t : State} (h : Answer a b c s t) :
    GeometryFrame s t ∨ a = true ∧ ∃ r, HasGeometry t r := by
  cases h with
  | fault r op i => exact .inl ⟨rfl, rfl, rfl, rfl, rfl⟩
  | windowFault op f h => left; constructor <;> simp [State.unset_eq]
  | done st v h => left; constructor <;> simp
  | rotated r h =>
    obtain ⟨h1, h2, h3, h4, h5⟩ := rotateBody_hasGeometry s.accept r
    exact .inr ⟨h, r, h1, h2, h3, h4, h5⟩
  | chunk xs ys x0 y0 x1 y1 c n h hn hd =>
    rw [openWindow_eq, dmaChunk_eq]; exact .inl ⟨rfl, rfl, rfl, rfl, rfl⟩
  | stuck xs ys x0 y0 x1 y1 sp p n h => rw [openWindow_eq]; exact .inl ⟨rfl, rfl, rfl, rfl, rfl⟩

/-- Only a repeated stream writes the DMA registers. -/
theorem Answer.dmaFrame {a c : Bool} {s t : State} (h : Answer a false c s t) : DmaFrame s t := by
  cases h with
  | fault r op i => exact ⟨rfl, rfl, rfl⟩
  | windowFault op f h => constructor <;> simp [State.unset_eq]
  | done st v h => constructor <;> simp
  | rotated r h => rw [rotateBody_ok]; exact ⟨rfl, rfl, rfl⟩
  | chunk xs ys x0 y0 x1 y1 c n h hn hd => cases h
  | stuck xs ys x0 y0 x1 y1 sp p n h => rw [openWindow_eq]; exact ⟨rfl, rfl, rfl⟩

/-- Only a stream leaves something pending. -/
theorem Answer.pending {a : Bool} {s t : State} (h : Answer a false false s t) : t.pending = s.pending := by
  cases h with
  | fault r op i => rfl
  | windowFault op f h => simp [State.unset_eq]
  | done st v h => simp
  | rotated r h => rw [rotateBody_ok]; rfl
  | chunk xs ys x0 y0 x1 y1 c n h hn hd => cases h
  | stuck xs ys x0 y0 x1 y1 sp p n h => cases h

theorem rotates_iff {i : Instr} : rotates i = true ↔ ∃ m, i = .setRotation m := by
  cases i <;> simp [rotates]

theorem streams_iff {i : Instr} :
    streams i = true ↔
      (∃ x y w c, i = .drawHLine x y w c) ∨ (∃ x y h c, i = .drawVLine x y h c) ∨
        ∃ x y w h c, i = .fillRect x y w h c := by
  cases i <;> simp [streams]

theorem images_iff {i : Instr} :
    images i = true ↔ (∃ x y w h p, i = .drawImage x y w h p) ∨ ∃ x y w h p, i = .drawImageRom x y w h p := by
  cases i <;> simp [images]

/-! Rows of the FSM. -/

/-- What SQ_REC_DONE's row can answer. -/
theorem RowAnswer.of_recDone {s t : State} (h : RowAnswer s t) (hq : s.seq = .recDone) :
    (∃ sp r op i, t = { s with sp := sp }.raise r op i) ∨
      ∃ n q, (q = .next ∨ q = .cmd) ∧ t = { s with ncmd := some n, seq := q } := by
  cases h with
  | fault sp r op i => exact .inl ⟨sp, r, op, i, rfl⟩
  | recDone n q _ h => exact .inr ⟨n, q, h, rfl⟩
  | rst q id v h => simp [hq] at h
  | _ => simp_all

/-- A row leaves the geometry, but for SQ_ROT, which sets it to that of `P_INIT_ROTATION`. -/
theorem RowAnswer.geometry {s t : State} (h : RowAnswer s t) :
    GeometryFrame s t ∨ s.seq = .rot ∧ ∃ r, HasGeometry t r := by
  cases h with
  | endFault op f h => left; constructor <;> simp [State.unset_eq]
  | rot h =>
    obtain ⟨h1, h2, h3, h4, h5⟩ := rotateBody_hasGeometry s s.cfg.initRotation
    exact .inr ⟨h, _, h1, h2, h3, h4, h5⟩
  | _ => exact .inl ⟨rfl, rfl, rfl, rfl, rfl⟩

/-! Steps. -/

/-- What no step outside reset changes (10_state R38, R59, 20_memory R82). -/
structure StepConst (s t : State) : Prop where
  cfg      : t.cfg = s.cfg
  ram      : t.ram = s.ram
  rostore  : t.rostore = s.rostore
  colStart : t.colStart = s.colStart
  rowStart : t.rowStart = s.rowStart
  resetIn  : t.resetIn = s.resetIn

theorem AnswerFrame.const {s t : State} (h : AnswerFrame s t) : StepConst s t :=
  ⟨h.cfg, h.ram, h.rostore, h.colStart, h.rowStart, h.resetIn⟩

theorem RowFrame.const {s t : State} (h : RowFrame s t) : StepConst s t :=
  ⟨h.cfg, h.ram, h.rostore, h.colStart, h.rowStart, h.resetIn⟩

/-- Outside reset a step leaves them. -/
theorem StepAnswer.const {s t : State} (h : StepAnswer s t) (hr : s.resetIn = false) : StepConst s t := by
  cases h with
  | reset h => simp [h] at hr
  | agent _ _ _ _ => rw [dmaAgent_eq]; exact ⟨rfl, rfl, rfl, rfl, rfl, rfl⟩
  | nextChunk _ c left _ _ => rw [dmaChunk_eq]; exact ⟨rfl, rfl, rfl, rfl, rfl, rfl⟩
  | endStream _ c _ => rw [closeStream_eq]; exact ⟨rfl, rfl, rfl, rfl, rfl, rfl⟩
  | buffer _ sp p n ws _ => rw [closeStream_eq]; exact ⟨rfl, rfl, rfl, rfl, rfl, rfl⟩
  | request _ q rest _ i _ h =>
    obtain ⟨h1, h2, h3, h4, h5, h6⟩ := h.frame.const
    exact ⟨h1, h2, h3, h4, h5, h6⟩
  | record _ _ _ cmd args dly p flag h =>
    obtain ⟨h1, h2, h3, h4, h5, h6⟩ := h.frame.const
    exact ⟨h1, h2, h3, h4, h5, h6⟩
  | row _ _ _ h => exact h.frame.const
  | _ => exact ⟨rfl, rfl, rfl, rfl, rfl, rfl⟩

/-- A step outside reset leaves the geometry, but for SQ_ROT and `SET_ROTATION`, which set it to that of a rotation. -/
theorem StepAnswer.geometry {s t : State} (h : StepAnswer s t) (hr : s.resetIn = false) :
    GeometryFrame s t ∨
      (s.seq = .rot ∨ s.seq = .idle ∧ ∃ q rest m, s.requests = q :: rest ∧ decodeRequest q = .ok (.setRotation m)) ∧
        ∃ r, HasGeometry t r := by
  cases h with
  | reset h => simp [h] at hr
  | agent _ _ _ _ => rw [dmaAgent_eq]; exact .inl ⟨rfl, rfl, rfl, rfl, rfl⟩
  | nextChunk _ c left _ _ => rw [dmaChunk_eq]; exact .inl ⟨rfl, rfl, rfl, rfl, rfl⟩
  | endStream _ c _ => rw [closeStream_eq]; exact .inl ⟨rfl, rfl, rfl, rfl, rfl⟩
  | buffer _ sp p n ws _ => rw [closeStream_eq]; exact .inl ⟨rfl, rfl, rfl, rfl, rfl⟩
  | request ha q rest hq i hd h =>
    rcases h.geometry with ⟨h1, h2, h3, h4, h5⟩ | ⟨hrot, hg⟩
    · exact .inl ⟨h1, h2, h3, h4, h5⟩
    · obtain ⟨m, rfl⟩ := rotates_iff.1 hrot
      obtain ⟨-, -, hi, -⟩ := ha
      exact .inr ⟨.inr ⟨hi, q, rest, m, hq, hd⟩, hg⟩
  | record _ _ _ cmd args dly p flag h =>
    rcases h.geometry with ⟨h1, h2, h3, h4, h5⟩ | ⟨hrot, -⟩
    · exact .inl ⟨h1, h2, h3, h4, h5⟩
    · cases hrot
  | row _ _ _ h => exact h.geometry.imp_right fun ⟨hrot, hg⟩ => ⟨.inl hrot, hg⟩
  | _ => exact .inl ⟨rfl, rfl, rfl, rfl, rfl⟩

end Sys2Proof.Machine
end

section
/-! The geometry invariant (10_state R39), the DMA invariant (R44) and the state after reset (R58). -/

namespace Sys2Proof.Machine

/-! The geometry follows the rotation. -/

/-- What runs only with a rotation: a block that is set up, a `RUN_SCRIPT`, and SQ_DONE. -/
def NeedsRotation (s : State) : Prop := s.initialized = true ∨ s.script = some .x ∨ s.seq = .done

theorem geometryOk_rotation {s : State} (h : GeometryOk s) (hn : NeedsRotation s) : s.rotation ≠ none := by
  obtain ⟨-, -, -, hi, hx, hd⟩ := h
  rcases hn with hn | hn | hn
  · exact hi hn
  · exact hx hn
  · exact hd hn

/-- Nothing new needs a rotation where `S.initialized` stays, no `RUN_SCRIPT` starts, and the FSM is not in SQ_DONE. -/
theorem NeedsRotation.of_not_done {s t : State} (h : NeedsRotation t) (hi : t.initialized = s.initialized)
    (hx : t.script = some .x → s.script = some .x) (hd : t.seq ≠ .done) : NeedsRotation s :=
  h.imp (fun h => hi ▸ h) fun h => .inl (hx (h.resolve_right hd))

/-- A state with the fixed offsets and the geometry of some rotation meets the invariant. -/
theorem HasGeometry.geometryOk {t : State} {r : BitVec 2} (h : HasGeometry t r) (hc : t.colStart = t.cfg.colStart)
    (hr : t.rowStart = t.cfg.rowStart) : GeometryOk t := by
  obtain ⟨h1, h2, h3, h4, h5⟩ := h
  rw [hc, hr] at h4 h5
  exact ⟨hc, hr, by rw [h1]; exact ⟨h2, h3, h4, h5⟩, by simp [h1], by simp [h1], by simp [h1]⟩

/-- A step that leaves the geometry keeps the invariant, if it starts nothing that needs a rotation without one. -/
theorem GeometryFrame.geometryOk {s t : State} (h : GeometryFrame s t) (hk : StepConst s t) (hg : GeometryOk s)
    (hn : NeedsRotation t → NeedsRotation s ∨ t.rotation ≠ none) : GeometryOk t := by
  obtain ⟨h1, h2, h3, h4, h5⟩ := h
  have hrot : NeedsRotation t → t.rotation ≠ none := fun n => (hn n).elim (fun n => h1 ▸ geometryOk_rotation hg n) id
  obtain ⟨hc, hr, hm, -⟩ := hg
  refine ⟨by rw [hk.colStart, hk.cfg, hc], by rw [hk.rowStart, hk.cfg, hr], ?_,
    fun h => hrot (.inl h), fun h => hrot (.inr (.inl h)), fun h => hrot (.inr (.inr h))⟩
  rw [h1, h2, h3, h4, h5, hk.cfg]
  exact hm

/-- A request's answer, `INIT` and `RUN_SCRIPT` aside, changes nothing that needs a rotation. -/
theorem AnswerFrame.needsRotation {s t : State} (h : AnswerFrame s t) (hn : NeedsRotation t) : NeedsRotation s := by
  simpa only [NeedsRotation, h.initialized, h.script, h.seq] using hn

/-- A row starts nothing that needs a rotation without one: SQ_DONE follows SQ_ROT, which sets it, or ends a
`RUN_SCRIPT`. -/
theorem RowAnswer.needsRotation {s t : State} (h : RowAnswer s t) (hn : NeedsRotation t) :
    NeedsRotation s ∨ t.rotation ≠ none := by
  cases h with
  | fault sp r op i => exact .inl hn
  | endFault op f h => exact .inl (hn.of_not_done (by simp [State.unset_eq]) (by simp [State.unset_eq])
      (by simp [State.unset_eq, h]))
  | idle h => exact .inl hn
  | session q id h hq =>
    rcases hq with ⟨rfl, rfl, -⟩ | ⟨rfl, rfl⟩
    · exact .inl (hn.of_not_done rfl (fun h => h) (by simp))
    · exact .inl (hn.of_not_done rfl (by simp) (by simp))
  | rst q id v h hq =>
    rcases hq with ⟨rfl, rfl⟩ | ⟨rfl, rfl⟩ | ⟨rfl, rfl⟩
    · exact .inl (hn.of_not_done rfl (fun h => h) (by simp))
    · exact .inl (hn.of_not_done rfl (fun h => h) (by simp))
    · exact .inl (hn.of_not_done rfl (by simp) (by simp))
  | hdr sp n h => exact .inl (hn.of_not_done rfl (fun h => h) (by simp only; split <;> simp))
  | arg sp v n q h hq => exact .inl (hn.of_not_done rfl (fun h => h) (by rcases hq with rfl | rfl <;> simp))
  | endRec q h hq => exact .inl (hn.of_not_done rfl (fun h => h) (by rcases hq with rfl | rfl <;> simp))
  | recDone n q h hq => exact .inl (hn.of_not_done rfl (fun h => h) (by rcases hq with rfl | rfl <;> simp))
  | nextScript id h hid => exact .inl (hn.of_not_done rfl (by simp [hid]) (by simp))
  | nextDone h hx => exact .inl (.inr (.inl hx))
  | rot h => exact .inr (by simp [rotateBody_eq])
  | done b id h hs hb => exact .inl (.inr (.inr h))
  | _ => exact .inl (hn.of_not_done rfl (fun h => h) (by simp))

theorem StepAnswer.needsRotation {s t : State} (h : StepAnswer s t) (hn : NeedsRotation t) :
    NeedsRotation s ∨ t.rotation ≠ none := by
  cases h with
  | reset h => simp [NeedsRotation, State.applyReset, State.resetWith] at hn
  | agent _ _ _ _ => rw [dmaAgent_eq] at hn; exact .inl hn
  | nextChunk _ c left _ _ => rw [dmaChunk_eq] at hn; exact .inl hn
  | endStream _ c _ => rw [closeStream_eq] at hn; exact .inl hn
  | buffer _ sp p n ws _ => exact .inl (by simpa [closeStream_eq, NeedsRotation] using hn)
  | init _ q rest _ _ => exact .inl (.inr (.inl ((hn.resolve_left (by simp)).resolve_right (by simp))))
  | runScript _ q rest _ ptr hi => exact .inl (.inl hi)
  | request _ q rest _ i _ h => exact .inl (h.frame.needsRotation hn)
  | record _ _ _ cmd args dly p flag h =>
    exact (h.needsRotation hn).imp_left fun hn => hn.of_not_done rfl (fun h => h) (by simp)
  | row _ _ _ h => exact h.needsRotation hn
  | _ => exact .inl hn

theorem geometryOk_reset (c : Config) : GeometryOk (State.resetWith c) :=
  ⟨rfl, rfl, ⟨rfl, rfl, rfl, rfl⟩, nofun, nofun, nofun⟩

/-- Block reset leaves a state of the block that differs from R58's only in what the block does not own. -/
theorem geometryOk_applyReset (s : State) : GeometryOk s.applyReset := geometryOk_reset s.cfg

/-- Settles O57: a step either sets the geometry to that of a rotation, or leaves it and starts nothing that needs a
rotation. -/
theorem geometryFollowsRotation : Obligations.GeometryFollowsRotation := by
  intro s t hg hst
  have h := step_answer hst
  by_cases hr : s.resetIn = true
  · rw [step_reset hr] at hst
    cases hst
    exact geometryOk_applyReset s
  · have hr : s.resetIn = false := by simpa using hr
    have hk := h.const hr
    rcases h.geometry hr with hf | ⟨-, r, hs⟩
    · exact hf.geometryOk hk hg h.needsRotation
    · obtain ⟨hc, hro, -⟩ := hg
      exact hs.geometryOk (by rw [hk.colStart, hk.cfg, hc]) (by rw [hk.rowStart, hk.cfg, hro])

/-- Settles O52: a step that changes a geometry field does not leave the geometry, so it is one of the two that set
it. -/
theorem geometryWriters : Obligations.GeometryWriters := by
  intro s t hr hst hne
  rcases (step_answer hst).geometry hr with ⟨h1, h2, h3, h4, h5⟩ | ⟨hw, -⟩
  · exact absurd (by rw [h1, h2, h3, h4, h5]) hne
  · exact hw

/-! The DMA registers. -/

/-- A state with the DMA registers, the stream and the configuration of one that meets the invariant meets it. -/
theorem DmaFrame.dmaOk {s t : State} (h : DmaFrame s t) (hp : t.pending = s.pending) (hc : t.cfg = s.cfg)
    (hd : DmaOk s) : DmaOk t := by
  simpa only [DmaOk, h.dmaBusy, h.dmaVal, h.dmaRem, hp, hc] using hd

/-- With no transfer in flight and no repeated stream unfinished the registers agree. -/
theorem dmaOk_of_rest {t : State} (hb : t.dmaBusy = false) (hr : t.dmaRem = 0)
    (hp : ∀ c left, t.pending ≠ .rep c left) : DmaOk t :=
  ⟨by simp [hb, hr], by simp [hb], fun ⟨c, left, h⟩ => absurd h (hp c left)⟩

/-- A chunk of at least one word puts its stream's value in flight (42_transfer R210). -/
theorem dmaChunk_dmaOk {s : State} (c : Word) {left : Nat} (hl : left ≠ 0) (hp : s.cfg.dmaPresent = true) :
    DmaOk (dmaChunk s c left) := by
  have := s.cfg.maxChunk.pos
  rw [dmaChunk_eq]
  exact ⟨by simp; omega, fun _ => ⟨c, _, rfl, rfl⟩, fun _ => hp⟩

theorem dmaRem_of_idle {s : State} (h : DmaOk s) (hb : s.dmaBusy = false) : s.dmaRem = 0 := by
  obtain ⟨hr, -⟩ := h
  simpa [hb] using hr

theorem Answer.dmaOk {a b c : Bool} {s t : State} (h : Answer a b c s t) (hd : DmaOk s) (hb : s.dmaBusy = false) :
    DmaOk t := by
  cases h with
  | fault r op i => exact hd
  | windowFault op f h => exact DmaFrame.dmaOk ⟨by simp [State.unset_eq], by simp [State.unset_eq],
      by simp [State.unset_eq]⟩ (by simp [State.unset_eq]) (by simp [State.unset_eq]) hd
  | done st v h => exact DmaFrame.dmaOk ⟨by simp, by simp, by simp⟩ (by simp) (by simp) hd
  | rotated r h => rw [rotateBody_ok]; exact hd
  | chunk xs ys x0 y0 x1 y1 v n h hn hp => exact dmaChunk_dmaOk v (by omega) (by rw [openWindow_eq]; exact hp)
  | stuck xs ys x0 y0 x1 y1 sp p n h =>
    have hr := dmaRem_of_idle hd hb
    rw [openWindow_eq]
    exact dmaOk_of_rest hb hr (by simp)

theorem RowFrame.dmaOk {s t : State} (h : RowFrame s t) (hd : DmaOk s) : DmaOk t :=
  DmaFrame.dmaOk ⟨h.dmaBusy, h.dmaVal, h.dmaRem⟩ h.pending h.cfg hd

theorem dmaOk_reset (c : Config) : DmaOk (State.resetWith c) := dmaOk_of_rest rfl rfl nofun

theorem StepAnswer.dmaOk {s t : State} (h : StepAnswer s t) (hd : DmaOk s) : DmaOk t := by
  cases h with
  | reset h => exact dmaOk_reset s.cfg
  | agent _ _ _ hb =>
    obtain ⟨-, -, hp⟩ := hd
    rw [dmaAgent_eq]
    exact ⟨by simp, by simp, hp⟩
  | nextChunk _ c left hp hl =>
    obtain ⟨-, -, hq⟩ := hd
    exact dmaChunk_dmaOk c hl (hq ⟨c, left, hp⟩)
  | endStream hm c _ =>
    obtain ⟨-, -, -, hb⟩ := hm
    have hr := dmaRem_of_idle hd hb
    rw [closeStream_eq]
    exact dmaOk_of_rest hb hr (by simp)
  | buffer hm sp p n ws _ =>
    obtain ⟨-, -, -, hb⟩ := hm
    have hr := dmaRem_of_idle hd hb
    rw [closeStream_eq]
    exact dmaOk_of_rest (by simpa using hb) (by simpa using hr) (by simp)
  | request ha q rest _ i _ h =>
    obtain ⟨⟨-, -, -, hb⟩, -⟩ := ha
    exact h.dmaOk hd hb
  | record _ _ _ cmd args dly p flag h => exact h.frame.dmaOk hd
  | row _ _ _ h => exact h.frame.dmaOk hd
  | _ => exact hd

/-- Settles O59: every step keeps the registers consistent, and while a transfer is in flight only the DMA agent moves
(R212), which leaves the value. -/
theorem dmaRegistersKept : Obligations.DmaRegistersKept := by
  intro s t hd hst
  refine ⟨(step_answer hst).dmaOk hd, fun hr hb => ?_⟩
  rcases step_cases hst with ⟨h, -⟩ | ⟨-, -, -, -, rfl⟩ | ⟨⟨-, -, -, h⟩, -⟩
  · simp [h] at hr
  · rw [dmaAgent_eq]
  · simp [h] at hb

end Sys2Proof.Machine
end

section
/-! The events of a step (10_state R50, R51), and what they say of the reset line (R42) and of the responses. -/

namespace Sys2Proof.Machine

/-! What a step appends to the trace. -/

/-- The FSM is in a state of the hardware reset pulse (40_init_sequencer R142). -/
abbrev InPulse (s : State) : Prop := s.seq = .rst1 ∨ s.seq = .rst2 ∨ s.seq = .rst3

/-- The events a step outside reset appends, with what becomes of the reset line, of `S.busy` and of the host's
requests. -/
inductive StepEvents (s t : State) : List Event → Prop where
  /-- What is in progress, or the idle block, goes on. -/
  | progress {es : List Event} (hq : Quiet es) (hr : t.rst = s.rst) (hb : t.busy = s.busy)
      (hn : t.requests = s.requests) : StepEvents s t es
  /-- A row of the reset pulse drives the line. -/
  | pulse (v : Bool) (hp : InPulse s) (hr : t.rst = some v) (hb : t.busy = s.busy) (hn : t.requests = s.requests) :
      StepEvents s t [.rst v, .delay 50]
  /-- The request in progress ends with its response. -/
  | finish {front : List Event} (st : Status) (v : Word) (hi : s.pending ≠ .none ∨ s.seq ≠ .idle) (hq : Quiet front)
      (hr : t.rst = s.rst) (hb : t.busy = false) (hn : t.requests = s.requests) :
      StepEvents s t (front ++ [.resp st v])
  /-- The host's next request is refused. -/
  | refuse (q : Request) (ha : Accepts s) (hx : t.refused = true) (hr : t.rst = s.rst) (hb : t.busy = s.busy)
      (hn : s.requests = q :: t.requests) : StepEvents s t []
  /-- The host's next request is accepted and stays in progress, or faults. -/
  | start {es : List Event} (q : Request) (ha : Accepts s) (hq : Quiet es) (hr : t.rst = s.rst) (hb : t.busy = true)
      (hn : s.requests = q :: t.requests) : StepEvents s t es
  /-- The host's next request is accepted and ends with its response in the same step. -/
  | respond {front : List Event} (st : Status) (v : Word) (q : Request) (ha : Accepts s) (hq : Quiet front)
      (hr : t.rst = s.rst) (hb : t.busy = false) (hn : s.requests = q :: t.requests) :
      StepEvents s t (front ++ [.resp st v])

theorem quiet_singleton {e : Event} (h : quietEvent e = true) : Quiet [e] := Quiet.cons h quiet_nil

theorem quiet_sessionEvents (s : State) : Quiet (sessionEvents s) := by
  cases h : s.session <;> simp [sessionEvents, h, Quiet]

theorem quiet_openWindow (c : Config) (xs ys : Word) (x0 y0 x1 y1 : Int) :
    Quiet ([.cs false] ++ windowEvents c xs ys x0 y0 x1 y1 ++ [.setWs .w16]) :=
  ((quiet_singleton (by simp)).append (quiet_windowEvents _ _ _ _ _ _ _)).append (quiet_singleton (by simp))

/-- A request's events end with its response, or leave it in progress or faulted. -/
theorem Answer.events {a b c : Bool} {s t : State} (h : Answer a b c s t) :
    ∃ es, t.trace = s.trace ++ es ∧
      (Quiet es ∧ t.busy = true ∨ ∃ front st v, es = front ++ [.resp st v] ∧ Quiet front ∧ t.busy = false) := by
  cases h with
  | fault r op i => exact ⟨[], by simp, .inl ⟨quiet_nil, rfl⟩⟩
  | @windowFault es op f h =>
    exact ⟨.cs false :: es, by simp [State.unset_eq],
      .inl ⟨Quiet.cons (by simp) (quiet_partialWindow h), by simp [State.unset_eq]⟩⟩
  | @done es st v h => exact ⟨es ++ [.resp st v], by simp, .inr ⟨es, st, v, rfl, h.quiet, rfl⟩⟩
  | rotated r h =>
    rw [rotateBody_ok]
    exact ⟨_, rfl, .inr ⟨_, _, _, rfl, quiet_rotateEvents _ _, rfl⟩⟩
  | chunk xs ys x0 y0 x1 y1 v n h hn hd =>
    rw [openWindow_eq, dmaChunk_eq]
    exact ⟨_, List.append_assoc .., .inl ⟨(quiet_openWindow _ _ _ _ _ _ _).append (quiet_singleton (by simp)), rfl⟩⟩
  | stuck xs ys x0 y0 x1 y1 sp p n h =>
    rw [openWindow_eq]
    exact ⟨_, rfl, .inl ⟨quiet_openWindow _ _ _ _ _ _ _, rfl⟩⟩

/-- A row's events: those of the reset pulse, the response of SQ_DONE, or quiet ones. -/
theorem RowAnswer.events {s t : State} (h : RowAnswer s t) (hi : s.seq ≠ .idle) :
    ∃ es, t.trace = s.trace ++ es ∧ StepEvents s t es := by
  have hn := h.frame.requests
  cases h with
  | fault sp r op i => exact ⟨[], by simp, .progress quiet_nil rfl rfl hn⟩
  | endFault op f h =>
    exact ⟨[.cs true], by simp [State.unset_eq],
      .progress (quiet_singleton (by simp)) (by simp [State.unset_eq, State.emit_rst, State.levels])
        (by simp [State.unset_eq]) hn⟩
  | idle h => exact absurd h hi
  | session q id h hq => exact ⟨sessionEvents s, rfl, .progress (quiet_sessionEvents s) rfl rfl hn⟩
  | rst q id v h hq => exact ⟨[.rst v, .delay 50], rfl, .pulse v h rfl rfl hn⟩
  | cmd sp v h =>
    exact ⟨[.cs false, .dc false, wByte v], rfl, .progress (by simp [Quiet, wByte]) rfl rfl hn⟩
  | cnt sp c h => exact ⟨[.dc true], rfl, .progress (quiet_singleton (by simp)) rfl rfl hn⟩
  | arg sp v n q h hq => exact ⟨[wByte v], rfl, .progress (quiet_singleton (by simp [wByte])) rfl rfl hn⟩
  | endRec q h hq => exact ⟨[.cs true], rfl, .progress (quiet_singleton (by simp)) rfl rfl hn⟩
  | dly sp d h => exact ⟨[.delay d], rfl, .progress (quiet_singleton (by simp)) rfl rfl hn⟩
  | nextDone h hx => exact ⟨[.setWs .w16], rfl, .progress (quiet_singleton (by simp)) rfl rfl hn⟩
  | rot h =>
    rw [rotateBody_eq]
    exact ⟨rotateEvents s.cfg s.cfg.initRotation, rfl, .progress (quiet_rotateEvents _ _) rfl rfl rfl⟩
  | done b id h hs hb =>
    exact ⟨_, rfl, .finish (front := []) .ok 0 (.inr hi) quiet_nil rfl rfl hn⟩
  | _ => exact ⟨[], by simp, .progress quiet_nil rfl rfl hn⟩

theorem StepAnswer.events {s t : State} (h : StepAnswer s t) (hr : s.resetIn = false) :
    ∃ es, t.trace = s.trace ++ es ∧ StepEvents s t es := by
  cases h with
  | reset h => simp [h] at hr
  | agent _ _ _ _ =>
    rw [dmaAgent_eq]
    exact ⟨[.dmaDone], rfl, .progress (quiet_singleton (by simp)) rfl rfl rfl⟩
  | nextChunk _ c left _ _ =>
    rw [dmaChunk_eq]
    exact ⟨[.dmaStart c (min left s.cfg.maxChunk)], rfl, .progress (quiet_singleton (by simp)) rfl rfl rfl⟩
  | endStream _ c hp =>
    rw [closeStream_eq]
    exact ⟨_, rfl, .finish (front := [.cs true]) .ok 0 (.inl (by simp [hp])) (quiet_singleton (by simp)) rfl rfl rfl⟩
  | buffer _ sp p n ws hp =>
    rw [closeStream_eq]
    refine ⟨_, ?_, .finish (front := [.wbuf sp p ws, .cs true]) .ok 0 (.inl (by simp [hp])) ?_ ?_ ?_ ?_⟩ <;>
      simp [Quiet, State.emit_rst, State.levels]
  | wait _ _ => exact ⟨[], by simp, .progress quiet_nil rfl rfl rfl⟩
  | refuse ha q rest hq => exact ⟨[], by simp, .refuse q ha rfl rfl rfl hq⟩
  | init ha q rest hq _ => exact ⟨[], by simp, .start q ha quiet_nil rfl rfl hq⟩
  | runScript ha q rest hq ptr _ =>
    exact ⟨[.setWs .w8], rfl, .start q ha (quiet_singleton (by simp)) rfl rfl hq⟩
  | request ha q rest hq i _ h =>
    have hn : s.requests = q :: t.requests := by rw [h.frame.requests, hq]
    obtain ⟨es, ht, ⟨hes, hb⟩ | ⟨front, st, v, rfl, hf, hb⟩⟩ := h.events
    · exact ⟨es, ht, .start q ha hes h.frame.rst hb hn⟩
    · exact ⟨_, ht, .respond st v q ha hf h.frame.rst hb hn⟩
  | record _ _ _ cmd args dly p flag h =>
    refine ⟨recordEvents cmd args dly, ?_⟩
    rcases h.of_recDone rfl with ⟨sp, r, op, i, rfl⟩ | ⟨n, q, -, rfl⟩ <;>
      exact ⟨rfl, .progress (quiet_recordEvents _ _ _) rfl rfl rfl⟩
  | row _ _ hi h => exact h.events hi

/-! The reset line. -/

/-- A step that changes `S.rst` or emits an RST event is a row of the reset pulse. -/
theorem StepEvents.rst {s t : State} {es : List Event} (h : StepEvents s t es) :
    (t.rst = s.rst ∧ ∀ v, Event.rst v ∉ es) ∨ InPulse s ∧ ∀ v, Event.rst v ∈ es → t.rst = some v := by
  cases h with
  | progress hq hr _ _ => exact .inl ⟨hr, hq.not_rst⟩
  | pulse v hp hr _ _ => exact .inr ⟨hp, fun w hw => by simp at hw; rw [hr, hw]⟩
  | finish st v _ hq hr _ _ => exact .inl ⟨hr, fun w hw => hq.not_rst w (by simpa using hw)⟩
  | refuse q _ _ hr _ _ => exact .inl ⟨hr, by simp⟩
  | start q _ hq hr _ _ => exact .inl ⟨hr, hq.not_rst⟩
  | respond st v q _ hq hr _ _ => exact .inl ⟨hr, fun w hw => hq.not_rst w (by simpa using hw)⟩

/-- Only SQ_SESSION, where the line exists, and the pulse itself lead to a state of the pulse. -/
theorem RowAnswer.inPulse {s t : State} (h : RowAnswer s t) (ht : InPulse t) : InPulse s ∨ s.cfg.rstPresent = true := by
  cases h with
  | fault sp r op i => exact .inl ht
  | endFault op f h => simp [InPulse, State.unset_eq, h] at ht
  | idle h => exact .inl ht
  | session q id h hq => rcases hq with ⟨rfl, rfl, hp⟩ | ⟨rfl, rfl⟩; exacts [.inr hp, by simp [InPulse] at ht]
  | rst q id v h hq => exact .inl h
  | hdr sp n h => by_cases hn : n = 0#8 <;> simp [InPulse, hn] at ht
  | arg sp v n q h hq => rcases hq with rfl | rfl <;> simp [InPulse] at ht
  | endRec q h hq => rcases hq with rfl | rfl <;> simp [InPulse] at ht
  | recDone n q h hq => rcases hq with rfl | rfl <;> simp [InPulse] at ht
  | _ => simp [InPulse] at ht

theorem StepAnswer.inPulse {s t : State} (h : StepAnswer s t) (ht : InPulse t) :
    InPulse s ∨ s.cfg.rstPresent = true := by
  cases h with
  | reset h => simp [InPulse, State.applyReset, State.resetWith] at ht
  | agent _ _ _ _ => rw [dmaAgent_eq] at ht; exact .inl ht
  | nextChunk _ c left _ _ => rw [dmaChunk_eq] at ht; exact .inl ht
  | endStream _ c _ => rw [closeStream_eq] at ht; exact .inl ht
  | buffer _ sp p n ws _ => exact .inl (by simpa [closeStream_eq, InPulse] using ht)
  | init _ q rest _ _ => simp [InPulse] at ht
  | runScript _ q rest _ ptr _ => simp [InPulse] at ht
  | request _ q rest _ i _ h => exact .inl (by simpa [InPulse, h.frame.seq] using ht)
  | record _ _ _ cmd args dly p flag h => exact (h.inPulse ht).imp_left (by simp [InPulse])
  | row _ _ _ h => exact h.inPulse ht
  | _ => exact .inl ht

theorem resetLineOk_reset (c : Config) : ResetLineOk (State.resetWith c) := by
  simp [ResetLineOk, State.resetWith]

theorem resetLineOk_iff {s : State} :
    ResetLineOk s ↔ (s.cfg.rstPresent = false → s.rst = none ∧ (∀ v, Event.rst v ∉ s.trace) ∧ ¬ InPulse s) := by
  simp [ResetLineOk, InPulse]

/-- Without the line every step outside reset keeps it unset and unsent: no row of the pulse is ever entered. -/
theorem StepAnswer.resetLineOk {s t : State} (h : StepAnswer s t) (hr : s.resetIn = false) (hs : ResetLineOk s) :
    ResetLineOk t := by
  rw [resetLineOk_iff] at hs ⊢
  rw [(h.const hr).cfg]
  intro hp
  obtain ⟨hrst, htr, hq⟩ := hs hp
  obtain ⟨es, ht, he⟩ := h.events hr
  obtain ⟨hrst', hes⟩ := he.rst.resolve_right fun ⟨hin, _⟩ => hq hin
  refine ⟨by rw [hrst', hrst], fun v hv => ?_, fun hin => (h.inPulse hin).elim hq (by simp [hp])⟩
  rw [ht, List.mem_append] at hv
  exact hv.elim (htr v) (hes v)

/-- Settles O54: without the line no step enters the pulse, and only the pulse drives it. -/
theorem resetLineOnlyPulsed : Obligations.ResetLineOnlyPulsed := by
  intro s t hst
  have h := step_answer hst
  refine ⟨fun hs => ?_, fun hr => ?_⟩
  · by_cases hr : s.resetIn = true
    · rw [step_reset hr] at hst
      cases hst
      exact resetLineOk_reset s.cfg
    · exact h.resetLineOk (by simpa using hr) hs
  · obtain ⟨es, ht, he⟩ := h.events hr
    rcases he.rst with ⟨hrst, hes⟩ | ⟨hin, hes⟩
    · refine ⟨fun hne => absurd hrst hne, fun fs v ht' hv => ?_⟩
      rw [ht', List.append_cancel_left_eq] at ht
      exact absurd (ht ▸ hv) (hes v)
    · refine ⟨fun _ => hin, fun fs v ht' hv => ⟨hin, ?_⟩⟩
      rw [ht', List.append_cancel_left_eq] at ht
      exact hes v (ht ▸ hv)

end Sys2Proof.Machine
end

section
/-! What an instruction and a step leave unchanged (10_state R46, R59), what a step runs, and the responses (R51). -/

namespace Sys2Proof.Machine

/-! Instructions. -/

/-- Each of the fifteen requests that need the controller set up begins with the init gate (10_state R31). -/
theorem exec_gate {i : Instr} (s : State) (hr : i.isRecord = false) (hi : i ≠ .init) (hb : ∀ l, i ≠ .setBrightness l)
    (hc : ∀ r g b, i ≠ .color565 r g b) : ∃ k, exec i s = requireInit i.opcode s.accept k := by
  cases i with
  | init => exact absurd rfl hi
  | setBrightness l => exact absurd rfl (hb l)
  | color565 r g b => exact absurd rfl (hc r g b)
  | record cmd args => cases hr
  | recordDelay cmd args dly => cases hr
  | _ =>
    simp only [exec, execRunScript, execSetAddrWindow, execSetRotation, execDrawPixel, execDrawHLine, execDrawVLine,
      execFillRect, execDrawImage, execDrawImageRom, drawImage, execInvert, execPartialMode, execSleep, execIdle,
      execEnable, execPowerSave, toggle, Instr.opcode]
    exact ⟨_, rfl⟩

/-- Settles O49: the gate faults before the request does anything else. -/
theorem notInitializedFaults : Obligations.NotInitializedFaults := by
  intro i s hs hr hi hb hc
  obtain ⟨k, hk⟩ := exec_gate s hr hi hb hc
  rw [hk, requireInit_accept_unset hs]

/-- What a record, run in any state, leaves unchanged. -/
structure RecordFrame (s t : State) : Prop where
  const       : StepConst s t
  geometry    : GeometryFrame s t
  dma         : DmaFrame s t
  pending     : t.pending = s.pending
  requests    : t.requests = s.requests
  refused     : t.refused = s.refused
  session     : t.session = s.session
  rst         : t.rst = s.rst
  initialized : t.initialized = s.initialized

theorem runRecord_frame {cmd : Byte} {args : List Byte} {dly : Option Byte} {s t : State}
    (h : runRecord cmd args dly s = .next t) : RecordFrame s t := by
  rcases runRecord_cases h with rfl | ⟨p, -, ht⟩
  · exact ⟨⟨rfl, rfl, rfl, rfl, rfl, rfl⟩, ⟨rfl, rfl, rfl, rfl, rfl⟩, ⟨rfl, rfl, rfl⟩, rfl, rfl, rfl, rfl, rfl, rfl⟩
  · unfold rowRecDone at ht
    split at ht <;> subst ht <;>
      exact ⟨⟨rfl, rfl, rfl, rfl, rfl, rfl⟩, ⟨rfl, rfl, rfl, rfl, rfl⟩, ⟨rfl, rfl, rfl⟩, rfl, rfl, rfl, rfl, rfl, rfl⟩

/-- What no instruction changes. -/
structure InstrConst (s t : State) : Prop where
  const    : StepConst s t
  requests : t.requests = s.requests
  refused  : t.refused = s.refused
  session  : t.session = s.session
  rst      : t.rst = s.rst

/-- An instruction is `INIT`, `RUN_SCRIPT`, a record, or one of the requests that `exec_answer` covers. -/
theorem exec_kinds {i : Instr} {s t : State} (h : exec i s = .next t) :
    (i = .init ∧ t = { s with busy := true, initialized := false, seq := .session }) ∨
    (∃ ptr, i = .runScript ptr ∧ (t = s.accept.raise .notInitialized 0x02 .none ∨
      t = { s with
        busy := true, ws := some .w8, trace := s.trace ++ [.setWs .w8]
        script := some .x, sp := some (address s.cfg ptr), seq := .hdr })) ∨
    (i.isRecord = true ∧ RecordFrame s t) ∨
    (i.isRecord = false ∧ Answer (rotates i) (streams i) (images i) s t) := by
  by_cases hs : scripts i = true
  · cases i <;> cases hs
    · exact .inl ⟨rfl, (Host.Outcome.next.inj h).symm⟩
    · exact .inr (.inl ⟨_, rfl, (exec_runScript_cases h).imp_right And.right⟩)
  · by_cases hr : i.isRecord = true
    · refine .inr (.inr (.inl ⟨hr, ?_⟩))
      cases i <;> cases hr <;> exact runRecord_frame h
    · have hr : i.isRecord = false := by simpa using hr
      exact .inr (.inr (.inr ⟨hr, exec_answer (by simpa using hs) hr h⟩))

theorem exec_const {i : Instr} {s t : State} (h : exec i s = .next t) : InstrConst s t := by
  rcases exec_kinds h with ⟨-, rfl⟩ | ⟨ptr, -, rfl | rfl⟩ | ⟨-, h⟩ | ⟨-, h⟩
  · exact ⟨⟨rfl, rfl, rfl, rfl, rfl, rfl⟩, rfl, rfl, rfl, rfl⟩
  · exact ⟨⟨rfl, rfl, rfl, rfl, rfl, rfl⟩, rfl, rfl, rfl, rfl⟩
  · exact ⟨⟨rfl, rfl, rfl, rfl, rfl, rfl⟩, rfl, rfl, rfl, rfl⟩
  · exact ⟨h.const, h.requests, h.refused, h.session, h.rst⟩
  · exact ⟨h.frame.const, h.frame.requests, h.frame.refused, h.frame.session, h.frame.rst⟩

theorem exec_geometry {i : Instr} {s t : State} (h : exec i s = .next t) (hi : ∀ m, i ≠ .setRotation m) :
    GeometryFrame s t := by
  rcases exec_kinds h with ⟨-, rfl⟩ | ⟨ptr, -, rfl | rfl⟩ | ⟨-, h⟩ | ⟨-, h⟩
  · exact ⟨rfl, rfl, rfl, rfl, rfl⟩
  · exact ⟨rfl, rfl, rfl, rfl, rfl⟩
  · exact ⟨rfl, rfl, rfl, rfl, rfl⟩
  · exact h.geometry
  · exact h.geometry.resolve_right fun ⟨hrot, _⟩ => let ⟨m, e⟩ := rotates_iff.1 hrot; hi m e

theorem exec_initialized {i : Instr} {s t : State} (h : exec i s = .next t) (hi : i ≠ .init) :
    t.initialized = s.initialized := by
  rcases exec_kinds h with ⟨rfl, -⟩ | ⟨ptr, -, rfl | rfl⟩ | ⟨-, h⟩ | ⟨-, h⟩
  · exact absurd rfl hi
  · rfl
  · rfl
  · exact h.initialized
  · exact h.frame.initialized

theorem exec_dma {i : Instr} {s t : State} (h : exec i s = .next t) (hi : streams i = false) :
    DmaFrame s t ∧ (images i = false → t.pending = s.pending) := by
  rcases exec_kinds h with ⟨-, rfl⟩ | ⟨ptr, -, rfl | rfl⟩ | ⟨-, h⟩ | ⟨-, h⟩
  · exact ⟨⟨rfl, rfl, rfl⟩, fun _ => rfl⟩
  · exact ⟨⟨rfl, rfl, rfl⟩, fun _ => rfl⟩
  · exact ⟨⟨rfl, rfl, rfl⟩, fun _ => rfl⟩
  · exact ⟨h.dma, fun _ => h.pending⟩
  · rw [hi] at h
    exact ⟨h.dmaFrame, fun hm => (hm ▸ h).pending⟩

/-- Settles O50: the kinds of instruction, each with its frame. -/
theorem instructionFrame : Obligations.InstructionFrame := by
  intro i s t h
  have hc := exec_const h
  refine ⟨⟨hc.const.cfg, hc.requests, hc.const.resetIn, hc.refused, hc.session, hc.rst, hc.const.colStart,
    hc.const.rowStart, State.memRead_congr hc.const.cfg hc.const.ram hc.const.rostore⟩, fun hi => ?_,
    exec_initialized h, fun hi hx hr => ?_, fun h1 h2 h3 => ?_⟩
  · obtain ⟨h1, h2, h3, h4, h5⟩ := exec_geometry h hi
    exact ⟨h1, h2, h3, h4, h5⟩
  · rcases exec_kinds h with ⟨rfl, -⟩ | ⟨ptr, rfl, -⟩ | ⟨hr', -⟩ | ⟨-, h⟩
    · exact absurd rfl hi
    · exact absurd rfl (hx ptr)
    · simp [hr] at hr'
    · have hf := h.frame
      exact ⟨hf.seq, hf.script, hf.sp, hf.ncmd, hf.nargs, hf.dflag, hf.cmd⟩
  · have hs : streams i = false := by
      rw [Bool.eq_false_iff, Ne, streams_iff]
      rintro (⟨x, y, w, c, e⟩ | ⟨x, y, w, c, e⟩ | ⟨x, y, w, d, c, e⟩)
      exacts [h1 _ _ _ _ e, h2 _ _ _ _ e, h3 _ _ _ _ _ e]
    obtain ⟨⟨hb, hv, hr⟩, hp⟩ := exec_dma h hs
    refine ⟨hb, hv, hr, fun h4 h5 => hp ?_⟩
    rw [Bool.eq_false_iff, Ne, images_iff]
    rintro (⟨x, y, w, d, p, e⟩ | ⟨x, y, w, d, p, e⟩)
    exacts [h4 _ _ _ _ _ e, h5 _ _ _ _ _ e]

/-! Steps. -/

/-- An accepting block runs the host's next request. -/
theorem step_request {s : State} {q : Request} {rest : List Request} {i : Instr} (ha : Accepts s)
    (hq : s.requests = q :: rest) (hd : decodeRequest q = .ok i) : step s = exec i { s with requests := rest } := by
  obtain ⟨hm, hp, hi, hb⟩ := ha
  rw [step_moves hm]
  simp [sequencerMove, hp, hi, hb, takeRequest, hq, hd]

/-- Settles O4, by the two places where the cycle fetches an instruction. -/
theorem stepRunsDecodedInstruction : Obligations.StepRunsDecodedInstruction :=
  ⟨fun _ _ _ _ ha hq hd => step_request ha hq hd, fun _ _ _ _ hm hp hc hs hd => step_record hm hp hc hs hd⟩

/-- A row keeps an open session open; only the session step writes it (40_init_sequencer R141). -/
theorem RowAnswer.session_open {s t : State} (h : RowAnswer s t) (hs : s.session = true) : t.session = true := by
  cases h with
  | endFault op f h => simpa [State.unset_eq] using hs
  | session q id h hq => rfl
  | rot h => rw [rotateBody_eq]; exact hs
  | _ => exact hs

theorem StepAnswer.session_open {s t : State} (h : StepAnswer s t) (hr : s.resetIn = false) (hs : s.session = true) :
    t.session = true := by
  cases h with
  | reset h => simp [h] at hr
  | agent _ _ _ _ => rw [dmaAgent_eq]; exact hs
  | nextChunk _ c left _ _ => rw [dmaChunk_eq]; exact hs
  | endStream _ c _ => rw [closeStream_eq]; exact hs
  | buffer _ sp p n ws _ => simpa [closeStream_eq] using hs
  | request _ q rest _ i _ h => exact h.frame.session.trans hs
  | record _ _ _ cmd args dly p flag h => exact h.session_open (by exact hs)
  | row _ _ _ h => exact h.session_open hs
  | _ => exact hs

/-- Settles O51: block reset keeps what the block does not own, and every other step is an answer with its frame and
its events. -/
theorem stepFrame : Obligations.StepFrame := by
  intro s t hst
  have h := step_answer hst
  have hk : t.cfg = s.cfg ∧ t.ram = s.ram ∧ t.rostore = s.rostore := by
    by_cases hr : s.resetIn = true
    · rw [step_reset hr] at hst
      cases hst
      exact ⟨rfl, rfl, rfl⟩
    · have hk := h.const (by simpa using hr)
      exact ⟨hk.cfg, hk.ram, hk.rostore⟩
  obtain ⟨hc, ha, ho⟩ := hk
  refine ⟨hc, ha, ho, State.memRead_congr hc ha ho, fun hr => ⟨?_, h.session_open hr⟩⟩
  obtain ⟨es, ht, -⟩ := h.events hr
  exact ⟨es, ht⟩

/-! `S.initialized`. -/

/-- A row leaves `S.initialized`, but for SQ_DONE of an `INIT`, which sets it and responds (40_init_sequencer R149). -/
theorem RowAnswer.initialized {s t : State} (h : RowAnswer s t) :
    t.initialized = s.initialized ∨
      t.initialized = true ∧ s.seq = .done ∧ (∃ id, s.script = some id ∧ id ≠ .x) ∧
        t.trace = s.trace ++ [.resp .ok 0] ∧ t.busy = false := by
  cases h with
  | endFault op f h => exact .inl (by simp [State.unset_eq])
  | rot h => rw [rotateBody_eq]; exact .inl rfl
  | done b id h hs hb =>
    by_cases hx : id = .x
    · exact .inl (by simp [hb, hx])
    · exact .inr ⟨by simp [hb, hx], h, ⟨id, hs, hx⟩, rfl, rfl⟩
  | _ => exact .inl rfl

/-- A step outside reset leaves `S.initialized`, but for SQ_DONE of an `INIT` and the acceptance of one. -/
theorem StepAnswer.initialized {s t : State} (h : StepAnswer s t) (hr : s.resetIn = false) :
    t.initialized = s.initialized ∨
    (t.initialized = true ∧ s.seq = .done ∧ (∃ id, s.script = some id ∧ id ≠ .x) ∧
      t.trace = s.trace ++ [.resp .ok 0] ∧ t.busy = false) ∨
    (t.initialized = false ∧ Accepts s ∧ ∃ q rest, s.requests = q :: rest ∧ decodeRequest q = .ok .init) := by
  cases h with
  | reset h => simp [h] at hr
  | agent _ _ _ _ => rw [dmaAgent_eq]; exact .inl rfl
  | nextChunk _ c left _ _ => rw [dmaChunk_eq]; exact .inl rfl
  | endStream _ c _ => rw [closeStream_eq]; exact .inl rfl
  | buffer _ sp p n ws _ => exact .inl (by simp [closeStream_eq])
  | init ha q rest hq hd => exact .inr (.inr ⟨rfl, ha, q, rest, hq, hd⟩)
  | request _ q rest _ i _ h => exact .inl h.frame.initialized
  | record _ _ _ cmd args dly p flag h =>
    rcases h.initialized with h | ⟨-, hq, -⟩
    · exact .inl h
    · cases hq
  | row _ _ _ h => exact h.initialized.imp_right .inl
  | _ => exact .inl rfl

/-- Settles O53: the two writers, and that each does write. -/
theorem initializedWriters : Obligations.InitializedWriters := by
  intro s t hr hst
  have h := (step_answer hst).initialized hr
  refine ⟨fun h0 h1 => ?_, fun h1 h0 => ?_, fun id hm hp hq hs hx => ?_, fun q rest ha hq hd => ?_⟩
  · rcases h with h | ⟨-, h⟩ | ⟨h, -⟩
    · simp [h0, h1] at h
    · exact h
    · simp [h1] at h
  · rcases h with h | ⟨h, -⟩ | ⟨-, h⟩
    · simp [h0, h1] at h
    · simp [h0] at h
    · exact h
  · rw [step_row hm hp (by simp [hq]) (by simp [hq]), fsmRow, hq] at hst
    cases hst
    cases id <;> simp_all [rowDone, State.ok_eq]
  · rw [step_request ha hq hd, exec_init] at hst
    cases hst
    rfl

/-! Responses. -/

/-- Quiet events and then a response hold no other response. -/
theorem Quiet.resp_last {front pre post : List Event} (hq : Quiet front) {st st' : Status} {v v' : Word}
    (h : front ++ [.resp st v] = pre ++ .resp st' v' :: post) :
    post = [] ∧ ∀ e ∈ pre, ∀ st'' v'', e ≠ .resp st'' v'' := by
  have hpre : post = [] ∧ pre = front := by
    rcases List.append_eq_append_iff.1 h with ⟨mid, rfl, hm⟩ | ⟨mid, rfl, hm⟩
    · cases mid with
      | nil => simp_all
      | cons e mid => simp at hm
    · cases mid with
      | nil => simp_all
      | cons e mid =>
        simp only [List.cons_append, List.cons.injEq] at hm
        exact absurd (by simp [hm.1]) (hq.not_resp st' v')
  obtain ⟨hpost, rfl⟩ := hpre
  exact ⟨hpost, fun e he st'' v'' h => hq.not_resp st'' v'' (h ▸ he)⟩

/-- A response in a step is its last event and the only one, with `S.busy` 0 after it. -/
theorem StepEvents.resp_last {s t : State} {es front back : List Event} {st : Status} {v : Word}
    (h : StepEvents s t es) (he : es = front ++ .resp st v :: back) :
    back = [] ∧ t.busy = false ∧ ∀ e ∈ front, ∀ st' v', e ≠ .resp st' v' := by
  have hmem : Event.resp st v ∈ es := by simp [he]
  cases h with
  | progress hq _ _ _ => exact absurd hmem (hq.not_resp st v)
  | pulse w _ _ _ _ => simp at hmem
  | finish _ _ _ hq _ hb _ =>
    obtain ⟨hback, hfront⟩ := hq.resp_last he
    exact ⟨hback, hb, hfront⟩
  | refuse q _ _ _ _ _ => simp at hmem
  | start q _ hq _ _ _ => exact absurd hmem (hq.not_resp st v)
  | respond _ _ q _ hq _ hb _ =>
    obtain ⟨hback, hfront⟩ := hq.resp_last he
    exact ⟨hback, hb, hfront⟩

/-- Settles O55: a step that ends a request in progress, or an accepted one, is one whose last event is the
response. -/
theorem oneResponsePerRequest : Obligations.OneResponsePerRequest := by
  intro s t hr hst
  obtain ⟨es, ht, he⟩ := (step_answer hst).events hr
  refine ⟨es, ht, fun front back st v => he.resp_last, fun hb hb' => ?_, fun q rest i ha hq hd hf hb => ?_⟩
  · cases he with
    | progress _ _ h _ => simp [h, hb] at hb'
    | pulse _ _ _ h _ => simp [h, hb] at hb'
    | finish st v _ _ _ _ _ => exact ⟨_, st, v, rfl⟩
    | refuse _ _ _ _ h _ => simp [h, hb] at hb'
    | start _ _ _ _ h _ => simp [h] at hb'
    | respond st v _ _ _ _ _ _ => exact ⟨_, st, v, rfl⟩
  · rw [step_request ha hq hd] at hst
    have hx := exec_const hst
    have hn : t.requests ≠ s.requests := by
      rw [hx.requests, hq]
      exact (List.cons_ne_self q rest).symm
    cases he with
    | progress _ _ _ h => exact absurd h hn
    | pulse _ _ _ _ h => exact absurd h hn
    | finish st v _ _ _ _ _ => exact ⟨_, st, v, rfl⟩
    | refuse _ _ h _ _ _ =>
      obtain ⟨⟨-, -, hs, -⟩, -⟩ := ha
      simp [hx.refused, hs] at h
    | start _ _ _ _ h _ => simp [h] at hb
    | respond st v _ _ _ _ _ _ => exact ⟨_, st, v, rfl⟩

end Sys2Proof.Machine
end

section
/-! The bus invariant (10_state R40, R56, 70_reset_and_hazards R347, R350, R353). -/

namespace Sys2Proof.Machine

/-- The bus the trace leaves. -/
def State.bus (s : State) : Bus := Bus.start.afterAll s.trace

/-- The part of the bus invariant that speaks of the trace: the fields hold its levels, and it keeps the discipline. -/
structure BusTrace (s : State) : Prop where
  levels     : s.bus.levels = s.levels
  discipline : busDiscipline s.cfg Bus.start s.trace = true

/-- The part of the bus invariant that holds while no fault is recorded: levels and bracket are those of the phase. -/
structure BusLive (s : State) : Prop where
  phase    : phaseLevels s
  stream   : streamLevels s
  bracket  : bracketCommands s s.bus
  busy     : s.seq ≠ .idle → s.busy = true
  transfer : s.dmaBusy = true → s.pending ≠ .none
  steady   : s.initialized = true → s.busy = false → s.cs = some true ∧ s.ws = some .w16

theorem busOk_iff {s : State} : BusOk s ↔ BusTrace s ∧ (s.fault = none → BusLive s) := by
  constructor
  · rintro ⟨hl, hd, h⟩
    exact ⟨⟨hl, hd⟩, fun hf => let ⟨h1, h2, h3, h4, h5, h6⟩ := h hf; ⟨h1, h2, h3, h4, h5, h6⟩⟩
  · rintro ⟨⟨hl, hd⟩, h⟩
    exact ⟨hl, hd, fun hf => let ⟨h1, h2, h3, h4, h5, h6⟩ := h hf; ⟨h1, h2, h3, h4, h5, h6⟩⟩

/-! The trace's part. -/

theorem State.bus_append {s t : State} {es : List Event} (h : t.trace = s.trace ++ es) : t.bus = s.bus.afterAll es := by
  rw [State.bus, h, Bus.afterAll_append]; rfl

/-- Events that the discipline allows after the trace, whose levels the fields take. -/
theorem BusTrace.append {s t : State} (h : BusTrace s) (es : List Event) (ht : t.trace = s.trace ++ es)
    (hc : t.cfg = s.cfg) (hl : t.levels = s.levels.afterAll es) (hd : busDiscipline s.cfg s.bus es = true) :
    BusTrace t where
  levels := by rw [State.bus_append ht, Bus.afterAll_levels, h.levels, hl]
  discipline := by rw [hc, ht, busDiscipline_append, h.discipline]; exact hd

/-- A step with no event keeps the trace's part, if it leaves the lines. -/
theorem BusTrace.congr {s t : State} (h : BusTrace s) (ht : t.trace = s.trace) (hc : t.cfg = s.cfg)
    (hl : t.levels = s.levels) : BusTrace t := h.append [] (by simpa using ht) hc hl rfl

/-- In a stream words can go out as pixels. -/
theorem pixelsAllowed_of_stream {s : State} (h : BusTrace s) (hl : BusLive s) (hp : s.pending ≠ .none) :
    s.bus.pixelsAllowed s.cfg = true := by
  obtain ⟨hc, hd, hw, -, -⟩ := hl.stream hp
  obtain ⟨-, hb⟩ := hl.bracket
  have e := h.levels
  simp [Bus.pixelsAllowed, Bus.windowSent, hb hp, e, State.levels, hc, hd, hw]

/-! The live part, by the kind of phase. -/

/-- An idle FSM with no stream: only the steady-state width is asked for. -/
theorem BusLive.rest {t : State} (hq : t.seq = .idle) (hp : t.pending = .none) (hd : t.dmaBusy = false)
    (hs : t.initialized = true → t.busy = false → t.cs = some true ∧ t.ws = some .w16) : BusLive t where
  phase := by simp [phaseLevels, hq]
  stream := fun h => absurd hp h
  bracket := ⟨by simp [hq], fun h => absurd hp h⟩
  busy := fun h => absurd hq h
  transfer := by simp [hd]
  steady := hs

/-- A running FSM: its phase's levels, and one command in a record's bracket. -/
theorem BusLive.running {t : State} (hb : t.busy = true) (hp : t.pending = .none) (hd : t.dmaBusy = false)
    (hl : phaseLevels t) (hc : t.seq = .cnt ∨ t.seq = .arg → t.bus.cmds.length = 1) : BusLive t where
  phase := hl
  stream := fun h => absurd hp h
  bracket := ⟨hc, fun h => absurd hp h⟩
  busy := fun _ => hb
  transfer := by simp [hd]
  steady := by simp [hb]

/-- A stream in progress: its bracket is open after a whole window. -/
theorem BusLive.streaming {t : State} (hq : t.seq = .idle) (hb : t.busy = true) (hp : t.pending ≠ .none)
    (hl : t.cs = some false ∧ t.dc = some true ∧ t.ws = some .w16) (hc : t.bus.cmds = windowCommands t.cfg) :
    BusLive t where
  phase := by simp [phaseLevels, hq]
  stream := fun _ => ⟨hl.1, hl.2.1, hl.2.2, hq, hb⟩
  bracket := ⟨by simp [hq], fun _ => hc⟩
  busy := fun h => absurd hq h
  transfer := fun _ => hp
  steady := by simp [hb]

/-! Streams. -/

theorem BusTrace.dmaChunk {s : State} (h : BusTrace s) (c : Word) {left : Nat} (hl : left ≠ 0)
    (hp : s.bus.pixelsAllowed s.cfg = true) : BusTrace (dmaChunk s c left) := by
  have := s.cfg.maxChunk.pos
  rw [dmaChunk_eq]
  refine h.append [.dmaStart c (min left s.cfg.maxChunk)] rfl rfl rfl ?_
  simp [busDiscipline, eventAllowed, hp]
  omega

theorem busOk_closeStream {s : State} (h : BusTrace s) (hq : s.seq = .idle) (hp : s.pending = .none)
    (hd : s.dmaBusy = false) (hw : s.ws = some .w16) : BusOk (closeStream s) := by
  rw [closeStream_eq]
  exact busOk_iff.2 ⟨h.append [.cs true, .resp .ok 0] rfl rfl rfl rfl, fun _ => .rest hq hp hd fun _ _ => ⟨rfl, hw⟩⟩

/-! Requests. -/

theorem busTrace_openWindow {s : State} (h : BusTrace s) (xs ys : Word) (x0 y0 x1 y1 : Int) :
    BusTrace (openWindow s xs ys x0 y0 x1 y1) := by
  rw [openWindow_eq]
  refine h.append _ rfl rfl (by simp [State.levels, Levels.afterAll_append]) ?_
  simp only [busDiscipline_append, Bus.afterAll_append, Bus.afterAll_cons, Bus.afterAll_nil]
  rw [busDiscipline_windowEvents (by simp) (by simp)]
  simp [busDiscipline, eventAllowed]

/-- An open window's bracket has sent a whole window's commands. -/
theorem openWindow_cmds (s : State) (xs ys : Word) (x0 y0 x1 y1 : Int) :
    (openWindow s xs ys x0 y0 x1 y1).bus.cmds = windowCommands s.cfg := by
  rw [openWindow_eq, State.bus_append (s := s) rfl, Bus.afterAll_append, Bus.afterAll_append,
    Bus.afterAll_windowEvents (by simp)]
  rfl

theorem openWindow_pixelsAllowed {s : State} (h : BusTrace s) (xs ys : Word) (x0 y0 x1 y1 : Int) :
    (openWindow s xs ys x0 y0 x1 y1).bus.pixelsAllowed s.cfg = true := by
  have e := (busTrace_openWindow h xs ys x0 y0 x1 y1).levels
  have hc := openWindow_cmds s xs ys x0 y0 x1 y1
  simp only [Bus.pixelsAllowed, Bus.windowSent, e, hc]
  simp [openWindow_eq, State.levels]

theorem Answer.busOk {a b c : Bool} {s t : State} (h : Answer a b c s t) (ht : BusTrace s) (hl : BusLive s)
    (ha : Accepts s) : BusOk t := by
  obtain ⟨⟨-, hf, -, hd⟩, hp, hq, hb⟩ := ha
  rw [busOk_iff]
  cases h with
  | fault r op i => exact ⟨ht.congr rfl rfl rfl, by simp⟩
  | @windowFault es op f h =>
    have hbd := busDiscipline_partialWindow (b := s.bus.after (.cs false)) rfl rfl h
    exact ⟨ht.append (.cs false :: es) (by simp [State.unset_eq]) (by simp [State.unset_eq])
      (by simp [State.unset_eq]) (by simpa [busDiscipline, eventAllowed] using hbd), by simp [State.unset_eq]⟩
  | @done es st v h =>
    have hs : s.initialized = true → s.cs = some true ∧ s.ws = some .w16 := fun hi => hl.steady hi hb
    rcases h.bracket with rfl | hw
    · exact ⟨ht.append [.resp st v] rfl rfl rfl rfl, fun _ => .rest hq hp hd fun hi _ => hs hi⟩
    · obtain ⟨hbd, hcs, hws⟩ := hw s.bus
      rw [ht.levels] at hcs hws
      refine ⟨ht.append (es ++ [.resp st v]) (by simp) (by simp) ?_ ?_,
        fun _ => .rest (by simpa using hq) (by simpa using hp) (by simpa using hd) fun _ _ => ?_⟩
      · simp [Levels.afterAll_append]
      · simp [busDiscipline_append, hbd, busDiscipline, eventAllowed]
      · exact ⟨by simpa [State.emitAll_cs] using hcs, by simpa [State.emitAll_ws] using hws⟩
  | rotated r h =>
    rw [rotateBody_ok]
    refine ⟨ht.append (rotateEvents s.cfg r ++ [.resp .ok 0]) rfl rfl ?_ ?_,
      fun _ => .rest hq hp hd fun _ _ => ⟨rfl, rfl⟩⟩
    · simp [Levels.afterAll_append, State.levels, drawn]
    · simp [busDiscipline_append, busDiscipline_rotateEvents, busDiscipline, eventAllowed]
  | chunk xs ys x0 y0 x1 y1 v n h hn hd =>
    have hcmds := openWindow_cmds s xs ys x0 y0 x1 y1
    refine ⟨(busTrace_openWindow ht ..).dmaChunk v (by omega) ?_, fun _ => ?_⟩
    · have := openWindow_pixelsAllowed ht xs ys x0 y0 x1 y1
      simpa [openWindow_eq] using this
    · have hbus : (dmaChunk (openWindow s xs ys x0 y0 x1 y1) v n).bus = (openWindow s xs ys x0 y0 x1 y1).bus := by
        rw [dmaChunk_eq, State.bus_append (s := openWindow s xs ys x0 y0 x1 y1) rfl]; simp
      refine .streaming ?_ ?_ ?_ ?_ (by rw [hbus, hcmds]; simp [dmaChunk_eq, openWindow_eq]) <;>
        simp [dmaChunk_eq, openWindow_eq, hq]
  | stuck xs ys x0 y0 x1 y1 sp p n h =>
    have hcmds := openWindow_cmds s xs ys x0 y0 x1 y1
    refine ⟨(busTrace_openWindow ht xs ys x0 y0 x1 y1).congr rfl rfl rfl, fun _ => ?_⟩
    refine .streaming ?_ ?_ ?_ ?_ (by rw [openWindow_eq] at hcmds ⊢; exact hcmds) <;> simp [openWindow_eq, hq]

/-! Rows. -/

/-- A row keeps the bus invariant: each phase's levels are what the next row needs (40_init_sequencer R140, R143). -/
theorem RowAnswer.busOk {s t : State} (h : RowAnswer s t) (ht : BusTrace s) (hl : BusLive s) (hp : s.pending = .none)
    (hd : s.dmaBusy = false) (hi : s.seq ≠ .idle) : BusOk t := by
  have hb := hl.busy hi
  have hph := hl.phase
  obtain ⟨hcmd, -⟩ := hl.bracket
  have hlev := ht.levels
  rw [busOk_iff]
  cases h with
  | fault sp r op i => exact ⟨ht.congr rfl rfl rfl, by simp⟩
  | endFault op f h =>
    exact ⟨ht.append [.cs true] (by simp [State.unset_eq]) (by simp [State.unset_eq]) (by simp [State.unset_eq]) rfl,
      by simp [State.unset_eq]⟩
  | idle h => exact absurd h hi
  | session q id h hq =>
    refine ⟨ht.append (sessionEvents s) rfl rfl ?_ ?_, fun _ => .running hb hp hd ?_ ?_⟩
    · cases hs : s.session <;> simp [sessionEvents, hs, State.levels]
    · cases hs : s.session <;> simp [sessionEvents, hs, busDiscipline, eventAllowed]
    · rcases hq with ⟨rfl, -⟩ | ⟨rfl, -⟩ <;> exact ⟨rfl, rfl⟩
    · rcases hq with ⟨rfl, -⟩ | ⟨rfl, -⟩ <;> simp
  | rst q id v h hq =>
    have hph : s.cs = some true ∧ s.ws = some .w8 := by rcases h with h | h | h <;> simpa [phaseLevels, h] using hph
    refine ⟨ht.append [.rst v, .delay 50] rfl rfl (by simp [State.levels]) ?_, fun _ => .running hb hp hd ?_ ?_⟩
    · simp [busDiscipline, eventAllowed, hlev, State.levels, hph]
    · rcases hq with ⟨rfl, -⟩ | ⟨rfl, -⟩ | ⟨rfl, -⟩ <;> exact hph
    · rcases hq with ⟨rfl, -⟩ | ⟨rfl, -⟩ | ⟨rfl, -⟩ <;> simp
  | hdr sp n h =>
    simp only [phaseLevels, h] at hph
    refine ⟨ht.congr rfl rfl rfl, fun _ => .running hb hp hd ?_ ?_⟩ <;>
      by_cases hn : n = 0#8 <;> simp [phaseLevels, hn, hph]
  | cmd sp v h =>
    simp only [phaseLevels, h] at hph
    refine ⟨ht.append [.cs false, .dc false, wByte v] rfl rfl (by simp [State.levels]) ?_,
      fun _ => .running hb hp hd ⟨rfl, hph.2⟩ fun _ => ?_⟩
    · simp [busDiscipline, eventAllowed, wByte, Bus.bytesAllowed, hlev, State.levels, hph]
    · rw [State.bus_append (s := s) rfl]
      simp [wByte, Bus.after, Bus.cmdsAfter]
  | cnt sp c h =>
    simp only [phaseLevels, h] at hph
    refine ⟨ht.append [.dc true] rfl rfl (by simp [State.levels]) rfl,
      fun _ => .running hb hp hd ⟨hph.1, hph.2, rfl⟩ fun _ => ?_⟩
    rw [State.bus_append (s := s) rfl]
    simpa using hcmd (.inl h)
  | argNone h =>
    simp only [phaseLevels, h] at hph
    exact ⟨ht.congr rfl rfl rfl, fun _ => .running hb hp hd ⟨hph.1, hph.2.1⟩ (by simp)⟩
  | arg sp v n q h hq =>
    simp only [phaseLevels, h] at hph
    obtain ⟨hcs, hws, hdc⟩ := hph
    have hone := hcmd (.inr h)
    have hbd := busDiscipline_wBytes (c := s.cfg) (b := s.bus) (by rw [hlev]; exact hcs) (by rw [hlev]; exact hws)
      (by rw [hlev]; exact hdc) (ne_windowCommands (by simp [hone])) [v]
    refine ⟨ht.append [wByte v] rfl rfl rfl hbd, fun _ => .running hb hp hd ?_ fun _ => ?_⟩
    · rcases hq with rfl | rfl
      · exact ⟨hcs, hws⟩
      · exact ⟨hcs, hws, hdc⟩
    · have hbus := Bus.afterAll_wBytes (b := s.bus) (by rw [hlev]; exact hdc) [v]
      rw [State.bus_append (s := s) (es := [v].map wByte) rfl, hbus]
      exact hone
  | endRec q h hq =>
    simp only [phaseLevels, h] at hph
    refine ⟨ht.append [.cs true] rfl rfl rfl rfl, fun _ => .running hb hp hd ?_ ?_⟩
    · rcases hq with rfl | rfl <;> exact ⟨rfl, hph.2⟩
    · rcases hq with rfl | rfl <;> simp
  | dly sp d h =>
    simp only [phaseLevels, h] at hph
    refine ⟨ht.append [.delay d] rfl rfl rfl ?_, fun _ => .running hb hp hd hph (by simp)⟩
    simp [busDiscipline, eventAllowed, hlev, State.levels, hph]
  | recDone n q h hq =>
    simp only [phaseLevels, h] at hph
    refine ⟨ht.congr rfl rfl rfl, fun _ => .running hb hp hd ?_ ?_⟩
    · rcases hq with rfl | rfl <;> exact hph
    · rcases hq with rfl | rfl <;> simp
  | nextScript id h hid =>
    simp only [phaseLevels, h] at hph
    exact ⟨ht.congr rfl rfl rfl, fun _ => .running hb hp hd hph (by simp)⟩
  | nextRot h =>
    simp only [phaseLevels, h] at hph
    exact ⟨ht.congr rfl rfl rfl, fun _ => .running hb hp hd hph (by simp)⟩
  | nextDone h hx =>
    simp only [phaseLevels, h] at hph
    exact ⟨ht.append [.setWs .w16] rfl rfl rfl rfl, fun _ => .running hb hp hd ⟨hph.1, rfl⟩ (by simp)⟩
  | rot h =>
    rw [rotateBody_eq]
    exact ⟨ht.append (rotateEvents s.cfg s.cfg.initRotation) rfl rfl (by simp [State.levels])
      (busDiscipline_rotateEvents ..), fun _ => .running hb hp hd ⟨rfl, rfl⟩ (by simp)⟩
  | done v id h hs hv =>
    simp only [phaseLevels, h] at hph
    exact ⟨ht.append [.resp .ok 0] rfl rfl rfl rfl, fun _ => .rest rfl hp hd fun _ _ => hph⟩

/-! Steps. -/

theorem busOk_reset (c : Config) : BusOk (State.resetWith c) :=
  busOk_iff.2 ⟨⟨rfl, rfl⟩, fun _ => .rest rfl rfl rfl nofun⟩

/-- A record on the running FSM leaves SQ_REC_DONE's phase before its last row. -/
theorem busLive_record {s : State} (cmd : Byte) (args : List Byte) (dly : Option Nat) (p : Nat) (flag : Bool)
    (ht : BusTrace s) (hl : BusLive s) (hp : s.pending = .none) (hd : s.dmaBusy = false) (hc : s.seq = .cmd) :
    let u : State := { s with
      cs := some true, dc := some true, trace := s.trace ++ recordEvents cmd args dly
      cmd := some cmd, nargs := some 0, dflag := some flag, sp := some p, seq := .recDone }
    BusTrace u ∧ BusLive u := by
  have hph := hl.phase
  simp only [phaseLevels, hc] at hph
  have hws : s.bus.levels.ws = some .w8 := by rw [ht.levels]; exact hph.2
  exact ⟨ht.append (recordEvents cmd args dly) rfl rfl (by simp [State.levels]) (busDiscipline_recordEvents hws ..),
    .running (hl.busy (by simp [hc])) hp hd ⟨rfl, hph.2⟩ (by simp)⟩

theorem StepAnswer.busOk {s t : State} (h : StepAnswer s t) (hs : BusOk s) : BusOk t := by
  obtain ⟨ht, hlive⟩ := busOk_iff.1 hs
  cases h with
  | reset h => exact busOk_reset s.cfg
  | agent _ hf _ hb =>
    have hl := hlive hf
    have hp := hl.transfer hb
    obtain ⟨hcs, hdc, hws, hq, hbusy⟩ := hl.stream hp
    obtain ⟨-, hcmds⟩ := hl.bracket
    rw [dmaAgent_eq]
    refine busOk_iff.2 ⟨ht.append [.dmaDone] rfl rfl rfl rfl, fun _ => .streaming hq hbusy hp ⟨hcs, hdc, hws⟩ ?_⟩
    rw [State.bus_append (s := s) rfl]
    exact hcmds hp
  | nextChunk hm c left hr hl0 =>
    obtain ⟨-, hf, -, -⟩ := hm
    have hl := hlive hf
    have hp : s.pending ≠ .none := by simp [hr]
    obtain ⟨hcs, hdc, hws, hq, hbusy⟩ := hl.stream hp
    obtain ⟨-, hcmds⟩ := hl.bracket
    refine busOk_iff.2 ⟨ht.dmaChunk c hl0 (pixelsAllowed_of_stream ht hl hp), fun _ => ?_⟩
    rw [dmaChunk_eq]
    refine .streaming hq hbusy (by simp) ⟨hcs, hdc, hws⟩ ?_
    rw [State.bus_append (s := s) rfl]
    exact hcmds hp
  | endStream hm c hr =>
    obtain ⟨-, hf, -, hd⟩ := hm
    obtain ⟨-, -, hws, hq, -⟩ := (hlive hf).stream (by simp [hr])
    exact busOk_closeStream (ht.congr rfl rfl rfl) hq rfl hd hws
  | buffer hm sp p n ws hr =>
    obtain ⟨-, hf, -, hd⟩ := hm
    have hp : s.pending ≠ .none := by simp [hr]
    obtain ⟨-, -, hws, hq, -⟩ := (hlive hf).stream hp
    refine busOk_closeStream (ht.append [.wbuf sp p ws] (by simp) (by simp) (State.emit_levels _ _) ?_)
      (by simpa using hq) (by simp) (by simpa using hd) (by simpa [State.emit_ws, State.levels] using hws)
    simp [busDiscipline, eventAllowed, pixelsAllowed_of_stream ht (hlive hf) hp]
  | wait _ _ => exact hs
  | refuse ha q rest _ =>
    obtain ⟨⟨-, hf, -, hd⟩, hp, hq, -⟩ := ha
    exact busOk_iff.2 ⟨ht.congr rfl rfl rfl, fun _ => .rest hq hp hd (hlive hf).steady⟩
  | init ha q rest _ _ =>
    obtain ⟨⟨-, -, -, hd⟩, hp, -, -⟩ := ha
    exact busOk_iff.2 ⟨ht.congr rfl rfl rfl, fun _ => .running rfl hp hd trivial (by simp)⟩
  | runScript ha q rest _ ptr hi =>
    obtain ⟨⟨-, hf, -, hd⟩, hp, -, hb⟩ := ha
    obtain ⟨hcs, -⟩ := (hlive hf).steady hi hb
    exact busOk_iff.2 ⟨ht.append [.setWs .w8] rfl rfl rfl rfl, fun _ => .running rfl hp hd ⟨hcs, rfl⟩ (by simp)⟩
  | request ha q rest _ i _ h =>
    obtain ⟨⟨hr, hf, hx, hd⟩, hp, hq, hb⟩ := ha
    exact h.busOk (ht.congr rfl rfl rfl) (.rest hq hp hd (hlive hf).steady) ⟨⟨hr, hf, hx, hd⟩, hp, hq, hb⟩
  | record hm hp hc cmd args dly p flag h =>
    obtain ⟨-, hf, -, hd⟩ := hm
    obtain ⟨htu, hlu⟩ := busLive_record cmd args dly p flag ht (hlive hf) hp hd hc
    exact h.busOk htu hlu hp hd (by simp)
  | row hm hp hi h =>
    obtain ⟨-, hf, -, hd⟩ := hm
    exact h.busOk ht (hlive hf) hp hd hi

/-- Settles O58, by the cases of a step over the two parts of the invariant: what the trace keeps always, and what the
phase adds while no fault is recorded. -/
theorem busDisciplineKept : Obligations.BusDisciplineKept := fun _ _ hs hst => (step_answer hst).busOk hs

/-- Settles O60: each invariant of R58's state. -/
theorem invariantsHoldAtReset : Obligations.InvariantsHoldAtReset := fun c =>
  ⟨geometryOk_reset c, busOk_reset c, dmaOk_reset c, ⟨rfl, rfl⟩, resetLineOk_reset c,
    ⟨rfl, rfl, rfl, rfl⟩, rfl, rfl, rfl⟩

/-- Settles O1: the table of R58 is the definition of the reset state. -/
theorem resetStateFields : Obligations.ResetStateFields :=
  ⟨fun _ => ⟨rfl, rfl, rfl, rfl, rfl, rfl, rfl, rfl, rfl, rfl, rfl, rfl, rfl, rfl, rfl, rfl, rfl, rfl, rfl, rfl, rfl,
    rfl, rfl, rfl, rfl, rfl, rfl⟩, rfl, rfl, rfl⟩

end Sys2Proof.Machine
end

section
/-! The wire streams (10_state R52 to R55) of a record, the window and a repeated stream, and the discipline of INIT's
whole trace (R56). -/

namespace Sys2Proof.Machine

/-! Wire streams. -/

/-- A command at word size 8 puts its byte on the wire with dc 0. -/
theorem wireFrom_command {l : Levels} (h : l.ws = some .w8) (b : Byte) :
    wireFrom l (command b) = [(some false, b)] := by
  show eventPairs { l with dc := some false } (wByte b) ++ [] = _
  rw [eventPairs_wByte (by exact h), List.append_nil]

/-- Settles O18: the command at dc 0, the arguments at dc 1, and a delay puts nothing on the wire. -/
theorem recordWireStream : Obligations.RecordWireStream := by
  intro l cmd args delay h
  have hc := wireFrom_command (l := { l with cs := some false }) h cmd
  have ha := wireFrom_wBytes (l := { l with cs := some false, dc := some true }) h args
  cases delay <;> simp [recordEvents, wireFrom_append, hc, ha, wireFrom, eventPairs]

/-- The first byte of a coordinate: its high byte, which ZERO_HI_LOW8 sends as 0 (R180). -/
def coordHighByte (f : CoordFormat) (v : Int) : Byte :=
  match f with
  | .bytesHiLo => BitVec.ofInt 8 (v / 256)
  | .zeroHiLow8 => 0

/-- A coordinate at word size 8 is two bytes. -/
theorem wireFrom_coord {l : Levels} (h : l.ws = some .w8) (f : CoordFormat) (v : Int) :
    wireFrom l (coord f (u16 v)) = [(l.dc, coordHighByte f v), (l.dc, BitVec.ofInt 8 v)] := by
  cases f <;> simp [coord, wireFrom, eventPairs_wByte h, hiByte_u16, loByte_u16, coordHighByte]

/-- A range is its command byte and the bytes of its two ends (R180). -/
theorem wireFrom_rangeEvents {l : Levels} (h : l.ws = some .w8) (c : Config) (b : Byte) (o : Word) (v0 v1 : Int) :
    wireFrom l (rangeEvents c b o v0 v1) =
      (some false, b) :: (wireFrom { l with dc := some true } (coord c.coordFormat (u16 (v0 + o.toNat))) ++
        wireFrom { l with dc := some true } (coord c.coordFormat (u16 (v1 + o.toNat)))) := by
  simp [rangeEvents, wireFrom_append, wireFrom_command h]

/-- Settles O23: two ranges and the write-to-RAM command, each coordinate by its format. -/
theorem windowWireStream : Obligations.WindowWireStream := by
  intro c l xs ys x0 y0 x1 y1
  refine ⟨?_, by simp, by simp⟩
  simp only [windowEvents, wireFrom_append, Levels.afterAll_append, Levels.afterAll_cons, Levels.afterAll_nil,
    Levels.after_setWs, Levels.afterAll_rangeEvents]
  rw [wireFrom_rangeEvents rfl, wireFrom_rangeEvents rfl, wireFrom_command rfl, wireFrom_coord rfl, wireFrom_coord rfl,
    wireFrom_coord rfl, wireFrom_coord rfl]
  cases hf : c.coordFormat <;> simp [wireFrom, eventPairs, coordHighByte]

/-- `n` words are `n` times their pairs, however they are split. -/
theorem wireFrom_wreps (l : Levels) (c : Word) (sizes : List Nat) :
    wireFrom l (sizes.map (Event.wrep c)) = (List.replicate sizes.sum (wordPairs l.dc c)).flatten := by
  induction sizes with
  | nil => rfl
  | cons n sizes ih =>
    simp only [List.map_cons, wireFrom, eventPairs, Levels.after_wrep, ih, List.sum_cons, List.replicate_add,
      List.flatten_append]

theorem wireFrom_dmas (l : Levels) (c : Word) (sizes : List Nat) :
    wireFrom l (sizes.flatMap fun n => [.dmaStart c n, .dmaDone]) =
      (List.replicate sizes.sum (wordPairs l.dc c)).flatten := by
  induction sizes with
  | nil => rfl
  | cons n sizes ih =>
    simp only [List.flatMap_cons, List.cons_append, List.nil_append, wireFrom, eventPairs, Levels.after_dmaStart,
      Levels.after_dmaDone, ih, List.sum_cons, List.replicate_add, List.flatten_append]

/-- Settles O38: both paths put the words' pairs on the wire, and only the sum of the chunks counts. -/
theorem dmaAndWordPathsSameWire : Obligations.DmaAndWordPathsSameWire := by
  intro l c sizes rest h
  refine ⟨?_, wireFrom_wreps l c rest⟩
  rw [wireFrom_dmas, wireFrom_wreps, h]

/-! The trace of INIT. -/

/-- Events that keep the discipline from any bus that is deselected at word size 8, and leave it so. -/
def KeepsDeselected (c : Config) (es : List Event) : Prop :=
  ∀ b : Bus, b.levels.cs = some true → b.levels.ws = some .w8 →
    busDiscipline c b es = true ∧ (b.levels.afterAll es).cs = some true ∧ (b.levels.afterAll es).ws = some .w8

theorem keepsDeselected_nil (c : Config) : KeepsDeselected c [] := fun _ hc hw => ⟨rfl, hc, hw⟩

theorem KeepsDeselected.append {c : Config} {es fs : List Event} (h : KeepsDeselected c es)
    (h' : KeepsDeselected c fs) :
    KeepsDeselected c (es ++ fs) := by
  intro b hc hw
  obtain ⟨h1, h2, h3⟩ := h b hc hw
  obtain ⟨h4, h5, h6⟩ := h' (b.afterAll es) (by simpa using h2) (by simpa using h3)
  rw [Bus.afterAll_levels] at h5 h6
  exact ⟨by rw [busDiscipline_append, h1, h4]; rfl, by rwa [Levels.afterAll_append], by rwa [Levels.afterAll_append]⟩

theorem keepsDeselected_recordEvents (c : Config) (cmd : Byte) (args : List Byte) (o : Option Nat) :
    KeepsDeselected c (recordEvents cmd args o) := fun _ _ hw =>
  ⟨busDiscipline_recordEvents hw cmd args o, by simp, by simpa using hw⟩

theorem keepsDeselected_recordTrace (c : Config) (i : Instr) : KeepsDeselected c (recordTrace i) := by
  cases i with
  | record cmd args => exact keepsDeselected_recordEvents c cmd args none
  | recordDelay cmd args dly => exact keepsDeselected_recordEvents c cmd args (some (delayMs dly))
  | _ => exact keepsDeselected_nil c

theorem keepsDeselected_records (c : Config) (records : List Instr) :
    KeepsDeselected c (records.flatMap recordTrace) := by
  induction records with
  | nil => exact keepsDeselected_nil c
  | cons i records ih => exact (keepsDeselected_recordTrace c i).append ih

theorem keepsDeselected_resetPulse (c d : Config) : KeepsDeselected c (resetPulse d) := by
  intro b hc hw
  cases h : d.rstPresent <;> simp [resetPulse, h, busDiscipline, eventAllowed, hc, hw]

/-- The session step keeps the discipline and leaves the bus deselected at word size 8 (40_init_sequencer R141). -/
theorem busDiscipline_sessionEvents (s : State) (c : Config) (b : Bus) :
    busDiscipline c b (sessionEvents s) = true ∧ (b.levels.afterAll (sessionEvents s)).cs = some true ∧
      (b.levels.afterAll (sessionEvents s)).ws = some .w8 := by
  cases h : s.session <;> simp [sessionEvents, h, busDiscipline, eventAllowed]

/-- Settles O22: the session step deselects the bus at word size 8, the pulse and the records keep it so, and the
orientation step closes it at word size 16. -/
theorem initTraceKeepsDiscipline : Obligations.InitTraceKeepsDiscipline := by
  intro s records b
  obtain ⟨h1, h2, h3⟩ := busDiscipline_sessionEvents s s.cfg b
  obtain ⟨h4, -, -⟩ := ((keepsDeselected_resetPulse s.cfg s.cfg).append (keepsDeselected_records s.cfg records))
    (b.afterAll (sessionEvents s)) (by simpa using h2) (by simpa using h3)
  rw [busDiscipline_append, Bool.and_eq_true] at h4
  refine ⟨?_, by simp [initTrace, Levels.afterAll_append], by simp [initTrace, Levels.afterAll_append]⟩
  simp [initTrace, busDiscipline_append, h1, h4, busDiscipline_rotateEvents, busDiscipline, eventAllowed]

end Sys2Proof.Machine
end

section
/-! Runs (70_reset_and_hazards R358): the responses along a run, and the run of one INIT. -/

namespace Sys2Proof.Machine

/-! The responses along a run. -/

/-- The requests a state still owes a response: the one in progress and those to come. -/
def State.owed (s : State) : Nat := (if s.busy then 1 else 0) + s.requests.length

theorem responses_resp {front : List Event} (hq : Quiet front) (st : Status) (v : Word) :
    responses (front ++ [.resp st v]) = 1 := by rw [responses_append, hq.responses]; rfl

/-- A step that refuses nothing moves at most one request from owed to responded, where a running FSM and an unfinished
stream are busy. -/
theorem StepEvents.responses_owed {s t : State} {es : List Event} (h : StepEvents s t es) (hx : t.refused = false)
    (hb : s.pending ≠ .none ∨ s.seq ≠ .idle → s.busy = true) : responses es + t.owed = s.owed := by
  cases h with
  | progress hq _ hb' hn => simp [State.owed, hq.responses, hb', hn]
  | pulse v _ _ hb' hn => simp [State.owed, responses, hb', hn]
  | finish st v hi hq _ hb' hn => simp [State.owed, responses_resp hq, hb', hn, hb hi]
  | refuse q _ h _ _ _ => simp [h] at hx
  | start q ha hq _ hb' hn =>
    obtain ⟨-, -, -, hidle⟩ := ha
    simp [State.owed, hq.responses, hb', hn, hidle, Nat.add_comm]
  | respond st v q ha hq _ hb' hn =>
    obtain ⟨-, -, -, hidle⟩ := ha
    simp [State.owed, responses_resp hq, hb', hn, hidle, Nat.add_comm]

/-- What holds along a run of `n` requests that has refused none: the bus invariant, the reset input low, and each
request responded or owed. -/
structure RunOk (n : Nat) (s : State) : Prop where
  bus       : BusOk s
  resetIn   : s.resetIn = false
  responses : s.refused = false → responses s.trace + s.owed = n

theorem RunOk.step {n : Nat} {s t : State} (h : RunOk n s) (hst : step s = .next t) : RunOk n t := by
  have hst' := step_answer hst
  refine ⟨hst'.busOk h.bus, (hst'.const h.resetIn).resetIn.trans h.resetIn, fun hx => ?_⟩
  obtain ⟨hf, hr⟩ : s.fault = none ∧ s.refused = false := by
    rcases step_cases hst with ⟨hr, -⟩ | ⟨-, hf, hr, -⟩ | ⟨⟨-, hf, hr, -⟩, -⟩
    · simp [h.resetIn] at hr
    · exact ⟨hf, hr⟩
    · exact ⟨hf, hr⟩
  have hl := (busOk_iff.1 h.bus).2 hf
  have hb : s.pending ≠ .none ∨ s.seq ≠ .idle → s.busy = true := by
    rintro (hp | hq)
    · obtain ⟨-, -, -, -, hb⟩ := hl.stream hp
      exact hb
    · exact hl.busy hq
  obtain ⟨es, ht, he⟩ := hst'.events h.resetIn
  rw [ht, responses_append, Nat.add_assoc, he.responses_owed hx hb]
  exact h.responses hr

theorem RunOk.reaches {n k : Nat} {s t : State} (h : RunOk n s) (hr : Reaches k s t) : RunOk n t := by
  induction k generalizing s with
  | zero => cases hr; exact h
  | succ k ih =>
    obtain ⟨u, hu, hr⟩ := reaches_succ_iff.1 hr
    exact ih (h.step hu) hr

/-- The start of a run: the reset state with the launch memory and the requests. -/
theorem startRun_eq {c : Config} {ram rostore : List Host.Cell} {requests : List Request} {s : State}
    (h : startRun c ram rostore requests = .next s) :
    s = { State.resetWith c with ram := ram, rostore := rostore, requests := requests } := by
  unfold startRun boot at h
  by_cases hw : wfScripts c = true
  · simp only [hw, if_true] at h; exact (Host.Outcome.next.inj h).symm
  · simp [hw] at h

theorem runOk_start {c : Config} {ram rostore : List Host.Cell} {requests : List Request} {s : State}
    (h : startRun c ram rostore requests = .next s) : RunOk requests.length s := by
  rw [startRun_eq h]
  exact ⟨busOk_reset c, rfl, fun _ => by simp [State.owed, State.resetWith, Machine.responses]⟩

theorem runOk_of_run {c : Config} {ram rostore : List Host.Cell} {requests : List Request} {k : Nat} {t : State}
    (h : Run c ram rostore requests k t) : RunOk requests.length t := by
  obtain ⟨s, hs, hr⟩ := h
  exact (runOk_start hs).reaches hr

/-! INIT, from its acceptance to its end. -/

/-- `t` is `s` after events of script records, with the FSM in the state `q` of script `id`. -/
def AfterScripts (s t : State) (es : List Event) (id : ScriptId) (q : Seq) : Prop :=
  ∃ dc cmd nargs dflag sp ncmd, t = { s with
    trace := s.trace ++ es, script := some id, seq := q
    dc := dc, cmd := cmd, nargs := nargs, dflag := dflag, sp := sp, ncmd := ncmd }

theorem AfterScripts.trans {s t u : State} {es fs : List Event} {id id' : ScriptId} {q q' : Seq}
    (h : AfterScripts s t es id q) (h' : AfterScripts t u fs id' q') : AfterScripts s u (es ++ fs) id' q' := by
  obtain ⟨_, _, _, _, _, _, rfl⟩ := h
  obtain ⟨dc, cmd, nargs, dflag, sp, ncmd, rfl⟩ := h'
  exact ⟨dc, cmd, nargs, dflag, sp, ncmd, by simp⟩

theorem AfterScripts.cfg {s t : State} {es : List Event} {id : ScriptId} {q : Seq} (h : AfterScripts s t es id q) :
    t.cfg = s.cfg := by
  obtain ⟨_, _, _, _, _, _, rfl⟩ := h; rfl

theorem AfterScripts.moves {s t : State} {es : List Event} {id : ScriptId} {q : Seq} (h : AfterScripts s t es id q)
    (hm : FsmMoves s) : FsmMoves t := by
  obtain ⟨_, _, _, _, _, _, rfl⟩ := h; exact hm

/-- The FSM can move and is in SQ_HDR of a script, with the bus deselected. -/
structure AtHdr (s : State) (id : ScriptId) : Prop where
  moves  : FsmMoves s
  seq    : s.seq = .hdr
  script : s.script = some id
  cs     : s.cs = some true

theorem AfterScripts.atHdr {s t : State} {es : List Event} {id id' : ScriptId} (h : AfterScripts s t es id' .hdr)
    (hs : AtHdr s id) : AtHdr t id' := by
  obtain ⟨_, _, _, _, _, _, rfl⟩ := h
  exact ⟨hs.moves, rfl, rfl, hs.cs⟩

theorem rowNext_one {s : State} (h : s.script = some .one) :
    rowNext s = { s with seq := .hdr, script := some .two } := by
  simp [rowNext, h]

theorem rowNext_two {s : State} (h : s.script = some .two) :
    rowNext s = { s with seq := .hdr, script := some .three } := by
  simp [rowNext, h]

theorem rowNext_three {s : State} (h : s.script = some .three) :
    rowNext s = { s with seq := .rot, script := some .three } := by
  simp [rowNext, h]

/-- A script from SQ_HDR through its SQ_NEXT, where that row goes to the state `q` of script `id'`. -/
theorem reaches_scriptThen {s : State} {id id' : ScriptId} {q : Seq} {a : Nat} {records : List Instr} (h : AtHdr s id)
    (hn : ∀ {u : State}, u.script = some id → rowNext u = { u with seq := q, script := some id' })
    (ha : scriptStart s id = some a) (hs : scriptAt s.cfg a = some records) :
    ∃ k t, Reaches k s t ∧ AfterScripts s t (records.flatMap recordTrace) id' q := by
  obtain ⟨k, dc, cmd, nargs, dflag, sp, ncmd, r⟩ := reaches_next h.moves h.seq h.script ha hs h.cs
  rw [hn] at r
  · exact ⟨k, _, r, dc, cmd, nargs, dflag, sp, ncmd, rfl⟩
  · exact h.script

/-- Scripts 1 to 3, from SQ_HDR of script 1 to SQ_ROT. -/
theorem reaches_scripts {s : State} {s1 s2 s3 : List Instr} (h : AtHdr s .one) (hs : HasScripts s.cfg s1 s2 s3) :
    ∃ k t, Reaches k s t ∧ AfterScripts s t ((s1 ++ s2 ++ s3).flatMap recordTrace) .three .rot := by
  obtain ⟨h1, h2, h3⟩ := hs
  obtain ⟨k1, t1, r1, a1⟩ := reaches_scriptThen h rowNext_one rfl h1
  obtain ⟨k2, t2, r2, a2⟩ := reaches_scriptThen (a1.atHdr h) rowNext_two rfl (by rw [a1.cfg]; exact h2)
  obtain ⟨k3, t3, r3, a3⟩ := reaches_scriptThen (a2.atHdr (a1.atHdr h)) rowNext_three rfl
    (by rw [a2.cfg, a1.cfg]; exact h3)
  refine ⟨_, t3, reaches_trans (reaches_trans r1 r2) r3, ?_⟩
  simpa using (a1.trans a2).trans a3

/-- SQ_ROT and SQ_DONE of an INIT, to its end (40_init_sequencer R149). -/
theorem reaches_orientation {s : State} (h : FsmMoves s) (hq : s.seq = .rot) (hid : s.script = some .three) :
    Reaches 2 s { rotateBody s s.cfg.initRotation with
      trace := s.trace ++ rotateEvents s.cfg s.cfg.initRotation ++ [.resp .ok 0]
      initialized := true, busy := false, seq := .idle } := by
  have h1 := h.row (t := rowRot s) (by simp [hq]) (by simp [hq]) (by simp [fsmRow, hq])
  rw [rowRot, rotateBody_eq] at h1
  refine reaches_succ h1 (reaches_one ?_)
  rw [rotateBody_eq, FsmMoves.row (t := rowDone _) _ _ _ rfl]
  · simp [rowDone, hid, State.ok_eq, State.respond, State.emit]
  · exact h
  · simp
  · simp

/-- INIT from SQ_SESSION to its end, under scripts that are well formed: its whole trace and every field it writes
(R148, R149). -/
theorem reaches_init {s : State} {s1 s2 s3 : List Instr} (h : FsmMoves s) (hq : s.seq = .session)
    (hs : HasScripts s.cfg s1 s2 s3) :
    ∃ k cmd nargs dflag sp ncmd, Reaches k s { s with
      trace := s.trace ++ initTrace s (s1 ++ s2 ++ s3)
      initialized := true, busy := false, session := true, seq := .idle, script := some .three
      cmd := cmd, nargs := nargs, dflag := dflag, sp := sp, ncmd := ncmd
      ws := some .w16, cs := some true, dc := some true, rst := (if s.cfg.rstPresent then some true else s.rst)
      rotation := some s.cfg.initRotation
      width := some (geom s.cfg s.cfg.initRotation).1, height := some (geom s.cfg s.cfg.initRotation).2
      xStart := some (offs s.cfg.xyStartSwap s.colStart s.rowStart s.cfg.initRotation).1
      yStart := some (offs s.cfg.xyStartSwap s.colStart s.rowStart s.cfg.initRotation).2 } := by
  obtain ⟨k0, r0⟩ := reaches_start h hq
  obtain ⟨t0, e0, r0⟩ : ∃ t, t = _ ∧ Reaches k0 s t := ⟨_, rfl, r0⟩
  have h0 : AtHdr t0 .one := by subst e0; exact ⟨h, rfl, rfl, rfl⟩
  obtain ⟨k1, t1, r1, a1⟩ := reaches_scripts h0 (by subst e0; exact hs)
  have m1 := a1.moves h0.moves
  obtain ⟨dc, cmd, nargs, dflag, sp, ncmd, rfl⟩ := a1
  refine ⟨k0 + k1 + 2, cmd, nargs, dflag, sp, ncmd, reaches_trans (reaches_trans r0 r1) ?_⟩
  convert reaches_orientation m1 rfl rfl using 1
  simp [e0, rotateBody_eq, initTrace]

/-- A request whose OP is 1 is INIT. -/
theorem decodeRequest_init {q : Request} (h : q.toNat % 256 = 0x01) : decodeRequest q = .ok .init := by
  have hop : (Fields.ofRequest q).op.toNat = 1 := by
    simpa [Fields.ofRequest, BitVec.extractLsb'_toNat] using h
  simp [decodeRequest, decodeFields, hop]

/-- A run under well-formed scripts starts. -/
theorem startRun_of_scripts {c : Config} {s1 s2 s3 : List Instr} (hs : HasScripts c s1 s2 s3)
    (ram rostore : List Host.Cell) (requests : List Request) :
    startRun c ram rostore requests =
      .next { State.resetWith c with ram := ram, rostore := rostore, requests := requests } := by
  obtain ⟨h1, h2, h3⟩ := hs
  simp [startRun, boot, wfScripts, h1, h2, h3]

/-- The run of one INIT under well-formed scripts reaches a state at rest with no request left. -/
theorem run_init {c : Config} (ram rostore : List Host.Cell) {s1 s2 s3 : List Instr} {q : Request}
    (hs : HasScripts c s1 s2 s3) (hq : q.toNat % 256 = 0x01) :
    ∃ k t, Run c ram rostore [q] k t ∧ t.requests = [] ∧ EndedWell t := by
  have h1 := step_request (s := { State.resetWith c with ram := ram, rostore := rostore, requests := [q] })
    ⟨⟨rfl, rfl, rfl, rfl⟩, rfl, rfl, rfl⟩ rfl (decodeRequest_init hq)
  rw [exec_init] at h1
  obtain ⟨t, ht, h1⟩ : ∃ t, t = _ ∧ step _ = .next t := ⟨_, rfl, h1⟩
  have hm : FsmMoves t ∧ t.seq = .session ∧ t.cfg = c ∧ t.requests = [] := by
    subst ht; exact ⟨⟨⟨rfl, rfl, rfl, rfl⟩, rfl⟩, rfl, rfl, rfl⟩
  obtain ⟨hm, hseq, rfl, h0⟩ := hm
  obtain ⟨k, cmd, nargs, dflag, sp, ncmd, r⟩ := reaches_init hm hseq hs
  obtain ⟨⟨-, hf, hx, hd⟩, -⟩ := hm
  exact ⟨k + 1, _, ⟨_, startRun_of_scripts hs ram rostore [q], reaches_succ h1 r⟩, h0, rfl, hf, hx, hd, rfl⟩

/-- Settles O56: the invariant of runs counts the responses, and the run of one INIT exists. -/
theorem runResponses : Obligations.RunResponses := by
  intro c ram rostore
  have count : ∀ requests k t, Run c ram rostore requests k t → t.refused = false →
      responses t.trace + (if t.busy then 1 else 0) + t.requests.length = requests.length ∧
      (t.requests = [] → EndedWell t → RunEndsWell c ram rostore requests k t) := by
    intro requests k t hr hx
    have hn : responses t.trace + t.owed = requests.length := (runOk_of_run hr).responses hx
    refine ⟨by rw [← hn, State.owed, Nat.add_assoc], fun h0 he => ⟨hr, h0, ?_, he⟩⟩
    obtain ⟨hb, -⟩ := he
    simpa [State.owed, hb, h0] using hn
  refine ⟨count, fun s1 s2 s3 q hs hq => ?_⟩
  obtain ⟨k, t, hr, h0, he⟩ := run_init ram rostore hs hq
  have hx : t.refused = false := by
    obtain ⟨-, -, hx, -⟩ := he
    exact hx
  obtain ⟨-, hend⟩ := count [q] k t hr hx
  exact ⟨k, t, hend h0 he⟩

end Sys2Proof.Machine
end

section
/-! Pixel buffers in the launch memory (20_memory R74, R85, 42_transfer R213) and the image requests that read them
(R218, R219). -/

namespace Sys2Proof.Machine

/-! The words of a buffer. -/

/-- The word two bytes make in the host's byte order (20_memory R74). -/
def hostWord (e : Endian) (b0 b1 : Byte) : Word :=
  match e with
  | .little => b1 ++ b0
  | .big => b0 ++ b1

theorem State.memRead16_eq {s : State} {sp : Space} {a : Nat} {b0 b1 : Byte} (h0 : s.memRead sp a = some b0)
    (h1 : s.memRead sp (a + 1) = some b1) : s.memRead16 sp a = some (hostWord s.cfg.hostEndian b0 b1) := by
  cases he : s.cfg.hostEndian <;> simp [State.memRead16, h0, h1, he, hostWord]

theorem State.memRead16_isSome (s : State) (sp : Space) (a : Nat) :
    (s.memRead16 sp a).isSome = true ↔ (s.memRead sp a).isSome = true ∧ (s.memRead sp (a + 1)).isSome = true := by
  cases h0 : s.memRead sp a with
  | none => simp [State.memRead16, h0]
  | some b0 =>
    cases h1 : s.memRead sp (a + 1) with
    | none => simp [State.memRead16, h0, h1]
    | some b1 => simp [State.memRead16_eq h0 h1]

theorem State.readWords_succ_eq_some {s : State} {sp : Space} {p n : Nat} {ws : List Word} :
    s.readWords sp p (n + 1) = some ws ↔
      ∃ v vs, s.memRead16 sp p = some v ∧ s.readWords sp (p + 2) n = some vs ∧ ws = v :: vs := by
  cases hv : s.memRead16 sp p <;> cases hvs : s.readWords sp (p + 2) n <;>
    simp [State.readWords, hv, hvs, eq_comm]

/-- A buffer is readable exactly when each of its words is. -/
theorem State.readWords_isSome (s : State) (sp : Space) (p n : Nat) :
    (s.readWords sp p n).isSome = true ↔ ∀ k, k < n → (s.memRead16 sp (p + 2 * k)).isSome = true := by
  induction n generalizing p with
  | zero => simp [State.readWords]
  | succ n ih =>
    have hrest : (∀ k, k < n → (s.memRead16 sp (p + 2 * (k + 1))).isSome = true) ↔
        (s.readWords sp (p + 2) n).isSome = true := by
      simp only [ih, Nat.mul_add, Nat.add_assoc, Nat.add_comm 2]
    rw [Nat.forall_lt_succ_left', hrest]
    simp only [Option.isSome_iff_exists, State.readWords_succ_eq_some]
    constructor
    · rintro ⟨_, v, vs, hv, hvs, -⟩
      exact ⟨⟨v, hv⟩, vs, hvs⟩
    · rintro ⟨⟨v, hv⟩, vs, hvs⟩
      exact ⟨_, v, vs, hv, hvs, rfl⟩

/-- Word by word, a buffer's bytes are the `2 * n` bytes from its address on. -/
theorem forall_words_iff_forall_bytes (P : Nat → Prop) (n : Nat) :
    (∀ k, k < n → P (2 * k) ∧ P (2 * k + 1)) ↔ ∀ k, k < 2 * n → P k := by
  refine ⟨fun h k hk => ?_, fun h k hk => ⟨h _ (by omega), h _ (by omega)⟩⟩
  obtain ⟨h0, h1⟩ := h (k / 2) (by omega)
  rcases Nat.mod_two_eq_zero_or_one k with hk0 | hk1
  · rwa [show 2 * (k / 2) = k by omega] at h0
  · rwa [show 2 * (k / 2) + 1 = k by omega] at h1

/-- Word `k` of a buffer is the one at its own address. -/
theorem State.readWords_getElem? {s : State} {sp : Space} {p n : Nat} {ws : List Word}
    (h : s.readWords sp p n = some ws) : ws.length = n ∧ ∀ k, k < n → ws[k]? = s.memRead16 sp (p + 2 * k) := by
  induction n generalizing p ws with
  | zero =>
    obtain rfl : [] = ws := Option.some.inj h
    simp
  | succ n ih =>
    obtain ⟨v, vs, hv, hvs, rfl⟩ := State.readWords_succ_eq_some.1 h
    obtain ⟨hlen, hget⟩ := ih hvs
    refine ⟨by simp [hlen], fun k hk => ?_⟩
    cases k with
    | zero => simp [hv]
    | succ k => simpa [Nat.mul_add, Nat.add_assoc, Nat.add_comm 2] using hget k (by omega)

/-- Settles O41: a buffer is readable word by word, a word byte by byte, and each word stands at its own address. -/
theorem bufferWords : Obligations.BufferWords := by
  intro s sp p n
  refine ⟨?_, fun ws hws => ?_⟩
  · rw [← Option.isSome_iff_exists, State.readWords_isSome]
    simp only [State.memRead16_isSome, Nat.add_assoc]
    exact forall_words_iff_forall_bytes (fun k => (s.memRead sp (p + k)).isSome = true) n
  · obtain ⟨hlen, hget⟩ := State.readWords_getElem? hws
    exact ⟨hlen, fun k b0 b1 hk h0 h1 => (hget k hk).trans (State.memRead16_eq h0 h1)⟩

/-! The image requests. -/

theorem imageOutside_iff (W H x y w h : Int) :
    imageOutside W H x y w h = true ↔ w ≤ 0 ∨ h ≤ 0 ∨ x ≥ W ∨ y ≥ H ∨ x + w ≤ 0 ∨ y + h ≤ 0 := decide_eq_true_iff

/-- An image request is `drawImage` over the space of its buffer (R218, R219). -/
theorem exec_image {x y w h : Word} {ptr : BitVec 32} {i : Instr} {sp : Space}
    (hi : (i = .drawImage x y w h ptr ∧ sp = .ram) ∨ (i = .drawImageRom x y w h ptr ∧ sp = .rostore)) (s : State) :
    ∃ op, exec i s = drawImage op sp x.toInt y.toInt w.toInt h.toInt ptr s := by
  rcases hi with ⟨rfl, rfl⟩ | ⟨rfl, rfl⟩
  · exact ⟨0x09, rfl⟩
  · exact ⟨0x0A, rfl⟩

section
variable {s : State} {W H xs ys : Word} (hr : Ready s W H xs ys) (op : Byte) (sp : Space) (x y w h : Int)
  (ptr : BitVec 32)
include hr

/-- On a block that is set up an image passes the no-op test, then the alignment test, then its body. -/
theorem drawImage_ready :
    drawImage op sp x y w h ptr s =
      if imageOutside W.toNat H.toNat x y w h then .next s.accept.ok
      else if address s.cfg ptr % 2 = 1 then
        .next (faultedAt s .misaligned op (.address (address s.cfg ptr)))
      else imageBody op s.accept sp x y w h (address s.cfg ptr) := by
  obtain ⟨hi, hW, hH, -, -⟩ := hr
  rw [drawImage, requireInit_ready (by exact hi), withPanel_ready (by exact hW) (by exact hH)]
  rfl

variable {x y w h ptr}

theorem drawImage_noop (hout : w ≤ 0 ∨ h ≤ 0 ∨ x ≥ W.toNat ∨ y ≥ H.toNat ∨ x + w ≤ 0 ∨ y + h ≤ 0) :
    drawImage op sp x y w h ptr s = .next { s with busy := false, trace := s.trace ++ [.resp .ok 0] } := by
  rw [drawImage_ready hr, if_pos ((imageOutside_iff ..).2 hout), State.accept_ok]

variable (hin : ¬ (w ≤ 0 ∨ h ≤ 0 ∨ x ≥ W.toNat ∨ y ≥ H.toNat ∨ x + w ≤ 0 ∨ y + h ≤ 0))
include hin

theorem drawImage_misaligned (hp : address s.cfg ptr % 2 = 1) :
    drawImage op sp x y w h ptr s = .next (faultedAt s .misaligned op (.address (address s.cfg ptr))) := by
  rw [drawImage_ready hr, if_neg (mt (imageOutside_iff ..).1 hin), if_pos hp]

theorem drawImage_aligned (hp : address s.cfg ptr % 2 = 0) :
    drawImage op sp x y w h ptr s = imageBody op s.accept sp x y w h (address s.cfg ptr) := by
  rw [drawImage_ready hr, if_neg (mt (imageOutside_iff ..).1 hin), if_neg (by omega)]

end

/-- A signed operand that is not negative reads the same unsigned. -/
theorem toInt_eq_toNat_of_nonneg {v : Word} (h : 0 ≤ v.toInt) : v.toInt = v.toNat :=
  BitVec.toInt_eq_toNat_of_msb (by simpa [BitVec.msb_eq_toInt] using h)

/-- The number of words of an image with positive sides. -/
theorem toNat_toInt_mul {w h : Word} (hw : 0 < w.toInt) (hh : 0 < h.toInt) :
    (w.toInt * h.toInt).toNat = w.toNat * h.toNat := by
  rw [toInt_eq_toNat_of_nonneg hw.le, toInt_eq_toNat_of_nonneg hh.le, ← Int.natCast_mul, Int.toNat_natCast]

section
variable {s : State} {W H xs ys x y w h : Word} {ptr : BitVec 32} {sp : Space} (op : Byte)
  (hr : Ready s W H xs ys)
  (hin : ¬ (w.toInt ≤ 0 ∨ h.toInt ≤ 0 ∨ x.toInt ≥ W.toNat ∨ y.toInt ≥ H.toNat ∨
    x.toInt + w.toInt ≤ 0 ∨ y.toInt + h.toInt ≤ 0))
  (hp : address s.cfg ptr % 2 = 0)
include hr hin hp

/-- A visible image whose buffer is readable is drawn in one step (R213, R218). -/
theorem drawImage_drawn {words : List Word}
    (hws : s.readWords sp (address s.cfg ptr) (w.toNat * h.toNat) = some words) :
    drawImage op sp x.toInt y.toInt w.toInt h.toInt ptr s =
      .next (drawn s (drawTrace s.cfg xs ys x.toInt y.toInt (x.toInt + w.toInt - 1) (y.toInt + h.toInt - 1)
        [.wbuf sp (address s.cfg ptr) words])) := by
  rw [drawImage_aligned hr op sp hin hp]
  obtain ⟨-, -, -, hx, hy⟩ := hr
  exact imageBody_read op sp _ _ _ _ _ hx hy (by rwa [toNat_toInt_mul (by omega) (by omega)])

/-- A visible image whose buffer is not readable stops before its WBUF (20_memory R85). -/
theorem drawImage_stuck (hws : s.readWords sp (address s.cfg ptr) (w.toNat * h.toNat) = none) :
    drawImage op sp x.toInt y.toInt w.toInt h.toInt ptr s =
      .next { openWindow s xs ys x.toInt y.toInt (x.toInt + w.toInt - 1) (y.toInt + h.toInt - 1) with
        pending := .buf sp (address s.cfg ptr) (w.toNat * h.toNat) } := by
  rw [drawImage_aligned hr op sp hin hp, ← toNat_toInt_mul (w := w) (h := h) (by omega) (by omega)]
  obtain ⟨-, -, -, hx, hy⟩ := hr
  exact imageBody_stuck op sp _ _ _ _ _ hx hy (by rwa [toNat_toInt_mul (by omega) (by omega)])

end

/-- Settles O40: both image requests are `drawImage`, whose three cases exclude each other in order. -/
theorem drawImageCompletes : Obligations.DrawImageCompletes := by
  intro s W H xs ys x y w h ptr hr p out noop image misaligned
  refine ⟨fun hout => ?_, fun hin hp => ?_, fun hin hp => ⟨fun ws hws => ?_, fun ws hws => ?_⟩⟩
  · exact ⟨drawImage_noop hr 0x09 .ram hout, drawImage_noop hr 0x0A .rostore hout⟩
  · exact ⟨drawImage_misaligned hr 0x09 .ram hin hp, drawImage_misaligned hr 0x0A .rostore hin hp⟩
  · exact drawImage_drawn 0x09 hr hin hp hws
  · exact drawImage_drawn 0x0A hr hin hp hws

/-- A block that waits on an unreadable buffer has no step (60_exceptions R307). -/
theorem step_stuckRead {s : State} {sp : Space} {p n : Nat} (h : SequencerMoves s) (hp : s.pending = .buf sp p n)
    (hws : s.readWords sp p n = none) : step s = .fault (.stuckRead sp p) := by
  rw [step_moves h]
  simp only [sequencerMove, hp, resumeBuf, hws]

/-- Settles O42: the request stops with its window sent and the read pending, and the read stays unreadable. -/
theorem unreadableImageIsStuck : Obligations.UnreadableImageIsStuck := by
  intro s W H xs ys x y w h ptr i sp ⟨⟨hreset, hfault, hrefused, hdma⟩, _⟩ hr hi p hin hp hws
  obtain ⟨op, he⟩ := exec_image hi s
  refine ⟨_, he.trans (drawImage_stuck op hr hin hp hws), ?_⟩
  rw [openWindow_eq]
  refine ⟨rfl, hfault, rfl, rfl, step_stuckRead ⟨hreset, hfault, hrefused, hdma⟩ rfl (Eq.trans ?_ hws)⟩
  apply State.readWords_congr <;> rfl

end Sys2Proof.Machine
end

section
/-! The informative GRAM observer beside whole requests (20_memory R86, R87, 93_implementation_defined U5). -/

namespace Sys2Proof.Machine

/-! The cells of a window. -/

/-- The cells the observer fills for pixel words sent after a window: those it places, if the window is in order. -/
def Window.fills (w : Window) (p : Option Panel) (words : List Word) : List ((Nat × Nat) × Word) :=
  if w.ordered then words.zipIdx.filterMap fun x => (w.placed p x.2).map fun cell => (cell, x.1) else []

/-- Where the `k`-th pixel word goes: its row-major cell, if that is in the window and in the panel. -/
theorem Window.placed_eq (w : Window) (p : Option Panel) (k : Nat) :
    w.placed p k =
      let col := w.x0 + k % (w.x1 - w.x0 + 1)
      let row := w.y0 + k / (w.x1 - w.x0 + 1)
      if k < (w.x1 - w.x0 + 1) * (w.y1 - w.y0 + 1) ∧ (∀ q, p = some q →
          q.left ≤ col ∧ col < q.left + q.width ∧ q.top ≤ row ∧ row < q.top + q.height) then
        some (col, row)
      else none := by
  unfold Window.placed Window.cell
  by_cases hk : k < (w.x1 - w.x0 + 1) * (w.y1 - w.y0 + 1)
  · cases p <;> simp [hk, Option.filter, Panel.holds]
  · simp [hk]

/-- The cells of a window's words, with every condition of R86 and R87 written out. -/
theorem Window.fills_eq (w : Window) (p : Option Panel) (words : List Word) :
    w.fills p words = words.zipIdx.filterMap fun (v, k) =>
      let col := w.x0 + k % (w.x1 - w.x0 + 1)
      let row := w.y0 + k / (w.x1 - w.x0 + 1)
      if w.x0 ≤ w.x1 ∧ w.y0 ≤ w.y1 ∧ k < (w.x1 - w.x0 + 1) * (w.y1 - w.y0 + 1) ∧ (∀ q, p = some q →
          q.left ≤ col ∧ col < q.left + q.width ∧ q.top ≤ row ∧ row < q.top + q.height) then
        some ((col, row), v)
      else none := by
  unfold Window.fills
  by_cases ho : w.x0 ≤ w.x1 ∧ w.y0 ≤ w.y1
  · simp only [Window.ordered, ho, decide_true, if_true, true_and, and_self, Window.placed_eq, apply_ite (Option.map _),
      Option.map_some, Option.map_none]
  · simp only [Window.ordered, decide_eq_true_eq, ← and_assoc, ho, false_and, if_false]
    simp

/-! The window a drawn request sends. -/

/-- The number of values a coordinate's bytes can carry (41_addressing R180). -/
def coordLimit (f : CoordFormat) : Int :=
  match f with
  | .bytesHiLo => 65536
  | .zeroHiLow8 => 256

theorem carried_u16 (f : CoordFormat) (v : Int) : carried f (u16 v) = (v % coordLimit f).toNat := by
  cases f <;> simp [carried, u16, coordLimit]
  omega

/-- The window whose coordinates go out under offsets `xs` and `ys`, as its argument bytes carry them. -/
def sentWindow (c : Config) (xs ys : Word) (x0 y0 x1 y1 : Int) : Window :=
  { x0 := ((x0 + xs.toNat) % coordLimit c.coordFormat).toNat
    x1 := ((x1 + xs.toNat) % coordLimit c.coordFormat).toNat
    y0 := ((y0 + ys.toNat) % coordLimit c.coordFormat).toNat
    y1 := ((y1 + ys.toNat) % coordLimit c.coordFormat).toNat }

/-- The opening of a drawn request's bracket: its window, and word size 16 for the pixels (42_transfer R220). -/
def openingEvents (c : Config) (xs ys : Word) (x0 y0 x1 y1 : Int) : List Event :=
  [.cs false] ++ windowEvents c xs ys x0 y0 x1 y1 ++ [.setWs .w16]

/-- The cells after a stretch of pixel words: the window's, from its count on. -/
theorem Observer.seeAll_pixels_cells {c : Config} (p : Option Panel) {o : Observer} {es : List Event}
    (hl : o.levels.dc = some true ∧ o.levels.ws = some .w16) (h : ∀ e ∈ es, (pixelWords e).isSome) :
    (o.seeAll c p es).cells = o.cells ++
      ((es.flatMap fun e => (pixelWords e).getD []).zipIdx o.count).filterMap fun x => o.placed p x.1 x.2 := by
  rw [Observer.seeAll_pixels hl h, Observer.foldl_pixel]

/-- A `CS(1)` and the next bracket's `CS(0)` leave the observer with no window (R87 (e)). -/
theorem Observer.seeAll_deselect (c : Config) (p : Option Panel) (o : Observer) :
    o.seeAll c p [.cs true, .cs false] = { o with window := none, levels := { o.levels with cs := some false } } := rfl

section
variable {c : Config} (p : Option Panel) (o : Observer) (h1 : c.cmdCaset ≠ c.cmdRaset) (h2 : c.cmdCaset ≠ c.cmdRamwr)
  (h3 : c.cmdRaset ≠ c.cmdRamwr) (xs ys : Word) (x0 y0 x1 y1 : Int)

/-- The opening leaves the bus ready for pixels. -/
theorem Observer.seeAll_openingEvents_levels :
    (o.seeAll c p (openingEvents c xs ys x0 y0 x1 y1)).levels.dc = some true ∧
      (o.seeAll c p (openingEvents c xs ys x0 y0 x1 y1)).levels.ws = some .w16 := by
  simp [openingEvents, Levels.afterAll_append]

theorem Observer.seeAll_openingEvents_cells :
    (o.seeAll c p (openingEvents c xs ys x0 y0 x1 y1)).cells = o.cells := by
  rw [openingEvents, Observer.seeAll_append, Observer.seeAll_append]
  exact Observer.seeAll_windowEvents_cells ..

/-- Pixel words after a `CS(1)` that follows the write-to-RAM command fill no cell (R87 (e)). -/
theorem Observer.seeAll_deselected_cells {es : List Event} (h : ∀ e ∈ es, (pixelWords e).isSome) :
    (o.seeAll c p (openingEvents c xs ys x0 y0 x1 y1 ++ [.cs true, .cs false] ++ es)).cells = o.cells := by
  rw [Observer.seeAll_append, Observer.seeAll_append, Observer.seeAll_deselect,
    Observer.seeAll_pixels_cells p (by exact Observer.seeAll_openingEvents_levels ..) h]
  simp [Observer.placed, Observer.seeAll_openingEvents_cells]

include h1 h2 h3

/-- After the opening the observer waits for the first word of the window, if that is in order. -/
theorem Observer.seeAll_openingEvents :
    let w := sentWindow c xs ys x0 y0 x1 y1
    let t := o.seeAll c p (openingEvents c xs ys x0 y0 x1 y1)
    t.window = (if w.ordered then some w else none) ∧ t.count = 0 := by
  obtain ⟨hw, hcount, -⟩ := Observer.seeAll_windowEvents p (o.see c p (.cs false)) h1 h2 h3 xs ys x0 y0 x1 y1
  rw [openingEvents, Observer.seeAll_append, Observer.seeAll_append]
  simp only [carriedRange, carried_u16] at hw
  exact ⟨hw, hcount⟩

/-- Pixel words after the opening of a bracket fill the cells of its window (R86). -/
theorem Observer.seeAll_opened_cells {es : List Event} (h : ∀ e ∈ es, (pixelWords e).isSome) :
    (o.seeAll c p (openingEvents c xs ys x0 y0 x1 y1 ++ es)).cells = o.cells ++
      (sentWindow c xs ys x0 y0 x1 y1).fills p (es.flatMap fun e => (pixelWords e).getD []) := by
  obtain ⟨hw, hcount⟩ := Observer.seeAll_openingEvents p o h1 h2 h3 xs ys x0 y0 x1 y1
  rw [Observer.seeAll_append, Observer.seeAll_pixels_cells p (Observer.seeAll_openingEvents_levels ..) h, hcount,
    Observer.seeAll_openingEvents_cells]
  simp only [Observer.placed, hw, Window.fills]
  split <;> simp

end

/-! Beside the machine. -/

theorem State.panel_ready {s : State} {W H xs ys : Word} (hr : Ready s W H xs ys) :
    s.panel = some { left := xs.toNat, top := ys.toNat, width := W.toNat, height := H.toNat } := by
  obtain ⟨-, hW, hH, hx, hy⟩ := hr
  simp [State.panel, hW, hH, hx, hy]

/-- Outside reset the observer sees exactly the events a step appends. -/
theorem Observer.watch_appended {s t : State} {es : List Event} (o : Observer) (hreset : s.resetIn = false)
    (ht : t.trace = s.trace ++ es) : o.watch s t = o.seeAll s.cfg s.panel es := by
  simp [Observer.watch, hreset, ht]

/-- Beside a drawn request the observer fills the cells of its window. -/
theorem Observer.watch_drawn_cells {s : State} (o : Observer) (hreset : s.resetIn = false)
    (h1 : s.cfg.cmdCaset ≠ s.cfg.cmdRaset) (h2 : s.cfg.cmdCaset ≠ s.cfg.cmdRamwr)
    (h3 : s.cfg.cmdRaset ≠ s.cfg.cmdRamwr) (xs ys : Word) (x0 y0 x1 y1 : Int) {px : List Event}
    (h : ∀ e ∈ px, (pixelWords e).isSome) :
    (o.watch s (drawn s (drawTrace s.cfg xs ys x0 y0 x1 y1 px))).cells = o.cells ++
      (sentWindow s.cfg xs ys x0 y0 x1 y1).fills s.panel (px.flatMap fun e => (pixelWords e).getD []) := by
  rw [Observer.watch_appended o hreset rfl, drawTrace, Observer.seeAll_append,
    ← Observer.seeAll_opened_cells s.panel o h1 h2 h3 xs ys x0 y0 x1 y1 h]
  rfl

/-- The window of an image whose bytes carry its coordinates. -/
theorem sentWindow_image {c : Config} {xs ys : Word} {x y : Int} {w h : Nat} (hw : 0 < w) (hh : 0 < h)
    (hx0 : 0 ≤ x + xs.toNat) (hx1 : x + w - 1 + xs.toNat < coordLimit c.coordFormat)
    (hy0 : 0 ≤ y + ys.toNat) (hy1 : y + h - 1 + ys.toNat < coordLimit c.coordFormat) :
    sentWindow c xs ys x y (x + w - 1) (y + h - 1) =
      { x0 := (x + xs.toNat).toNat, x1 := (x + xs.toNat).toNat + (w - 1)
        y0 := (y + ys.toNat).toNat, y1 := (y + ys.toNat).toNat + (h - 1) } := by
  rw [sentWindow, Int.emod_eq_of_lt hx0 (by omega), Int.emod_eq_of_lt (by omega) hx1, Int.emod_eq_of_lt hy0 (by omega),
    Int.emod_eq_of_lt (by omega) hy1, Window.mk.injEq]
  omega

/-- An image fills the part of it that the panel holds: word `k` goes to its row-major cell if that is on the panel
(93_implementation_defined U5). -/
theorem fills_image {c : Config} {W H xs ys : Word} {x y : Int} {w h : Nat} {words : List Word} (hw : 0 < w) (hh : 0 < h)
    (hx0 : 0 ≤ x + xs.toNat) (hx1 : x + w - 1 + xs.toNat < coordLimit c.coordFormat)
    (hy0 : 0 ≤ y + ys.toNat) (hy1 : y + h - 1 + ys.toNat < coordLimit c.coordFormat) (hlen : words.length = w * h) :
    (sentWindow c xs ys x y (x + w - 1) (y + h - 1)).fills
        (some { left := xs.toNat, top := ys.toNat, width := W.toNat, height := H.toNat }) words =
      words.zipIdx.filterMap fun (v, k) =>
        let col : Int := x + (k % w : Nat)
        let row : Int := y + (k / w : Nat)
        if 0 ≤ col ∧ col < W.toNat ∧ 0 ≤ row ∧ row < H.toNat then
          some (((col + xs.toNat).toNat, (row + ys.toNat).toNat), v)
        else none := by
  rw [sentWindow_image hw hh hx0 hx1 hy0 hy1, Window.fills_eq]
  refine List.filterMap_congr fun ⟨v, k⟩ hk => ?_
  have hk : k < w * h := by simpa [hlen] using List.snd_lt_of_mem_zipIdx hk
  have hcols : (x + xs.toNat).toNat + (w - 1) - (x + xs.toNat).toNat + 1 = w := by omega
  have hrows : (y + ys.toNat).toNat + (h - 1) - (y + ys.toNat).toNat + 1 = h := by omega
  have hcol (i : Nat) : (x + i + xs.toNat).toNat = (x + xs.toNat).toNat + i := by omega
  have hrow (j : Nat) : (y + j + ys.toNat).toNat = (y + ys.toNat).toNat + j := by omega
  simp only [hcols, hrows, hcol, hrow, hk, Option.some.injEq, forall_eq', Nat.le_add_right, true_and]
  generalize k % w = i, k / w = j
  congr 1
  simp only [eq_iff_iff]
  omega

/-! `DRAW_PIXEL` and the image requests. -/

theorem outside_iff (W H x y : Int) : outside W H x y = true ↔ x < 0 ∨ x ≥ W ∨ y < 0 ∨ y ≥ H := decide_eq_true_iff

/-- `DRAW_PIXEL` on a block that is set up: no effect but the response outside the panel, else the pixel (R214). -/
theorem exec_drawPixel_ready {s : State} {W H xs ys : Word} (hr : Ready s W H xs ys) (x y v : Word) :
    exec (.drawPixel x y v) s =
      if outside W.toNat H.toNat x.toInt y.toInt then
        .next { s with busy := false, trace := s.trace ++ [.resp .ok 0] }
      else .next (drawn s (drawTrace s.cfg xs ys x.toInt y.toInt x.toInt y.toInt [.w v])) := by
  obtain ⟨hi, hW, hH, hx, hy⟩ := hr
  show execDrawPixel x y v s = _
  rw [execDrawPixel, requireInit_ready (by exact hi), withPanel_ready (by exact hW) (by exact hH), State.accept_ok,
    pixelBody_ready 0x05 _ _ v hx hy]

section
variable {s : State} (o : Observer) {W H xs ys : Word} (hreset : s.resetIn = false) (hr : Ready s W H xs ys)
  (h1 : s.cfg.cmdCaset ≠ s.cfg.cmdRaset) (h2 : s.cfg.cmdCaset ≠ s.cfg.cmdRamwr) (h3 : s.cfg.cmdRaset ≠ s.cfg.cmdRamwr)
include hreset hr h1 h2 h3

/-- Beside a drawn image the observer fills the part of it that the panel holds. -/
theorem Observer.watch_image_cells {x y : Int} {w h : Nat} {px : List Event} {words : List Word}
    (hpx : ∀ e ∈ px, (pixelWords e).isSome) (hwords : (px.flatMap fun e => (pixelWords e).getD []) = words)
    (hw : 0 < w) (hh : 0 < h) (hx0 : 0 ≤ x + xs.toNat) (hx1 : x + w - 1 + xs.toNat < coordLimit s.cfg.coordFormat)
    (hy0 : 0 ≤ y + ys.toNat) (hy1 : y + h - 1 + ys.toNat < coordLimit s.cfg.coordFormat)
    (hlen : words.length = w * h) :
    (o.watch s (drawn s (drawTrace s.cfg xs ys x y (x + w - 1) (y + h - 1) px))).cells =
      o.cells ++ words.zipIdx.filterMap fun (v, k) =>
        let col : Int := x + (k % w : Nat)
        let row : Int := y + (k / w : Nat)
        if 0 ≤ col ∧ col < W.toNat ∧ 0 ≤ row ∧ row < H.toNat then
          some (((col + xs.toNat).toNat, (row + ys.toNat).toNat), v)
        else none := by
  rw [Observer.watch_drawn_cells o hreset h1 h2 h3 xs ys x y _ _ hpx, hwords, State.panel_ready hr,
    fills_image hw hh hx0 hx1 hy0 hy1 hlen]

/-- Beside `DRAW_PIXEL` the observer fills the pixel's own cell, an image of one word, or none outside the panel. -/
theorem Observer.watch_drawPixel {x y v : Word} (hx : x.toInt + xs.toNat < coordLimit s.cfg.coordFormat)
    (hy : y.toInt + ys.toNat < coordLimit s.cfg.coordFormat) :
    ∃ t, exec (.drawPixel x y v) s = .next t ∧ (o.watch s t).cells =
      if 0 ≤ x.toInt ∧ x.toInt < W.toNat ∧ 0 ≤ y.toInt ∧ y.toInt < H.toNat then
        o.cells ++ [((x.toNat + xs.toNat, y.toNat + ys.toNat), v)]
      else o.cells := by
  rw [exec_drawPixel_ready hr]
  by_cases hout : outside W.toNat H.toNat x.toInt y.toInt = true
  · refine ⟨_, if_pos hout, ?_⟩
    rw [outside_iff] at hout
    rw [Observer.watch_appended o hreset rfl, if_neg (by omega)]
    rfl
  · refine ⟨_, if_neg hout, ?_⟩
    rw [outside_iff] at hout
    have hcells := Observer.watch_image_cells o hreset hr h1 h2 h3 (x := x.toInt) (y := y.toInt) (px := [.w v])
      (by simp [pixelWords]) rfl one_pos one_pos (by omega) (by simpa using hx) (by omega) (by simpa using hy) rfl
    have hin : 0 ≤ x.toInt ∧ x.toInt < W.toNat ∧ 0 ≤ y.toInt ∧ y.toInt < H.toNat := by omega
    have hxn : (x.toInt + xs.toNat).toNat = x.toNat + xs.toNat := by
      rw [toInt_eq_toNat_of_nonneg (by omega)]; omega
    have hyn : (y.toInt + ys.toNat).toNat = y.toNat + ys.toNat := by
      rw [toInt_eq_toNat_of_nonneg (by omega)]; omega
    simpa [pixelWords, hin, hxn, hyn] using hcells

/-- Beside a visible image whose buffer is readable the observer fills the part of it that the panel holds. -/
theorem Observer.watch_drawImage {x y w h : Word} {ptr : BitVec 32} {i : Instr} {sp : Space} {words : List Word}
    (hi : (i = .drawImage x y w h ptr ∧ sp = .ram) ∨ (i = .drawImageRom x y w h ptr ∧ sp = .rostore))
    (hw : 0 < w.toInt) (hh : 0 < h.toInt) (hx : x.toInt < W.toNat) (hy : y.toInt < H.toNat)
    (hxw : 0 < x.toInt + w.toInt) (hyh : 0 < y.toInt + h.toInt)
    (hx0 : 0 ≤ x.toInt + xs.toNat) (hx1 : x.toInt + w.toInt - 1 + xs.toNat < coordLimit s.cfg.coordFormat)
    (hy0 : 0 ≤ y.toInt + ys.toNat) (hy1 : y.toInt + h.toInt - 1 + ys.toNat < coordLimit s.cfg.coordFormat)
    (hp : address s.cfg ptr % 2 = 0) (hws : s.readWords sp (address s.cfg ptr) (w.toNat * h.toNat) = some words) :
    ∃ t, exec i s = .next t ∧ (o.watch s t).cells = o.cells ++ words.zipIdx.filterMap fun (v, k) =>
      let col : Int := x.toInt + (k % w.toNat : Nat)
      let row : Int := y.toInt + (k / w.toNat : Nat)
      if 0 ≤ col ∧ col < W.toNat ∧ 0 ≤ row ∧ row < H.toNat then
        some (((col + xs.toNat).toNat, (row + ys.toNat).toNat), v)
      else none := by
  obtain ⟨op, he⟩ := exec_image hi s
  obtain ⟨hlen, -⟩ := State.readWords_getElem? hws
  refine ⟨_, he.trans (drawImage_drawn op hr (by omega) hp hws), ?_⟩
  have hwn : w.toInt = w.toNat := toInt_eq_toNat_of_nonneg hw.le
  have hhn : h.toInt = h.toNat := toInt_eq_toNat_of_nonneg hh.le
  rw [hwn, hhn]
  exact Observer.watch_image_cells o hreset hr h1 h2 h3 (by simp [pixelWords]) (by simp [pixelWords]) (by omega)
    (by omega) hx0 (by omega) hy0 (by omega) hlen

end

/-- Settles O43: the words after a window fill its cells, and a drawn request is such a window with its words. -/
theorem pixelFillsItsCell : Obligations.PixelFillsItsCell := by
  intro c h1 h2 h3 limit
  have hlimit : limit = coordLimit c.coordFormat := rfl
  clear_value limit
  subst hlimit
  refine ⟨fun p o xs ys x0 y0 x1 y1 es hes => ⟨?_, ?_⟩, ?_, ?_⟩
  · exact (Observer.seeAll_opened_cells p o h1 h2 h3 xs ys x0 y0 x1 y1 hes).trans
      (congrArg _ (Window.fills_eq ..))
  · exact Observer.seeAll_deselected_cells p o xs ys x0 y0 x1 y1 hes
  · rintro s o W H xs ys x y v rfl hreset hr hx hy
    exact Observer.watch_drawPixel o hreset hr h1 h2 h3 hx hy
  · rintro s o W H xs ys x y w h ptr i sp words rfl hreset hr hi p hw hh hx hy hxw hyh hx0 hx1 hy0 hy1 hp hws
    exact Observer.watch_drawImage o hreset hr h1 h2 h3 hi hw hh hx hy hxw hyh hx0 hx1 hy0 hy1 hp hws

end Sys2Proof.Machine
end

section
/-! The encodings (30_encoding R100 to R107, R111, R122): a request by its OP, a record and a script by their bytes, and
the delay byte. -/

namespace Sys2Proof

/-! Decoding an encoding. -/

theorem Instr.wellFormed_of_not_isRecord {i : Instr} (h : i.isRecord = false) : i.wellFormed = true := by
  cases i with
  | record | recordDelay => cases h
  | _ => rfl

/-- The fields the encoder gives a request are those the decoder reads (R102, R103). -/
theorem decodeFields_fields {i : Instr} (h : i.isRecord = false) : decodeFields i.fields = .ok i := by
  cases i with
  | record | recordDelay => cases h
  | invert | partialMode | sleep | idle | enable | color565 =>
    simp [decodeFields, Instr.fields, Fields.blank, Instr.opcode]
  | _ => rfl

/-- A record's bytes decode to it, and leave what follows them (R105, R106). -/
theorem decodeRecord_recordBytes {i : Instr} (hw : i.wellFormed = true) (hr : i.isRecord = true) (rest : List Byte) :
    decodeRecord (i.recordBytes ++ rest) = .ok (i, rest) := by
  cases i with
  | record cmd args => exact decodeRecord_record cmd args rest (of_decide_eq_true hw)
  | recordDelay cmd args dly => exact decodeRecord_recordDelay cmd args dly rest (of_decide_eq_true hw)
  | _ => cases hr

theorem decode_encode {i : Instr} (hw : i.wellFormed = true) : decode (encode i) = .ok i := by
  cases hr : i.isRecord
  · simp [encode, hr, decode, decodeFields_fields hr]
  · have h := decodeRecord_recordBytes hw hr []
    rw [List.append_nil] at h
    simp [encode, hr, decode, h]

/-- Settles O7: a request by its packed fields, a record by its bytes. -/
theorem decodeOfEncode : Obligations.DecodeOfEncode :=
  ⟨fun _ hw => decode_encode hw, fun _ rest hw hr => decodeRecord_recordBytes hw hr rest⟩

/-! The count byte of a record (R105). -/

theorem argCount_toNat (cnt : Byte) : (argCount cnt).toNat = cnt.toNat % 128 := BitVec.toNat_setWidth ..

theorem argsFit_of_argCount {args : List Byte} {cnt : Byte} (h : args.length = (argCount cnt).toNat) :
    argsFit args = true :=
  decide_eq_true (by have := (argCount cnt).isLt; omega)

theorem delayFlag_eq (cnt : Byte) : delayFlag cnt = decide (128 ≤ cnt.toNat) := BitVec.msb_eq_decide cnt

/-- Settles O8: a record's bytes are its command byte, the count byte of its form and argument count, and the rest. -/
theorem encodeOfDecodedRecord : Obligations.EncodeOfDecodedRecord := by
  refine ⟨fun q i h => ?_, fun bytes rest i h => ?_⟩
  · have hr := Machine.decodeRequest_notRecord h
    exact ⟨Instr.wellFormed_of_not_isRecord hr, hr⟩
  · rcases decodeRecord_cases h with ⟨cmd, cnt, args, rfl, hf, hl, rfl⟩ | ⟨cmd, cnt, args, dly, rfl, hf, hl, rfl⟩
    · exact ⟨argsFit_of_argCount hl, rfl, by simp [Instr.recordBytes, Machine.cntByte_argCount hf hl]⟩
    · exact ⟨argsFit_of_argCount hl, rfl, by simp [Instr.recordBytes, Machine.cntByte_argCount hf hl]⟩

/-- Settles O10, for a plain and for a delayed record. -/
theorem recordLength : Obligations.RecordLength := by
  intro cmd cnt more rest i h
  have hc := cnt.isLt
  rcases decodeRecord_cases h with ⟨cmd', cnt', args, rfl, hf, hl, hb⟩ | ⟨cmd', cnt', args, dly, rfl, hf, hl, hb⟩ <;>
    obtain ⟨rfl, rfl, rfl⟩ : cmd = cmd' ∧ cnt = cnt' ∧ more = _ := by simpa using hb
  · have h128 : cnt.toNat < 128 := by simpa [delayFlag_eq] using hf
    rw [argCount_toNat] at hl
    exact ⟨by simp; omega, fun _ => ⟨args, rfl, hl⟩, fun h => by omega⟩
  · have h128 : 128 ≤ cnt.toNat := by simpa [delayFlag_eq] using hf
    rw [argCount_toNat] at hl
    exact ⟨by simp; omega, fun h => by omega, fun _ => ⟨args, dly, rfl, hl⟩⟩

/-! The OP of a request (R100 to R103, R111). -/

/-- The values of OP outside R102's table (R111). -/
abbrev ReservedOp (op : Nat) : Prop := op = 0 ∨ (0x0B ≤ op ∧ op ≤ 0x0F) ∨ (0x17 ≤ op ∧ op ≤ 0x1F) ∨ 0x21 ≤ op

theorem Fields.ofRequest_op_toNat (q : Request) : (Fields.ofRequest q).op.toNat = q.toNat % 256 := by
  simp [Fields.ofRequest]

/-- The low byte of a field, cut from the request word. -/
theorem lowByte_extractLsb' (q : Request) (k : Nat) : lowByte (q.extractLsb' k 16) = q.extractLsb' k 8 := by
  apply BitVec.eq_of_getLsbD_eq
  intro i hi
  simp [lowByte, hi, show i < 16 by omega]

theorem boolOf_eq (m : Byte) : boolOf m = decide (m ≠ 0) := by simp [boolOf, bne, Bool.beq_eq_decide_eq]

theorem decodeFields_reserved {f : Fields} (h : ReservedOp f.op.toNat) :
    decodeFields f = .error (.reservedOpcode f.op) := by
  unfold decodeFields
  split
  case h_19 => rfl
  all_goals omega

/-- A request with a reserved OP is no instruction. -/
theorem decodeRequest_reserved {q : Request} (h : ReservedOp (q.toNat % 256)) :
    decodeRequest q = .error (.reservedOpcode (q.extractLsb' 0 8)) :=
  decodeFields_reserved (f := .ofRequest q) (by rwa [Fields.ofRequest_op_toNat])

/-- Settles O9: the decoder's table, row by row, at the OP the low byte holds; the operands of `COLOR565` are the low
bytes of their fields. -/
theorem requestOperandFields : Obligations.RequestOperandFields := by
  intro q m a b c d color ptr op
  have row {n : Nat} (h : op = n) : (Fields.ofRequest q).op.toNat = n := (Fields.ofRequest_op_toNat q).trans h
  refine ⟨?_, ?_, ?_, ?_, ?_, ?_, ?_, ?_, ?_, ?_, ?_, ?_, ?_, ?_, ?_, ?_, ?_, ?_, decodeRequest_reserved⟩ <;>
    intro h <;> simp only [decodeRequest, decodeFields, row h, boolOf_eq]
  case refine_18 => simp only [Fields.ofRequest, lowByte_extractLsb']
  all_goals rfl

/-! Scripts (R104, R122). -/

theorem decodeRecords_flatMap {records : List Instr} (h : ∀ i ∈ records, i.wellFormed = true ∧ i.isRecord = true)
    (rest : List Byte) :
    decodeRecords records.length (records.flatMap Instr.recordBytes ++ rest) = .ok (records, rest) := by
  induction records with
  | nil => rfl
  | cons i is ih =>
    obtain ⟨⟨hw, hr⟩, his⟩ := List.forall_mem_cons.1 h
    simp [decodeRecords, decodeRecord_recordBytes hw hr, ih his]

theorem decodeScript_assembleScript {records : List Instr} {bytes : List Byte}
    (h : ∀ i ∈ records, i.wellFormed = true ∧ i.isRecord = true) (hb : assembleScript records = some bytes)
    (rest : List Byte) : decodeScript (bytes ++ rest) = .ok (records, rest) := by
  obtain ⟨hl, hb⟩ := Option.ite_none_right_eq_some.1 hb
  cases hb
  have hn : (BitVec.ofNat 8 records.length : Byte).toNat = records.length := by
    rw [BitVec.toNat_ofNat]; omega
  rw [List.cons_append, decodeScript, hn, decodeRecords_flatMap h]

end Sys2Proof

namespace Sys2Proof.Machine

/-! The delay byte (R107, R122). -/

theorem delayMs_of_ne {dly : Byte} (h : dly ≠ 255) : delayMs dly = dly.toNat ∧ dly.toNat ≤ 254 := by
  have hd : dly.toNat ≠ 255 := fun e => h (BitVec.eq_of_toNat_eq e)
  exact ⟨if_neg h, by omega⟩

/-- Settles O11: 255 gives 500, and any other byte gives itself, which is at most 254. -/
theorem delayByteMilliseconds : Obligations.DelayByteMilliseconds := by
  refine ⟨rfl, fun d h => ?_, fun d hd => ?_⟩
  · obtain ⟨hms, hle⟩ := delayMs_of_ne h
    exact ⟨hms, hms.trans_le hle⟩
  · by_cases h : d = 255
    · subst h; simp [delayMs] at hd
    · obtain ⟨hms, hle⟩ := delayMs_of_ne h
      omega

theorem assembleDelay_eq_some_iff {d : Nat} {b : Byte} :
    assembleDelay d = some b ↔ (d ≤ 254 ∧ BitVec.ofNat 8 d = b) ∨ (d = 500 ∧ 255 = b) := by
  unfold assembleDelay
  split
  next h => simp [h]; omega
  next h =>
    split
    next h' => simp [h']
    next h' => simp [h, h']

/-- The byte of an assembled delay gives the delay back. -/
theorem delayMs_assembleDelay {d : Nat} {b : Byte} (h : assembleDelay d = some b) : delayMs b = d := by
  rcases assembleDelay_eq_some_iff.1 h with ⟨hd, rfl⟩ | ⟨rfl, rfl⟩
  · have hn : (BitVec.ofNat 8 d : Byte).toNat = d := by rw [BitVec.toNat_ofNat]; omega
    have h255 : (BitVec.ofNat 8 d : Byte) ≠ 255 := fun e =>
      absurd (hn.symm.trans (congrArg BitVec.toNat e)) (show d ≠ 255 by omega)
    rw [(delayMs_of_ne h255).1, hn]
  · rfl

/-- Settles O12: the records by induction on the list, the delay by its two ranges. -/
theorem assembledScriptDecodes : Obligations.AssembledScriptDecodes := by
  refine ⟨fun _ _ rest h hb => decodeScript_assembleScript h hb rest, fun d => ?_, fun _ _ => delayMs_assembleDelay⟩
  simp [assembleDelay_eq_some_iff, exists_or]

end Sys2Proof.Machine
end

section
/-! The fill of the whole screen (30_encoding R123), the refusal of a reserved OP (60_exceptions R302), and the effect of
a script record (40_init_sequencer R151). -/

namespace Sys2Proof.Machine

/-! `FILL_RECT` on the one-word path (42_transfer R217). -/

/-- A fill whose clipped origin is in the panel and whose clipped sides are positive. -/
theorem exec_fillRect_words {s : State} {W H xs ys x y w h c : Word} {X Y w1 h1 : Int} (hr : Ready s W H xs ys)
    (hx : clipOrigin s.cfg.negOrigin x.toInt w.toInt = (X, w1))
    (hy : clipOrigin s.cfg.negOrigin y.toInt h.toInt = (Y, h1))
    (hin : outside W.toNat H.toNat X Y = false) (hw : 0 < w1) (hh : 0 < h1)
    (hd : usesDma s.cfg (clampRun W.toNat X w1 * clampRun H.toNat Y h1).toNat = false) :
    exec (.fillRect x y w h c) s = .next (drawn s
      (drawTrace s.cfg xs ys X Y (X + clampRun W.toNat X w1 - 1) (Y + clampRun H.toNat Y h1 - 1)
        ((chunks s.cfg (clampRun W.toNat X w1 * clampRun H.toNat Y h1).toNat).map (Event.wrep c)))) := by
  obtain ⟨hi, hW, hH, hxs, hys⟩ := hr
  have hsides : ¬ (w1 ≤ 0 ∨ h1 ≤ 0) := by omega
  rw [exec, execFillRect, requireInit_ready (by exact hi), withPanel_ready (by exact hW) (by exact hH)]
  simp only [State.accept_cfg, hx, hy, hin, hsides, decide_false, Bool.or_false, Bool.false_eq_true, if_false]
  exact fillBody_words 0x08 X Y _ _ c _ hxs hys hd

theorem clipOrigin_of_nonneg (n : NegOrigin) {pos : Int} (len : Int) (h : 0 ≤ pos) :
    clipOrigin n pos len = (pos, len) := by
  simp [clipOrigin_eq, h.not_gt]

/-- The longest operand, from the panel's first cell, is cut to the panel's side (R215). -/
theorem clampRun_max {side : Word} (h : side.toNat ≤ 32767) : clampRun side.toNat 0 32767 = side.toNat := by
  unfold clampRun; split <;> omega

/-- Settles O33: `FILL_SCREEN`'s sides are the longest operand, which the edges cut to the panel's. -/
theorem fillScreenCoversPanel : Obligations.FillScreenCoversPanel := by
  intro s W H xs ys c hr hdma hW1 hW2 hH1 hH2
  have h := exec_fillRect_words (x := 0) (y := 0) (w := 32767) (h := 32767) (c := c) (X := 0) (Y := 0) hr
    (clipOrigin_of_nonneg _ 32767 le_rfl) (clipOrigin_of_nonneg _ 32767 le_rfl)
    (by simp [outside]; omega) (by decide) (by decide) (usesDma_false (.inl hdma))
  rw [clampRun_max hW2, clampRun_max hH2, ← Int.natCast_mul, Int.toNat_natCast] at h
  simpa [fillScreen] using h

/-! A reserved OP (30_encoding R111, 60_exceptions R302). -/

theorem step_reserved {s : State} {q : Request} {rest : List Request} (ha : Accepts s) (hq : s.requests = q :: rest)
    (h : ReservedOp (q.toNat % 256)) : step s = .next { s with requests := rest, refused := true } := by
  obtain ⟨hm, hp, hi, hb⟩ := ha
  rw [step_moves hm]
  simp [sequencerMove, hp, hi, hb, takeRequest, hq, decodeRequest_reserved h]

theorem step_refused {s : State} (hx : s.refused = true) (hr : s.resetIn = false) (hf : s.fault = none) :
    step s = .refused .latched := by
  simp [step, cycle, hr, hf, hx]

/-- Settles O5: a reserved OP does not decode, so the idle block refuses it, and the next step is the latch. -/
theorem reservedOpcodeRefused : Obligations.ReservedOpcodeRefused :=
  ⟨fun _ _ _ ha hq h => step_reserved ha hq h,
    fun _ hx => ⟨fun ⟨_, _, hx', _⟩ => by simp [hx] at hx', step_refused hx⟩⟩

/-! A script record (40_init_sequencer R151). -/

/-- Settles O16: the equation of a record's run, at each of the two forms. -/
theorem recordCompletes : Obligations.RecordCompletes := by
  intro s p n cmd args hp hn
  refine ⟨?_, fun dly => ?_⟩
  · rw [exec, execRecord, runRecord_eq cmd args none hp hn]
    simp [recordEvents, command, wByte, Nat.add_assoc]
  · rw [exec, execRecordDelay, runRecord_eq cmd args (some dly) hp hn]
    simp [recordEvents, command, wByte, delayMs]
    omega

end Sys2Proof.Machine
end

section
/-! The initialization FSM read byte by byte (40_init_sequencer R140): the rows of one script record, and what they
leave. -/

namespace Sys2Proof.Machine

/-! The bytes at the script pointer. -/

/-- What the bytes from an address on say of the ROM, when there is one. -/
theorem drop_eq_cons {l : List Byte} {p : Nat} {v : Byte} {rest : List Byte} (h : l.drop p = v :: rest) :
    l[p]? = some v ∧ l.drop (p + 1) = rest ∧ l.length = p + 1 + rest.length := by
  have hlen := congrArg List.length h
  simp only [List.length_drop, List.length_cons] at hlen
  exact ⟨by simpa using congrArg List.head? h, by simpa using congrArg List.tail h, by omega⟩

/-! One row each. -/

theorem fsmRow_cmd {s : State} {p : Nat} {v : Byte} (hq : s.seq = .cmd) (hp : s.sp = some p)
    (hv : s.cfg.scriptRom[p]? = some v) : fsmRow s = .next { s with
      sp := some (p + 1), cmd := some v, cs := some false, dc := some false, seq := .cnt
      trace := s.trace ++ [.cs false, .dc false, wByte v] } := by
  simp [fsmRow, hq, rowCmd, rd_byte hp hv, State.emitAll, State.emit, wByte]

theorem fsmRow_cnt {s : State} {p : Nat} {v : Byte} (hq : s.seq = .cnt) (hp : s.sp = some p)
    (hv : s.cfg.scriptRom[p]? = some v) : fsmRow s = .next { s with
      sp := some (p + 1), dflag := some (delayFlag v), nargs := some (argCount v), dc := some true, seq := .arg
      trace := s.trace ++ [.dc true] } := by
  simp [fsmRow, hq, rowCnt, rd_byte hp hv, State.emit]

theorem fsmRow_noArg {s : State} (hq : s.seq = .arg) (hn : s.nargs = some 0) :
    fsmRow s = .next { s with nargs := some 0, seq := .endRec } := by
  simp [fsmRow, hq, rowArg, hn]

theorem fsmRow_arg {s : State} {p : Nat} {v : Byte} {n : BitVec 7} (hq : s.seq = .arg) (hn : s.nargs = some n)
    (h0 : n ≠ 0) (hp : s.sp = some p) (hv : s.cfg.scriptRom[p]? = some v) : fsmRow s = .next { s with
      sp := some (p + 1), nargs := some (n - 1), seq := if n - 1 = 0 then .endRec else .arg
      trace := s.trace ++ [wByte v] } := by
  simp only [fsmRow, hq, rowArg, hn, if_neg h0, rd_byte hp hv]
  rfl

theorem fsmRow_endRec {s : State} {f : Bool} (hq : s.seq = .endRec) (hf : s.dflag = some f) :
    fsmRow s = .next { s with
      cs := some true, seq := if f then .dly else .recDone, trace := s.trace ++ [.cs true] } := by
  simp [fsmRow, hq, rowEnd, hf, State.emit]

theorem fsmRow_dly {s : State} {p : Nat} {v : Byte} (hq : s.seq = .dly) (hp : s.sp = some p)
    (hv : s.cfg.scriptRom[p]? = some v) : fsmRow s = .next { s with
      sp := some (p + 1), seq := .recDone, trace := s.trace ++ [.delay (delayMs v)] } := by
  simp [fsmRow, hq, rowDly, rd_byte hp hv, State.emit]

/-! Several rows. -/

/-- The states of the FSM between a record's command byte and its end, where a step of the machine is the row. -/
def Seq.inRecord (q : Seq) : Prop := q = .cnt ∨ q = .arg ∨ q = .endRec ∨ q = .dly

/-- A row inside a record that faults nothing. -/
structure RecordRow (s t : State) : Prop where
  seq   : s.seq.inRecord
  row   : fsmRow s = .next t
  fault : t.fault = s.fault

/-- Rows inside a record, in succession. -/
abbrev RecordRows : State → State → Prop := Relation.ReflTransGen RecordRow

theorem fsmRows_succ {s t : State} (h : fsmRow s = .next t) (k : Nat) : fsmRows (k + 1) s = fsmRows k t := by
  simp [fsmRows, h]

/-- Rows inside a record are rows of R140's table. -/
theorem RecordRows.fsmRows {s t : State} (h : RecordRows s t) (j : Nat) :
    ∃ k, fsmRows k s = Machine.fsmRows j t := by
  induction h using Relation.ReflTransGen.head_induction_on with
  | refl => exact ⟨j, rfl⟩
  | head hr _ ih =>
    obtain ⟨k, hk⟩ := ih
    exact ⟨k + 1, (fsmRows_succ hr.row k).trans hk⟩

theorem RecordRow.step {s t : State} (h : RecordRow s t) (hm : FsmMoves s) : step s = .next t := by
  obtain ⟨hq, hr, -⟩ := h
  refine hm.row ?_ ?_ hr <;> rcases hq with hq | hq | hq | hq <;> simp [hq]

theorem RecordRow.moves {s t : State} (h : RecordRow s t) (hm : FsmMoves s) : FsmMoves t := by
  have hf := (fsmRow_answer h.row).frame
  exact hm.congr hf.resetIn h.fault hf.refused hf.dmaBusy hf.pending

/-- Rows inside a record are steps of a machine whose FSM can move. -/
theorem RecordRows.reaches {s t : State} (h : RecordRows s t) (hm : FsmMoves s) :
    (∃ k, Reaches k s t) ∧ FsmMoves t := by
  induction h with
  | refl => exact ⟨⟨0, reaches_zero s⟩, hm⟩
  | tail _ hr ih =>
    obtain ⟨⟨k, hk⟩, hm⟩ := ih
    exact ⟨⟨k + 1, reaches_trans hk (reaches_one (hr.step hm))⟩, hr.moves hm⟩

/-! The rows of one record. -/

theorem recordRow_arg {s : State} {p : Nat} {v : Byte} {n : BitVec 7} (hq : s.seq = .arg) (hn : s.nargs = some n)
    (h0 : n ≠ 0) (hp : s.sp = some p) (hv : s.cfg.scriptRom[p]? = some v) : RecordRow s { s with
      sp := some (p + 1), nargs := some (n - 1), seq := if n - 1 = 0 then .endRec else .arg
      trace := s.trace ++ [wByte v] } :=
  ⟨.inr (.inl hq), fsmRow_arg hq hn h0 hp hv, rfl⟩

/-- Argument bytes while more are to come. -/
theorem recordRows_someArgs {s : State} {p : Nat} {n : BitVec 7} {args rest : List Byte} (hq : s.seq = .arg)
    (hn : s.nargs = some n) (hp : s.sp = some p) (hb : s.cfg.scriptRom.drop p = args ++ rest)
    (hl : args.length < n.toNat) : RecordRows s { s with
      sp := some (p + args.length), nargs := some (BitVec.ofNat 7 (n.toNat - args.length)), seq := .arg
      trace := s.trace ++ args.map wByte } := by
  induction args generalizing s p n with
  | nil => simp [← hn, ← hp, ← hq, Relation.ReflTransGen.refl]
  | cons v args ih =>
    obtain ⟨hv, hb', -⟩ := drop_eq_cons hb
    simp only [List.length_cons] at hl ⊢
    have hsub : (n - 1).toNat = n.toNat - 1 :=
      BitVec.toNat_sub_of_le (BitVec.le_def.2 (show 1 ≤ n.toNat by omega))
    have h0 : n ≠ 0 := fun e => by simp [e] at hl
    have h1 : n - 1 ≠ 0 := fun e => by have := hsub.symm.trans (congrArg BitVec.toNat e); simp at this; omega
    have hrow := recordRow_arg hq hn h0 hp hv
    rw [if_neg h1] at hrow
    have hrows := ih (n := n - 1) (p := p + 1) (s := { s with
      sp := some (p + 1), nargs := some (n - 1), seq := .arg, trace := s.trace ++ [wByte v] }) rfl rfl rfl hb'
      (by omega)
    rw [hsub, Nat.sub_sub] at hrows
    simpa [Nat.add_assoc, Nat.add_comm 1] using Relation.ReflTransGen.head hrow hrows

/-- All the argument bytes: none, or some and then the last. -/
theorem recordRows_args {s : State} {p : Nat} {n : BitVec 7} {args rest : List Byte} (hq : s.seq = .arg)
    (hn : s.nargs = some n) (hp : s.sp = some p) (hb : s.cfg.scriptRom.drop p = args ++ rest)
    (hl : args.length = n.toNat) : RecordRows s { s with
      sp := some (p + args.length), nargs := some 0, seq := .endRec, trace := s.trace ++ args.map wByte } := by
  rcases List.eq_nil_or_concat args with rfl | ⟨init, v, rfl⟩
  · obtain rfl : n = 0 := BitVec.eq_of_toNat_eq hl.symm
    exact .single ⟨.inr (.inl hq), by simp [fsmRow_noArg hq hn, ← hp], rfl⟩
  · simp only [List.concat_eq_append, List.length_append, List.length_singleton, List.append_assoc] at hl hb ⊢
    have hv : s.cfg.scriptRom[p + init.length]? = some v := by
      rw [← List.getElem?_drop, hb]; simp
    have hrows := recordRows_someArgs hq hn hp hb (by omega)
    rw [← hl, Nat.add_sub_cancel_left] at hrows
    simpa [Nat.add_assoc] using hrows.tail (recordRow_arg rfl rfl (by decide) rfl hv)

/-- From the count byte to the end of the bracket. -/
theorem recordRows_bracket {s : State} {p : Nat} {cnt : Byte} {args rest : List Byte} (hq : s.seq = .cnt)
    (hp : s.sp = some p) (hb : s.cfg.scriptRom.drop p = cnt :: (args ++ rest))
    (hl : args.length = (argCount cnt).toNat) : RecordRows s { s with
      sp := some (p + 1 + args.length), dflag := some (delayFlag cnt), nargs := some 0
      cs := some true, dc := some true, seq := if delayFlag cnt then .dly else .recDone
      trace := s.trace ++ ([.dc true] ++ args.map wByte ++ [.cs true]) } := by
  obtain ⟨hv, hb', -⟩ := drop_eq_cons hb
  rw [← List.append_assoc, ← List.append_assoc]
  exact .head ⟨.inl hq, fsmRow_cnt hq hp hv, rfl⟩
    (.tail (recordRows_args rfl rfl rfl hb' hl) ⟨.inr (.inr (.inl rfl)), fsmRow_endRec rfl rfl, rfl⟩)

/-- From the count byte to the end of a ROM that ends among the arguments. -/
theorem recordRows_cutArgs {s : State} {p : Nat} {cnt : Byte} {args : List Byte} (hq : s.seq = .cnt)
    (hp : s.sp = some p) (hb : s.cfg.scriptRom.drop p = cnt :: args) (hl : args.length < (argCount cnt).toNat) :
    RecordRows s { s with
      sp := some (p + 1 + args.length), dflag := some (delayFlag cnt)
      nargs := some (BitVec.ofNat 7 ((argCount cnt).toNat - args.length))
      dc := some true, seq := .arg, trace := s.trace ++ ([.dc true] ++ args.map wByte) } := by
  obtain ⟨hv, hb', -⟩ := drop_eq_cons hb
  rw [← List.append_assoc]
  exact .head ⟨.inl hq, fsmRow_cnt hq hp hv, rfl⟩
    (recordRows_someArgs rfl rfl rfl (hb'.trans (List.append_nil args).symm) hl)

/-- From the count byte of a record to SQ_REC_DONE. -/
theorem recordRows_record {s : State} {p : Nat} {cnt : Byte} {args rest : List Byte} {dly : Option Byte}
    (hq : s.seq = .cnt) (hp : s.sp = some p) (hb : s.cfg.scriptRom.drop p = cnt :: (args ++ (dly.toList ++ rest)))
    (hl : args.length = (argCount cnt).toNat) (hf : delayFlag cnt = dly.isSome) : RecordRows s { s with
      sp := some (p + 1 + args.length + dly.toList.length), dflag := some dly.isSome, nargs := some 0
      cs := some true, dc := some true, seq := .recDone
      trace := s.trace ++ ([.dc true] ++ args.map wByte ++ [.cs true] ++
        dly.toList.map fun d => .delay (delayMs d)) } := by
  have hrows := recordRows_bracket hq hp hb hl
  rw [hf] at hrows
  cases dly with
  | none => simpa using hrows
  | some d =>
    have hv : s.cfg.scriptRom[p + 1 + args.length]? = some d := by
      rw [Nat.add_assoc, ← List.getElem?_drop, hb]; simp [Nat.add_comm 1]
    simpa using hrows.tail ⟨.inr (.inr (.inr rfl)), fsmRow_dly rfl rfl hv, rfl⟩

/-- A record as one instruction, up to its SQ_REC_DONE row. -/
theorem runRecord_recDone {s : State} {p : Nat} (cmd : Byte) (args : List Byte) (dly : Option Byte)
    (hp : s.sp = some p) :
    runRecord cmd args dly s = .next (rowRecDone { s with
      trace := s.trace ++ recordEvents cmd args (dly.map delayMs)
      cs := some true, dc := some true, cmd := some cmd, nargs := some 0, dflag := some dly.isSome
      sp := some (p + 2 + args.length + dly.toList.length), seq := .recDone }) := by
  simp only [runRecord, hp]
  rw [State.emitAll_eq]
  simp [State.levels]

/-- A record run as one instruction is the rows that read its bytes. -/
theorem fsmRows_record {s : State} {p : Nat} {cmd cnt : Byte} {args rest : List Byte} {dly : Option Byte}
    (hq : s.seq = .cmd) (hp : s.sp = some p)
    (hb : s.cfg.scriptRom.drop p = cmd :: cnt :: (args ++ (dly.toList ++ rest)))
    (hl : args.length = (argCount cnt).toNat) (hf : delayFlag cnt = dly.isSome) :
    ∃ k, fsmRows k s = runRecord cmd args dly s := by
  obtain ⟨hv, hb', -⟩ := drop_eq_cons hb
  obtain ⟨u, hu, hcmd⟩ : ∃ u, u = _ ∧ fsmRow s = .next u := ⟨_, rfl, fsmRow_cmd hq hp hv⟩
  obtain ⟨k, hk⟩ := (recordRows_record (s := u) (by rw [hu]) (by rw [hu]) (by rw [hu]; exact hb') hl hf).fsmRows 1
  refine ⟨k + 1, (fsmRows_succ hcmd k).trans (hk.trans ?_)⟩
  rw [hu, runRecord_recDone cmd args dly hp]
  cases dly <;> simp [Machine.fsmRows, fsmRow, recordEvents, command, Nat.add_assoc]

/-- The record at the script pointer is decoded from the bytes there. -/
theorem recordAt_eq_some {s : State} {i : Instr} (h : recordAt s = some i) :
    ∃ p rest, s.sp = some p ∧ decodeRecord (s.cfg.scriptRom.drop p) = .ok (i, rest) := by
  unfold recordAt at h
  split at h
  · cases h
  next p hp =>
    split at h
    next j rest hd => cases h; exact ⟨p, rest, hp, hd⟩
    · cases h

/-- Settles O17: the rows of a plain record and of a delayed one, from SQ_CMD through SQ_REC_DONE. -/
theorem recordRefinesRows : Obligations.RecordRefinesRows := by
  intro s i hq hi
  obtain ⟨p, rest, hp, hd⟩ := recordAt_eq_some hi
  rcases decodeRecord_cases hd with ⟨cmd, cnt, args, rfl, hf, hl, hb⟩ | ⟨cmd, cnt, args, dly, rfl, hf, hl, hb⟩
  · exact fsmRows_record (dly := none) hq hp hb hl hf
  · exact fsmRows_record (dly := some dly) hq hp hb hl hf

/-! Reads past the end of P_SCRIPT_ROM. -/

theorem wByte_eq : wByte = fun b => .w (b.setWidth 16) := rfl

/-- The request whose script runs: `RUN_SCRIPT` for script X, else `INIT` (log entry 13). -/
theorem scriptOp_eq {s : State} {id : ScriptId} (h : s.script = some id) :
    s.scriptOp = if id = .x then 0x02 else 0x01 := by
  cases id <;> simp [State.scriptOp, State.runningX, h]

/-- SQ_HDR of a script whose start address is past the end. -/
theorem fsmRow_hdr_overrun {s : State} {id : ScriptId} {a : Nat} (hq : s.seq = .hdr) (hid : s.script = some id)
    (ha : scriptStart s id = some a) (hl : s.cfg.scriptRom.length ≤ a) :
    fsmRow s = .next ({ s with sp := some a }.raise .scriptOverrun s.scriptOp (.pointer a)) := by
  simp [fsmRow, hq, rowHdr, hid, ha, rd, List.getElem?_eq_none hl, State.scriptOp, State.runningX]

/-- Where the FSM reads the byte at the script pointer. -/
def ReadsNext (s : State) : Prop :=
  s.seq = .cmd ∨ s.seq = .cnt ∨ s.seq = .dly ∨ (s.seq = .arg ∧ ∃ n, s.nargs = some n ∧ n ≠ 0) ∨
    (s.seq = .hdr ∧ s.script = some .x)

/-- Each of those rows is a read, and the read faults. -/
theorem fsmRow_overrun {s : State} {p : Nat} (hr : ReadsNext s) (hp : s.sp = some p)
    (hl : s.cfg.scriptRom.length ≤ p) : fsmRow s = .next (s.raise .scriptOverrun s.scriptOp (.pointer p)) := by
  rcases hr with hq | hq | hq | ⟨hq, n, hn, h0⟩ | ⟨hq, hx⟩
  · simp only [fsmRow, hq, rowCmd, rd_overrun hp hl]
  · simp only [fsmRow, hq, rowCnt, rd_overrun hp hl]
  · simp only [fsmRow, hq, rowDly, rd_overrun hp hl]
  · simp only [fsmRow, hq, rowArg, hn, if_neg h0, rd_overrun hp hl]
  · simpa [← hp] using fsmRow_hdr_overrun hq hx hp hl

/-- A step of the FSM is its row, also in SQ_CMD where no whole record stands at the script pointer. -/
theorem FsmMoves.step_fsmRow {s : State} (h : FsmMoves s) (hi : s.seq ≠ .idle)
    (hc : s.seq = .cmd → recordAt s = none) : step s = fsmRow s := by
  by_cases hq : s.seq = .cmd
  · rw [step_moves h.1]
    simp [sequencerMove, h.2, hq, fsmMove, takeRecord, hc hq, fsmRow]
  · exact step_row h.1 h.2 hi hq

theorem recordAt_eq_none {s : State} {p : Nat} {e : DecodeError} (hp : s.sp = some p)
    (hd : decodeRecord (s.cfg.scriptRom.drop p) = .error e) : recordAt s = none := by
  simp [recordAt, hp, hd]

/-- A read past the end is a step that records the fault and changes nothing else (60_exceptions R301, R303). -/
theorem step_overrun {s : State} {p : Nat} (h : FsmMoves s) (hr : ReadsNext s) (hp : s.sp = some p)
    (hl : s.cfg.scriptRom.length ≤ p) : step s = .next (s.raise .scriptOverrun s.scriptOp (.pointer p)) := by
  rw [h.step_fsmRow ?_ fun _ => recordAt_eq_none (e := .truncatedRecord) hp (by rw [List.drop_of_length_le hl]; rfl),
    fsmRow_overrun hr hp hl]
  rcases hr with hq | hq | hq | ⟨hq, -⟩ | ⟨hq, -⟩ <;> simp [hq]

/-- A cut-off record from SQ_CMD: its command byte, rows inside it, and the read that faults. -/
theorem reaches_overrun {s t : State} {id : ScriptId} {p : Nat} {v : Byte} {more : List Byte} {e : DecodeError}
    (h : FsmMoves s) (hq : s.seq = .cmd) (hp : s.sp = some p) (hb : s.cfg.scriptRom.drop p = v :: more)
    (hd : decodeRecord (v :: more) = .error e)
    (hrows : RecordRows { s with
      sp := some (p + 1), cmd := some v, cs := some false, dc := some false, seq := .cnt
      trace := s.trace ++ [.cs false, .dc false, wByte v] } t)
    (hr : ReadsNext t) (ht : t.sp = some s.cfg.scriptRom.length) (hc : t.cfg = s.cfg) (hid : t.script = some id) :
    ∃ k, Reaches k s (t.raise .scriptOverrun (if id = .x then 0x02 else 0x01) (.pointer s.cfg.scriptRom.length)) := by
  rw [← scriptOp_eq hid]
  obtain ⟨hv, -⟩ := drop_eq_cons hb
  have h1 : step s = _ :=
    (h.step_fsmRow (by simp [hq]) fun _ => recordAt_eq_none hp (hb ▸ hd)).trans (fsmRow_cmd hq hp hv)
  obtain ⟨⟨k, hk⟩, hm⟩ := hrows.reaches h
  exact ⟨k + 1 + 1, reaches_succ h1 (reaches_trans hk (reaches_one (step_overrun hm hr ht (by rw [hc]))))⟩

theorem decodeRecord_cutArgs {cmd cnt : Byte} {args : List Byte} (h : args.length < (argCount cnt).toNat) :
    decodeRecord (cmd :: cnt :: args) = .error .truncatedRecord := by
  simp [decodeRecord, h]

theorem decodeRecord_cutDelay {cmd cnt : Byte} {args : List Byte} (h : args.length = (argCount cnt).toNat)
    (hf : delayFlag cnt = true) : decodeRecord (cmd :: cnt :: args) = .error .truncatedRecord := by
  simp [decodeRecord, ← h, hf]

/-- While fewer arguments than the count have been read, some are left. -/
theorem ofNat_sub_ne_zero {n : BitVec 7} {k : Nat} (h : k < n.toNat) : BitVec.ofNat 7 (n.toNat - k) ≠ 0 := fun e => by
  have hlt := n.isLt
  have hmod := congrArg BitVec.toNat e
  rw [BitVec.toNat_ofNat, Nat.mod_eq_of_lt (by omega)] at hmod
  exact Nat.sub_ne_zero_of_lt h hmod

/-- Settles O19: every read past the end faults, and the rows of a cut-off record lead to such a read. -/
theorem scriptOverrunFaults : Obligations.ScriptOverrunFaults := by
  intro s p id hm hpend hid
  have hF : FsmMoves s := ⟨hm, hpend⟩
  refine ⟨fun hl => ⟨fun hp hr => ?_, fun hq ha => ?_⟩, fun hq hp => ⟨fun cmd hb => ?_, fun cmd cnt args hb hn => ?_,
    fun cmd cnt args hb hn hf => ?_⟩⟩
  · rw [step_overrun hF (by simpa [ReadsNext, hid] using hr) hp hl, scriptOp_eq hid]
    rfl
  · have ha : scriptStart s id = some p := by
      rcases ha with ⟨rfl, ha⟩ | ⟨rfl, ha⟩ | ⟨rfl, ha⟩ <;> exact congrArg some ha
    rw [hF.step_fsmRow (by simp [hq]) (by simp [hq]), fsmRow_hdr_overrun hq hid ha hl, scriptOp_eq hid]
    rfl
  · obtain ⟨-, -, hlen⟩ := drop_eq_cons hb
    obtain ⟨k, hk⟩ := reaches_overrun hF hq hp hb rfl .refl (.inr (.inl rfl)) (by simp [hlen]) rfl hid
    refine ⟨k, ?_⟩
    simpa [State.raise, hlen, wByte_eq] using hk
  · rw [← argCount_toNat] at hn
    obtain ⟨-, hb', -⟩ := drop_eq_cons hb
    obtain ⟨-, -, hlen⟩ := drop_eq_cons hb'
    obtain ⟨k, hk⟩ := reaches_overrun hF hq hp hb (decodeRecord_cutArgs hn) (recordRows_cutArgs rfl rfl hb' hn)
      (.inr (.inr (.inr (.inl ⟨rfl, _, rfl, ofNat_sub_ne_zero hn⟩)))) (by simp [hlen]) rfl hid
    refine ⟨k, ?_⟩
    simpa [State.raise, hlen, delayFlag_eq, argCount_toNat, wByte_eq] using hk
  · rw [← argCount_toNat] at hn
    have hf' : delayFlag cnt = true := by rw [delayFlag_eq]; exact decide_eq_true hf
    obtain ⟨-, hb', -⟩ := drop_eq_cons hb
    obtain ⟨-, -, hlen⟩ := drop_eq_cons hb'
    obtain ⟨k, hk⟩ := reaches_overrun hF hq hp hb (decodeRecord_cutDelay hn hf')
      (recordRows_bracket (rest := []) rfl rfl (by simpa using hb') hn)
      (.inr (.inr (.inl (if_pos hf')))) (by simp [hlen]) rfl hid
    refine ⟨k, ?_⟩
    simpa [State.raise, hlen, hf', wByte_eq] using hk

end Sys2Proof.Machine
end

section
/-! `INIT` and `RUN_SCRIPT` to their ends (40_init_sequencer R148 to R150), and what `INIT`'s trace holds: its delays
(R154) and a sleep-out before every gamma or power command (70_reset_and_hazards R346). -/

namespace Sys2Proof.Machine

/-- Settles O3: WF_SCRIPTS is that each of the three scripts parses. -/
theorem bootRefusesMalformedScripts : Obligations.BootRefusesMalformedScripts := by
  intro c
  have hwf : wfScripts c = true ↔ ∃ s1 s2 s3, HasScripts c s1 s2 s3 := by
    simp [wfScripts, Option.isSome_iff_exists, and_assoc]
  exact ⟨fun h => if_pos (hwf.2 h), fun h => if_neg (mt hwf.1 h)⟩

theorem fsmMoves_of_accepts {s : State} (h : Accepts s) : FsmMoves s := by
  obtain ⟨hm, hp, -⟩ := h
  exact ⟨hm, hp⟩

/-- Settles O14: acceptance leads to SQ_SESSION, and from there the run of `reaches_init` has R149's end. -/
theorem initCompletes : Obligations.InitCompletes := by
  intro s s1 s2 s3 ha hs
  refine ⟨rfl, ?_⟩
  have hF := fsmMoves_of_accepts ha
  obtain ⟨k, cmd, nargs, dflag, sp, ncmd, r⟩ := reaches_init
    (s := { s with busy := true, initialized := false, seq := .session }) hF rfl hs
  obtain ⟨⟨hr, hf, hx, hd⟩, hp, -, -⟩ := ha
  refine ⟨k, _, r, rfl, ⟨rfl, hf, hx, hd, rfl⟩, ?_⟩
  simp [hr, hf, hx, hp]

theorem exec_runScript (ptr : BitVec 32) {s : State} (h : s.initialized = true) :
    exec (.runScript ptr) s = .next { s with
      busy := true, ws := some .w8, trace := s.trace ++ [.setWs .w8]
      script := some .x, sp := some (address s.cfg ptr), seq := .hdr } := by
  rw [exec, execRunScript, requireInit_ready (by exact h)]
  rfl

/-- SQ_NEXT and SQ_DONE of a `RUN_SCRIPT`, to its end (R150). -/
theorem reaches_runScript_end {s : State} (h : FsmMoves s) (hq : s.seq = .next) (hx : s.script = some .x) :
    Reaches 2 s { s with
      ws := some .w16, busy := false, seq := .idle, trace := s.trace ++ [.setWs .w16, .resp .ok 0] } := by
  have h1 := h.row (t := rowNext s) (by simp [hq]) (by simp [hq]) (by simp [fsmRow, hq])
  have hn : rowNext s = { s with ws := some .w16, seq := .done, trace := s.trace ++ [.setWs .w16] } := by
    simp [rowNext, hx, State.emit]
  rw [hn] at h1
  refine reaches_succ h1 (reaches_one ?_)
  rw [FsmMoves.row (t := rowDone _) _ _ _ rfl]
  · simp [rowDone, hx, State.ok_eq, State.respond, State.emit]
  · exact h
  · simp
  · simp

/-- Settles O15: `reaches_script` replays the records, and SQ_NEXT and SQ_DONE of script X respond. -/
theorem runScriptCompletes : Obligations.RunScriptCompletes := by
  intro s ptr records ha hi hs
  refine ⟨_, exec_runScript ptr hi, rfl, rfl, rfl, ?_⟩
  have hF := fsmMoves_of_accepts ha
  obtain ⟨k, cmd, dflag, nargs, dc, cs, -, r⟩ := reaches_script (s := { s with
    busy := true, ws := some .w8, trace := s.trace ++ [.setWs .w8]
    script := some .x, sp := some (address s.cfg ptr), seq := .hdr }) hF rfl rfl rfl hs
  refine ⟨k + 2, _, reaches_trans r (reaches_runScript_end hF rfl rfl), ?_⟩
  obtain ⟨⟨hr, hf, hx, hd⟩, hp, -, -⟩ := ha
  simp [runScriptTrace, address, hi, hr, hf, hx, hd, hp]

/-! The delays of `INIT`. -/

/-- A sublist of records has no more delay than the whole. -/
theorem totalDelay_sublist {is js : List Instr} (h : is.Sublist js) :
    totalDelay (is.flatMap recordTrace) ≤ totalDelay (js.flatMap recordTrace) := by
  induction h with
  | slnil => exact le_rfl
  | cons i _ ih => simp [totalDelay_append]; omega
  | cons_cons i _ ih => simp [totalDelay_append]; omega

theorem totalDelay_delayedRecord {cmd : Byte} {ms : Nat} {i : Instr} (h : DelayedRecord cmd ms i) :
    totalDelay (recordTrace i) = ms := by
  obtain ⟨args, dly, rfl, rfl⟩ := h
  simp [recordTrace, recordEvents, command, totalDelay_append, totalDelay_wBytes, totalDelay, wByte]

theorem totalDelay_resetPulse {c : Config} (h : c.rstPresent = true) : totalDelay (resetPulse c) = 150 := by
  simp [resetPulse, h, totalDelay]

/-- Settles O20: the four documented records are a sublist of the records, and the reset pulse adds 150 ms. -/
theorem documentedInitDelay : Obligations.DocumentedInitDelay := by
  rintro s resetCmd s1 s2 s3 ⟨⟨r, p, hsub, hr, hp⟩, front, n, d, rfl, hn, hd⟩
  have h1 := totalDelay_sublist hsub
  simp only [List.flatMap_cons, List.flatMap_nil, totalDelay_append, totalDelay_delayedRecord hr,
    totalDelay_delayedRecord hp] at h1
  have h3 : totalDelay ([n, d].flatMap recordTrace) = 110 := by
    simp [totalDelay_append, totalDelay_delayedRecord hn, totalDelay_delayedRecord hd]
  simp only [initTrace, totalDelay_append, List.flatMap_append, h3]
  exact ⟨by omega, fun h => by rw [totalDelay_resetPulse h]; omega⟩

/-! A sleep-out before every gamma or power command. -/

/-- The first events of a record's bracket: the bus select and the command byte (R151). -/
def bracketHead (cmd : Byte) : List Event := [.cs false, .dc false, wByte cmd]

/-- The command byte of a record. -/
def recordCommand : Instr → Option Byte
  | .record cmd _ => some cmd
  | .recordDelay cmd _ _ => some cmd
  | _ => none

/-- The events of a record are its bracket's head and events that open no other bracket; of a request, none. -/
theorem recordTrace_cases (i : Instr) :
    recordTrace i = [] ∨
      ∃ cmd rest, recordCommand i = some cmd ∧ recordTrace i = bracketHead cmd ++ rest ∧ Event.cs false ∉ rest := by
  cases i with
  | record cmd args =>
    exact .inr ⟨cmd, [.dc true] ++ args.map wByte ++ [.cs true], rfl, by
      simp [recordTrace, recordEvents, command, bracketHead], by simp [wByte]⟩
  | recordDelay cmd args dly =>
    exact .inr ⟨cmd, [.dc true] ++ args.map wByte ++ [.cs true, .delay (delayMs dly)], rfl, by
      simp [recordTrace, recordEvents, command, bracketHead], by simp [wByte]⟩
  | _ => exact .inl rfl

/-- An occurrence after events without its first event lies wholly behind them. -/
theorem append_eq_append_cons {xs ys front back : List Event} {e : Event} (h : xs ++ ys = front ++ e :: back)
    (he : e ∉ xs) : ∃ mid, front = xs ++ mid ∧ ys = mid ++ e :: back := by
  rcases List.append_eq_append_iff.1 h with ⟨mid, hf, hy⟩ | ⟨mid, hx, hy⟩
  · exact ⟨mid, hf, hy⟩
  · cases mid with
    | nil => exact ⟨[], by simpa using hx.symm, by simpa using hy.symm⟩
    | cons f mid =>
      obtain ⟨rfl, -⟩ := List.cons.inj hy
      exact absurd (by simp [hx]) he

theorem wByte_injective {a b : Byte} (h : wByte a = wByte b) : a = b := by
  simpa using congrArg loByte (Event.w.inj h)

/-- Every bracket head among the events of records, with no other behind them, is the head of one of them. -/
theorem bracketHead_of_record {records : List Instr} {tail front back : List Event} {cmd : Byte}
    (ht : ∀ front back, tail ≠ front ++ bracketHead cmd ++ back)
    (h : records.flatMap recordTrace ++ tail = front ++ bracketHead cmd ++ back) :
    ∃ before i after, records = before ++ i :: after ∧ recordCommand i = some cmd ∧
      front = before.flatMap recordTrace := by
  induction records generalizing front with
  | nil => exact absurd h (ht front back)
  | cons i records ih =>
    rw [List.flatMap_cons, List.append_assoc] at h
    rcases recordTrace_cases i with hi | ⟨c, rest, hc, hi, hrest⟩
    · rw [hi] at h
      obtain ⟨before, j, after, rfl, hj, rfl⟩ := ih h
      exact ⟨i :: before, j, after, rfl, hj, by simp [hi]⟩
    · rw [hi] at h
      cases front with
      | nil =>
        simp only [bracketHead, List.cons_append, List.nil_append, List.cons.injEq, true_and] at h
        obtain ⟨hw, -⟩ := h
        exact ⟨[], i, records, rfl, wByte_injective hw ▸ hc, rfl⟩
      | cons e front =>
        have hno : Event.cs false ∉ [.dc false, wByte c] ++ rest := by simpa [wByte] using hrest
        obtain ⟨rfl, h⟩ := List.cons.inj h
        obtain ⟨mid, rfl, h⟩ := append_eq_append_cons (by simpa [bracketHead] using h) hno
        obtain ⟨before, j, after, rfl, hj, rfl⟩ := ih (by simpa [bracketHead] using h)
        exact ⟨i :: before, j, after, rfl, hj, by simp [hi, bracketHead]⟩

/-- The orientation and the response hold no bracket head: their bracket starts with its word size (41_addressing
R184). -/
theorem rotateEvents_no_bracketHead (c : Config) (r : BitVec 2) (cmd : Byte) (front back : List Event) :
    rotateEvents c r ++ [.resp .ok 0] ≠ front ++ bracketHead cmd ++ back := by
  intro h
  cases front with
  | nil => simp [rotateEvents, bracketHead] at h
  | cons e front =>
    obtain ⟨-, h⟩ : _ ∧ _ = front ++ bracketHead cmd ++ back := List.cons.inj h
    have hmem : Event.cs false ∈ front ++ bracketHead cmd ++ back := by simp [bracketHead]
    rw [← h] at hmem
    simp [command, wByte] at hmem

/-- The session step and the reset pulse select no bus. -/
theorem cs_not_mem_start (s : State) : Event.cs false ∉ sessionEvents s ++ resetPulse s.cfg := by
  simp only [sessionEvents, resetPulse]
  split <;> split <;> simp

/-- Every bracket head in `INIT`'s trace is the head of one of its records. -/
theorem bracketHead_of_initTrace {s : State} {records : List Instr} {front back : List Event} {cmd : Byte}
    (h : initTrace s records = front ++ bracketHead cmd ++ back) :
    ∃ before i after, records = before ++ i :: after ∧ recordCommand i = some cmd ∧
      front = sessionEvents s ++ resetPulse s.cfg ++ before.flatMap recordTrace := by
  simp only [initTrace, bracketHead, List.append_assoc, List.cons_append, List.nil_append] at h
  rw [← List.append_assoc] at h
  obtain ⟨mid, rfl, h⟩ := append_eq_append_cons h (cs_not_mem_start s)
  obtain ⟨before, i, after, hr, hc, rfl⟩ := bracketHead_of_record
    (rotateEvents_no_bracketHead s.cfg s.cfg.initRotation cmd) (by simpa [bracketHead] using h)
  exact ⟨before, i, after, hr, hc, rfl⟩

/-- The command of a record, as SLEEPOUT_FIRST writes it. -/
theorem recordCommand_eq_some {i : Instr} {cmd : Byte} (h : recordCommand i = some cmd) :
    ∃ args, i = .record cmd args ∨ ∃ dly, i = .recordDelay cmd args dly := by
  cases i <;> simp_all [recordCommand]

/-- Settles O21: the head of a gamma or power bracket is that of one of the records, and SLEEPOUT_FIRST puts a whole
sleep-out record before it. -/
theorem sleepoutHazardMet : Obligations.SleepoutHazardMet := by
  intro gammaOrPower sleepOut s s1 s2 s3 ha hs hfirst
  obtain ⟨he, k, u, r, ht, -, hi, -⟩ := initCompletes s s1 s2 s3 ha hs
  refine ⟨_, k, u, _, he, r, ht, hi, fun cmd front back hg h => ?_⟩
  obtain ⟨before, i, after, hr, hc, rfl⟩ := bracketHead_of_initTrace h
  obtain ⟨args, hc⟩ := recordCommand_eq_some hc
  obtain ⟨c, as, dly, hmem, hsleep⟩ := hfirst before i after hr
    ⟨cmd, args, hc.imp (fun e => ⟨e, hg⟩) fun ⟨d, e⟩ => ⟨d, e, hg⟩⟩
  obtain ⟨before, between, rfl⟩ := List.append_of_mem hmem
  refine ⟨c, as, dly, sessionEvents s ++ resetPulse s.cfg ++ before.flatMap recordTrace,
    between.flatMap recordTrace, hsleep, by simp [hr], ?_⟩
  simp [recordTrace, recordEvents, command, delayMs, wByte]

end Sys2Proof.Machine
end

section
/-! Addressing: the window's two coordinate formats (41_addressing R181), `SET_ADDR_WINDOW` (R182) and `SET_ROTATION`
(R184, R185, R188, R189). -/

namespace Sys2Proof.Machine

/-! The coordinate formats. -/

/-- A coordinate of the panel is one byte under both formats: its high byte is 0 (R181). -/
theorem coord_u16_of_le (f : CoordFormat) {v : Int} (h : 0 ≤ v ∧ v ≤ 255) :
    coord f (u16 v) = [wByte 0, wByte (loByte (u16 v))] := by
  have hhi : hiByte (u16 v) = 0 := by
    rw [hiByte_u16, show v / 256 = 0 by omega]; rfl
  cases f with
  | bytesHiLo => rw [coord, hhi]
  | zeroHiLow8 => rfl

/-- Settles O24: each of the window's four coordinates goes out the same under both formats. -/
theorem coordFormatsAgreeInPanel : Obligations.CoordFormatsAgreeInPanel := by
  intro c f g xs ys x0 y0 x1 y1 hx0 hx1 hy0 hy1
  simp only [windowEvents, rangeEvents, coord_u16_of_le _ hx0, coord_u16_of_le _ hx1, coord_u16_of_le _ hy0,
    coord_u16_of_le _ hy1]

/-! `SET_ADDR_WINDOW`. -/

/-- Settles O25: past the gate the request is a drawn request with no pixels. -/
theorem setAddrWindowCompletes : Obligations.SetAddrWindowCompletes := by
  intro s x0 y0 x1 y1
  rw [exec, execSetAddrWindow]
  refine ⟨fun xs ys hi hxs hys => ?_, requireInit_accept_unset⟩
  rw [requireInit_ready (by exact hi), window_ready (xs := xs) (ys := ys) (by simpa using hxs) (by simpa using hys),
    ← closeStream_openWindow _ _ _ _ _ _ _ neutral_nil]
  rfl

/-! `SET_ROTATION`. -/

theorem exec_setRotation_ready {s : State} (mode : Byte) (h : s.initialized = true) :
    exec (.setRotation mode) s = .next (rotateBody s.accept (modeRotation mode)).ok := by
  rw [exec, execSetRotation, requireInit_ready (by exact h)]

/-- Taking the mode modulo 4 is keeping its two low bits. -/
theorem modeRotation_eq (mode : Byte) : modeRotation mode = BitVec.ofNat 2 mode.toNat := by
  apply BitVec.eq_of_toNat_eq
  simp [modeRotation]

/-- A quarter turn is an odd mode (R185). -/
theorem quarterTurn_modeRotation (mode : Byte) : quarterTurn (modeRotation mode) = (mode.toNat % 2 == 1) := by
  have h : mode.toNat % 4 % 2 = mode.toNat % 2 := by omega
  simp [quarterTurn, modeRotation, h]

theorem modeRotation_add_four (mode : Byte) : modeRotation (mode + 4) = modeRotation mode := by
  have h : (mode + 4).toNat % 4 = mode.toNat % 4 := by simp [BitVec.toNat_add]
  rw [modeRotation, h, modeRotation]

/-- Settles O26: the body's effect, its geometry read off the mode. -/
theorem setRotationCompletes : Obligations.SetRotationCompletes := by
  intro s mode
  refine ⟨fun hi => ?_, fun hi => ?_⟩
  · rw [exec_setRotation_ready mode hi, rotateBody_ok, geom, offs, quarterTurn_modeRotation, modeRotation_eq]
    simp [rotateEvents, command, wByte, apply_ite Prod.fst, apply_ite Prod.snd]
  · rw [exec, execSetRotation, requireInit_accept_unset hi]

/-- Settles O27: modes that differ by 4 name one rotation; the body's events and geometry depend on fields it leaves. -/
theorem rotationAliasAndRepeat : Obligations.RotationAliasAndRepeat := by
  refine ⟨fun s m _ => ?_, fun s t m hi h => ?_⟩
  · simp only [exec, execSetRotation, modeRotation_add_four]
  · rw [exec_setRotation_ready m hi, rotateBody_ok] at h
    obtain rfl := Host.Outcome.next.inj h
    refine ⟨_, rfl, ?_⟩
    rw [exec_setRotation_ready m (by exact hi), rotateBody_ok]
    rfl

end Sys2Proof.Machine
end

section
/-! The batched transfers (42_transfer R210 to R217, R222, R224): the chunks of a stream, the DMA agent's step, and the
pixel, the lines and the rectangle on both paths. -/

namespace Sys2Proof.Machine

/-! The chunks of a stream (R210). -/

theorem chunks_of_le (c : Config) {n : Nat} (h1 : 1 ≤ n) (h : n ≤ c.maxChunk) : chunks c n = [n] := by
  rw [chunks_cons c (by omega), min_eq_left h, Nat.sub_self, chunks_zero]

theorem chunks_of_gt (c : Config) {n : Nat} (h : c.maxChunk < n) :
    chunks c n = (c.maxChunk : Nat) :: chunks c (n - c.maxChunk) := by
  rw [chunks_cons c (by omega), min_eq_right h.le]

theorem chunks_sum (c : Config) (n : Nat) : (chunks c n).sum = n := by
  induction n using Nat.strong_induction_on with
  | h n ih =>
    have hpos := c.maxChunk.pos
    by_cases h0 : n = 0
    · rw [h0, chunks_zero, List.sum_nil]
    · rw [chunks_cons c h0, List.sum_cons, ih _ (by omega)]
      omega

theorem chunks_le (c : Config) (n : Nat) : ∀ k ∈ chunks c n, k ≤ c.maxChunk := by
  induction n using Nat.strong_induction_on with
  | h n ih =>
    have hpos := c.maxChunk.pos
    by_cases h0 : n = 0
    · simp [h0, chunks_zero]
    · rw [chunks_cons c h0, List.forall_mem_cons]
      exact ⟨min_le_right .., ih _ (by omega)⟩

/-- The full chunks of a stream, and its last. -/
theorem chunks_eq (c : Config) {n : Nat} (hn : 1 ≤ n) :
    chunks c n = List.replicate ((n - 1) / c.maxChunk) (c.maxChunk : Nat) ++
      [if n % c.maxChunk = 0 then (c.maxChunk : Nat) else n % c.maxChunk] := by
  have hpos := c.maxChunk.pos
  induction n using Nat.strong_induction_on with
  | h n ih =>
    by_cases h : n ≤ c.maxChunk
    · have hfull : (n - 1) / c.maxChunk = 0 := Nat.div_eq_of_lt (by omega)
      have hlast : (if n % c.maxChunk = 0 then (c.maxChunk : Nat) else n % c.maxChunk) = n := by
        rcases h.eq_or_lt with h | h
        · simp [h]
        · rw [Nat.mod_eq_of_lt h, if_neg (by omega)]
      rw [chunks_of_le c hn h, hfull, hlast, List.replicate_zero, List.nil_append]
    · have hfull : (n - 1) / c.maxChunk = (n - c.maxChunk - 1) / c.maxChunk + 1 := by
        rw [← Nat.add_div_right _ hpos]
        congr 1
        omega
      rw [chunks_of_gt c (by omega), ih _ (by omega) (by omega), hfull, ← Nat.mod_eq_sub_mod (by omega),
        List.replicate_succ, List.cons_append]

/-- Settles O34: both parts by induction on the stream, chunk by chunk. -/
theorem chunkSizes : Obligations.ChunkSizes := fun c n hn => ⟨chunks_eq c hn, chunks_sum c n⟩

/-! The DMA path (R210 to R212). -/

/-- Settles O39: in a live block with a transfer in flight the agent moves, and its effect is `dmaAgent_eq`. -/
theorem dmaAgentStep : Obligations.DmaAgentStep := by
  intro s hr hf hx hd
  rw [step_agent hr hf hx hd, dmaAgent_eq]

theorem usesDma_true {c : Config} {n : Nat} (hp : c.dmaPresent = true) (hn : c.dmaThreshold < n) :
    usesDma c n = true := by
  simp [usesDma, hp, hn]

/-- A state from which the machine reaches the end of a drawn request on the DMA path, with the request's first transfer
in flight in an open bracket. -/
def Streams (s t : State) (xs ys : Word) (x0 y0 x1 y1 : Int) (c : Word) (n : Nat) : Prop :=
  t.dmaBusy = true ∧ t.busy = true ∧ t.cs = some false ∧
    ∃ k, Reaches k t { drawn s (drawTrace s.cfg xs ys x0 y0 x1 y1
        ((chunks s.cfg n).flatMap fun k => [.dmaStart c k, .dmaDone])) with
      dmaVal := some c, dmaRem := 0 }

/-- A stream that takes the DMA path stops at its first chunk, and the machine's steps send the rest. -/
theorem fillBody_dma (op : Byte) {s : State} {xs ys : Word} (x0 y0 x1 y1 : Int) (c : Word) {n : Nat} (ha : Accepts s)
    (hx : s.xStart = some xs) (hy : s.yStart = some ys) (hp : s.cfg.dmaPresent = true) (hn : s.cfg.dmaThreshold < n) :
    ∃ t, fillBody op s.accept x0 y0 x1 y1 c n = .next t ∧ Streams s t xs ys x0 y0 x1 y1 c n := by
  have hstart : streamRep (openWindow s xs ys x0 y0 x1 y1) c n = dmaChunk (openWindow s xs ys x0 y0 x1 y1) c n :=
    streamRep_dma (by rw [openWindow_eq]; exact usesDma_true hp hn)
  refine ⟨_, (fillBody_ready op x0 y0 x1 y1 c n hx hy).trans (congrArg _ hstart), ?_, ?_, ?_,
    reaches_stream (by omega) ha⟩ <;> rw [dmaChunk_eq, openWindow_eq]

/-! The pixel (R214). -/

/-- Settles O28: the pixel's effect past the gate, its clip written out, and the gate's fault. -/
theorem drawPixelCompletes : Obligations.DrawPixelCompletes := by
  intro s x y c
  refine ⟨fun W H xs ys hr => ?_, fun hi => ?_⟩
  · simp only [exec_drawPixel_ready hr, outside_iff, apply_ite Host.Outcome.next]
  · rw [exec, execDrawPixel, requireInit_accept_unset hi]

/-! The lines (R215, R216). -/

/-- What both lines do past the gate and the bounds: a no-op, or the pixel of a run shorter than 2, or the stream of a
run of `n` words whose other end is (x1, y1). -/
def lineBody (op : Byte) (s : State) (noop : Bool) (x y x1 y1 n : Int) (c : Word) : Outcome :=
  if noop then .next s.accept.ok
  else if n < 2 then pixelBody op s.accept x y c
  else fillBody op s.accept x y x1 y1 c n.toNat

/-- The no-op test of a line, as one disjunction. -/
theorem outside_or_empty (W H x y len : Int) :
    (outside W H x y || decide (len ≤ 0)) = decide (x < 0 ∨ x ≥ W ∨ y < 0 ∨ y ≥ H ∨ len ≤ 0) := by
  simp only [outside, ← Bool.decide_or, or_assoc]

section
variable {s : State} {W H xs ys : Word} (hr : Ready s W H xs ys)
include hr

theorem exec_drawHLine_ready (x y w c : Word) :
    exec (.drawHLine x y w c) s = lineBody 0x06 s
      (decide (x.toInt < 0 ∨ x.toInt ≥ W.toNat ∨ y.toInt < 0 ∨ y.toInt ≥ H.toNat ∨ w.toInt ≤ 0)) x.toInt y.toInt
      (x.toInt + clampRun W.toNat x.toInt w.toInt - 1) y.toInt (clampRun W.toNat x.toInt w.toInt) c := by
  obtain ⟨hi, hW, hH, -, -⟩ := hr
  rw [exec, execDrawHLine, requireInit_ready (by exact hi), withPanel_ready (by exact hW) (by exact hH),
    outside_or_empty]
  rfl

theorem exec_drawVLine_ready (x y h c : Word) :
    exec (.drawVLine x y h c) s = lineBody 0x07 s
      (decide (x.toInt < 0 ∨ x.toInt ≥ W.toNat ∨ y.toInt < 0 ∨ y.toInt ≥ H.toNat ∨ h.toInt ≤ 0)) x.toInt y.toInt
      x.toInt (y.toInt + clampRun H.toNat y.toInt h.toInt - 1) (clampRun H.toNat y.toInt h.toInt) c := by
  obtain ⟨hi, hW, hH, -, -⟩ := hr
  rw [exec, execDrawVLine, requireInit_ready (by exact hi), withPanel_ready (by exact hW) (by exact hH),
    outside_or_empty]
  rfl

/-- A line on the one-word path ends in the same step. -/
theorem lineBody_words (op : Byte) {noop : Bool} (x y x1 y1 : Int) {n : Int} (c : Word)
    (hd : noop = true ∨ n < 2 ∨ s.cfg.dmaPresent = false ∨ n ≤ s.cfg.dmaThreshold) :
    lineBody op s noop x y x1 y1 n c = .next (
      if noop then { s with busy := false, trace := s.trace ++ [.resp .ok 0] }
      else if n < 2 then drawn s (drawTrace s.cfg xs ys x y x y [.w c])
      else drawn s (drawTrace s.cfg xs ys x y x1 y1 ((chunks s.cfg n.toNat).map (Event.wrep c)))) := by
  obtain ⟨-, -, -, hx, hy⟩ := hr
  unfold lineBody
  split
  next => rw [State.accept_ok]
  next hnoop =>
    split
    next => exact pixelBody_ready op x y c hx hy
    next h2 =>
      have hpath : s.cfg.dmaPresent = false ∨ n ≤ s.cfg.dmaThreshold := (hd.resolve_left hnoop).resolve_left h2
      exact fillBody_words op x y x1 y1 c n.toNat hx hy (usesDma_false (hpath.imp_right fun h => by omega))

/-- A line on the DMA path, from its request to the end. -/
theorem lineBody_dma (op : Byte) {noop : Bool} (x y x1 y1 : Int) {n : Int} (c : Word) (ha : Accepts s)
    (hin : noop = false) (h2 : 2 ≤ n) (hp : s.cfg.dmaPresent = true) (hn : s.cfg.dmaThreshold < n) :
    ∃ t, lineBody op s noop x y x1 y1 n c = .next t ∧ Streams s t xs ys x y x1 y1 c n.toNat := by
  obtain ⟨-, -, -, hx, hy⟩ := hr
  rw [lineBody, hin, if_neg Bool.false_ne_true, if_neg h2.not_gt]
  exact fillBody_dma op x y x1 y1 c ha hx hy hp (by omega)

/-- A line from a start in the panel whose run is shorter than 2 is the pixel (R224). -/
theorem lineBody_degrades (op : Byte) {noop : Bool} {x y : Word} (x1 y1 : Int) {n : Int} (c : Word)
    (hin : noop = false) (h2 : n < 2) (hx : 0 ≤ x.toInt ∧ x.toInt < W.toNat) (hy : 0 ≤ y.toInt ∧ y.toInt < H.toNat) :
    lineBody op s noop x.toInt y.toInt x1 y1 n c = exec (.drawPixel x y c) s := by
  have hpix : ¬ outside W.toNat H.toNat x.toInt y.toInt = true := by rw [outside_iff]; omega
  rw [lineBody_words hr op _ _ _ _ c (.inr (.inl h2)), exec_drawPixel_ready hr, hin, if_neg Bool.false_ne_true,
    if_pos h2, if_neg hpix]

end

/-- Settles O29: the horizontal line is `lineBody` along x. -/
theorem drawHLineCompletes : Obligations.DrawHLineCompletes := by
  intro s W H xs ys x y w c hr n noop hd
  rw [exec_drawHLine_ready hr]
  exact lineBody_words hr 0x06 _ _ _ _ c hd

/-- Settles O30: the vertical line is `lineBody` along y. -/
theorem drawVLineCompletes : Obligations.DrawVLineCompletes := by
  intro s W H xs ys x y h c hr n noop hd
  rw [exec_drawVLine_ready hr]
  exact lineBody_words hr 0x07 _ _ _ _ c hd

/-- A line that reaches or passes the edge runs to it (R215). -/
theorem clampRun_of_ge {limit pos len : Int} (h : pos + len - 1 ≥ limit) : clampRun limit pos len = limit - pos :=
  if_pos h

/-- Settles O35: each line's run is cut to the cells left, fewer than 2. -/
theorem lineDegradesToPixel : Obligations.LineDegradesToPixel := by
  refine ⟨fun s W H xs ys x y w c hr hx0 hxW hy0 hyH hw hedge h2 => ?_,
    fun s W H xs ys x y h c hr hx0 hxW hy0 hyH hh hedge h2 => ?_⟩
  · rw [exec_drawHLine_ready hr, clampRun_of_ge hedge]
    exact lineBody_degrades hr 0x06 _ _ c (decide_eq_false (by omega)) h2 ⟨hx0, hxW⟩ ⟨hy0, hyH⟩
  · rw [exec_drawVLine_ready hr, clampRun_of_ge hedge]
    exact lineBody_degrades hr 0x07 _ _ c (decide_eq_false (by omega)) h2 ⟨hx0, hxW⟩ ⟨hy0, hyH⟩

/-- Settles O37: a run of at least 2 that exceeds the threshold is a stream on the DMA path, for both lines. -/
theorem dmaLinesComplete : Obligations.DmaLinesComplete := by
  intro s W H xs ys x y len c ha hr hx0 hxW hy0 hyH hlen hp
  have hin : decide (x.toInt < 0 ∨ x.toInt ≥ W.toNat ∨ y.toInt < 0 ∨ y.toInt ≥ H.toNat ∨ len.toInt ≤ 0) = false :=
    decide_eq_false (by omega)
  refine ⟨fun h2 hn => ?_, fun h2 hn => ?_⟩
  · rw [exec_drawHLine_ready hr]
    obtain ⟨t, ht, hdma, hbusy, -, k, hk⟩ := lineBody_dma hr 0x06 _ _ _ _ c ha hin h2 hp hn
    exact ⟨t, k, ht, hdma, hbusy, hk⟩
  · rw [exec_drawVLine_ready hr]
    obtain ⟨t, ht, hdma, hbusy, -, k, hk⟩ := lineBody_dma hr 0x07 _ _ _ _ c ha hin h2 hp hn
    exact ⟨t, k, ht, hdma, hbusy, hk⟩

/-! The rectangle (R217). -/

/-- The no-op test of a rectangle, as one disjunction. -/
theorem outside_or_emptySides (W H x y w h : Int) :
    (outside W H x y || decide (w ≤ 0 ∨ h ≤ 0)) = decide (x < 0 ∨ y < 0 ∨ x ≥ W ∨ y ≥ H ∨ w ≤ 0 ∨ h ≤ 0) := by
  rw [outside, ← Bool.decide_or]
  exact decide_eq_decide.2 (by omega)

/-- `FILL_RECT` on a block that is set up, from its clipped origin (X, Y) and clipped sides w1, h1. -/
theorem exec_fillRect_ready {s : State} {W H xs ys x y w h : Word} {X Y w1 h1 : Int} (hr : Ready s W H xs ys)
    (hx : clipOrigin s.cfg.negOrigin x.toInt w.toInt = (X, w1))
    (hy : clipOrigin s.cfg.negOrigin y.toInt h.toInt = (Y, h1)) (c : Word) :
    exec (.fillRect x y w h c) s =
      if decide (X < 0 ∨ Y < 0 ∨ X ≥ W.toNat ∨ Y ≥ H.toNat ∨ w1 ≤ 0 ∨ h1 ≤ 0) then .next s.accept.ok
      else fillBody 0x08 s.accept X Y (X + clampRun W.toNat X w1 - 1) (Y + clampRun H.toNat Y h1 - 1) c
        (clampRun W.toNat X w1 * clampRun H.toNat Y h1).toNat := by
  obtain ⟨hi, hW, hH, -, -⟩ := hr
  rw [exec, execFillRect, requireInit_ready (by exact hi), withPanel_ready (by exact hW) (by exact hH)]
  simp only [State.accept_cfg, hx, hy, outside_or_emptySides]

/-- Settles O31: past the clipped origin the request is a no-op or a stream on the one-word path. -/
theorem fillRectCompletes : Obligations.FillRectCompletes := by
  intro s W H xs ys x y w h c hr clipX clipY X Y w1 h1 w2 h2 noop hd
  rw [exec_fillRect_ready hr (clipOrigin_eq ..) (clipOrigin_eq ..)]
  obtain ⟨-, -, -, hxs, hys⟩ := hr
  change (if noop then _ else _) = _
  split
  next => rw [State.accept_ok]
  next hnoop =>
    have hpath : s.cfg.dmaPresent = false ∨ w2 * h2 ≤ s.cfg.dmaThreshold := hd.resolve_left hnoop
    exact fillBody_words 0x08 X Y _ _ c (w2 * h2).toNat hxs hys (usesDma_false (hpath.imp_right fun h => by omega))

/-- Settles O36: past the clipped origin the request is a stream on the DMA path. -/
theorem dmaFillCompletes : Obligations.DmaFillCompletes := by
  intro s W H xs ys x y w h c ha hr clipX clipY X Y w1 h1 w2 h2 hin hp hn
  rw [exec_fillRect_ready hr (clipOrigin_eq ..) (clipOrigin_eq ..), decide_eq_false hin, if_neg Bool.false_ne_true]
  obtain ⟨-, -, -, hxs, hys⟩ := hr
  exact fillBody_dma 0x08 X Y _ _ c ha hxs hys hp (show s.cfg.dmaThreshold < (w2 * h2).toNat by omega)

/-- A run inside the panel is not cut (R215). -/
theorem clampRun_of_le {limit pos len : Int} (h : pos + len ≤ limit) : clampRun limit pos len = len :=
  if_neg (by omega)

/-- Settles O32: neither the origin nor a side is cut, and the chunks of `w*h` words are the sizes. -/
theorem fillInsidePanel : Obligations.FillInsidePanel := by
  intro s W H xs ys x y w h c hr hp hx hy hw hh hxW hyH
  refine ⟨chunks s.cfg (w.toNat * h.toNat), chunks_sum .., fun k hk => ⟨chunks_pos _ _ k hk, chunks_le _ _ k hk⟩, ?_⟩
  have hfill := exec_fillRect_words (c := c) hr (clipOrigin_of_nonneg _ w.toInt hx) (clipOrigin_of_nonneg _ h.toInt hy)
    (decide_eq_false (by omega)) (by omega) (by omega) (usesDma_false (.inl hp))
  rwa [clampRun_of_le hxW, clampRun_of_le hyH, toNat_toInt_mul (by omega) (by omega)] at hfill

end Sys2Proof.Machine
end

section
/-! The mode toggles and the helpers (43_modes_and_helpers R259 to R269). -/

namespace Sys2Proof.Machine

/-! The toggles. -/

/-- A toggle on a block that is not set up (60_exceptions R301, R303). -/
theorem toggle_unset {op cmd : Byte} {settle : Option Nat} {s : State} (h : s.initialized = false) :
    toggle op cmd settle s = .next (faultedAt s .notInitialized op .none) :=
  requireInit_accept_unset h

/-- Settles O44: each of the four is a toggle of its operand's command and settle delay. -/
theorem togglesComplete : Obligations.TogglesComplete := by
  intro s on
  refine ⟨fun hi => ⟨?invert, ?sleep, ?idle, ?enable⟩, fun hi => ⟨?invertUnset, ?sleepUnset, ?idleUnset, ?enableUnset⟩⟩
  case invert | sleep | idle | enable => exact toggle_eq hi
  case invertUnset | sleepUnset | idleUnset | enableUnset => exact toggle_unset hi

/-- Settles O45: `PARTIAL` is the toggle of partial mode and normal mode. -/
theorem partialToggleCompletes : Obligations.PartialToggleCompletes :=
  fun _ _ => ⟨toggle_eq, toggle_unset⟩

/-- `POWER_SAVE` behind the gate: the mode's entry decides (R265). -/
theorem execPowerSave_ready {s : State} {mode : Byte} (h : s.initialized = true) :
    execPowerSave mode s = (s.cfg.pwrSave.lookup mode).elim
      (.next (faultedAt s .badMode 0x15 (.mode mode))) fun e => .next (toggled s e.cmd e.settle) := by
  rw [execPowerSave, requireInit_ready (by exact h), powerEntry, State.accept_cfg]
  cases s.cfg.pwrSave.lookup mode with
  | none => rfl
  | some e => exact toggle_eq h

/-- Settles O46: the gate first, then the mode's entry. -/
theorem powerSaveCompletes : Obligations.PowerSaveCompletes := by
  intro s mode
  refine ⟨fun e hi he => ?entry, fun hi hn => ?noEntry, fun hi => ?unset⟩
  case entry => rw [exec, execPowerSave_ready hi, he, Option.elim_some]
  case noEntry => rw [exec, execPowerSave_ready hi, hn, Option.elim_none]
  case unset => rw [exec, execPowerSave, requireInit_accept_unset hi]

/-! The helpers. -/

/-- An accepted request that only responds. -/
theorem State.accept_respond (s : State) (st : Status) (v : Word) :
    s.accept.respond st v = { s with busy := false, trace := s.trace ++ [.resp st v] } := by
  simp [State.accept, State.respond, State.emit]

/-- Settles O47: `SET_BRIGHTNESS` is accepted and responds, with no gate between. -/
theorem setBrightnessResponds : Obligations.SetBrightnessResponds := fun s _ =>
  congrArg Host.Outcome.next (s.accept_respond .unsupported 0)

/-- A concatenation as a number, the left part high. -/
theorem toNat_append_eq_mul_add {m n : Nat} (x : BitVec m) (y : BitVec n) :
    (x ++ y).toNat = x.toNat * 2 ^ n + y.toNat := by
  rw [BitVec.toNat_append, ← Nat.shiftLeft_add_eq_or_of_lt y.isLt, Nat.shiftLeft_eq]

/-- The packed color as a number (R269): each channel cut to its top bits, red highest. -/
theorem pack565_eq_ofNat (r g b : Byte) :
    pack565 r g b = BitVec.ofNat 16 (r.toNat / 8 * 2048 + g.toNat / 4 * 32 + b.toNat / 8) := by
  have hr := r.isLt
  have hg := g.isLt
  have hb := b.isLt
  apply BitVec.eq_of_toNat_eq
  simp only [pack565, toNat_append_eq_mul_add, BitVec.extractLsb'_toNat, Nat.shiftRight_eq_div_pow, BitVec.toNat_ofNat]
  omega

/-- Settles O48: `COLOR565` is accepted and responds the packed color, with no gate between. -/
theorem color565Packs : Obligations.Color565Packs := by
  refine ⟨fun s r g b => ?_, by decide⟩
  rw [← pack565_eq_ofNat, ← State.accept_respond]
  rfl

end Sys2Proof.Machine
end

section
/-! A recorded fault or a refusal stops the block until reset (60_exceptions R303, R305). -/

namespace Sys2Proof.Machine

theorem step_faulted {s : State} {r : FaultRecord} (hf : s.fault = some r) (hr : s.resetIn = false) :
    step s = .fault .quiescent := by
  simp [step, cycle, hr, hf]

/-- Settles O6: the fault gate and the refusal gate stand before any agent's move, and the reset before both. -/
theorem onlyResetLeavesFault : Obligations.OnlyResetLeavesFault :=
  ⟨fun _ _ hf hr => step_faulted hf hr, fun _ hx hf hr => step_refused hx hr hf,
    fun s h => ⟨s.applyReset, step_reset h, rfl, rfl, rfl⟩⟩

end Sys2Proof.Machine
end

section
/-! The reset input restores the whole block (70_reset_and_hazards R340). -/

namespace Sys2Proof.Machine

/-- Settles O2: the reset input is sampled before any agent moves, and what it answers is the reset state around the
memory and the requests. -/
theorem resetInputRestoresBlock : Obligations.ResetInputRestoresBlock :=
  fun _ h => step_reset h

end Sys2Proof.Machine
end

section
/-! The spec's sample words (95_test_vectors 2.1, 2.2). -/

namespace Sys2Proof

theorem decodeRequest_of_toRequest_eq {i : Instr} {q : Request} (hr : i.isRecord = false)
    (hq : i.fields.toRequest = q) : decodeRequest q = .ok i := by
  rw [← hq, decodeRequest_toRequest, decodeFields_fields hr]

/-- Settles O13: each sample is the encoding of the instruction it stands for, so the round trip decodes it. The `INVERT`
word alone is no encoding: its `M` is 0x80, where the encoder writes 1 for true, so it is decoded as it stands. -/
theorem sampleWordsDecode : Obligations.SampleWordsDecode := by
  have invert_nonzero : decodeRequest 0x00000000000000000000000000008010 = .ok (.invert true) := by decide
  exact ⟨decodeRequest_of_toRequest_eq rfl (by decide),
    decodeRequest_of_toRequest_eq rfl (by decide),
    decodeRequest_of_toRequest_eq rfl (by decide),
    invert_nonzero,
    decodeRequest_of_toRequest_eq rfl (by decide),
    decode_encode (i := .recordDelay 0xC0 [0xA2, 0x02, 0x84] 0x0A) rfl⟩

end Sys2Proof
end
